-- ==== Sys2Proof/Word.lean ====
section
/-! DEFINITION. Word: the byte and the pin level, the two smallest values of the block (00_scope.md R13, R14). -/

namespace Sys2Proof

/-- A byte: 8 bits, an unsigned integer 0 to 255 (R13). -/
abbrev Byte := BitVec 8

/-- The level of a pin (R14): high is asserted for both outputs (R75), low is pressed for the button (R74). -/
inductive Level where
  | low
  | high
deriving DecidableEq, Repr, Inhabited

end Sys2Proof
end

