-- ==== Sys2Proof/Syntax.lean ====
section
/-! DEFINITION. Syntax: the 28 rows of the opcode table, nine operations (00_scope.md R6) and nineteen
controller commands (30_encoding.md R95), with their operands. -/

namespace Sys2Proof

/-- A RenderArea, format AREA: four unsigned bytes in this order, both ends inclusive (R120, R90). -/
structure Area where
  startCol : Byte
  endCol : Byte
  startPage : Byte
  endPage : Byte
deriving DecidableEq, Repr

/-- The names of the nineteen controller commands, in the order of R95. -/
inductive Cmd where
  | dispOff | memMode | startLine | segRemap | comDir | muxRatio | dispOffset | comPins | clkDiv
  | precharge | vcomh | contrast | entireOnRam | normal | chargePump | scrollOff | dispOn
  | colAddr | pageAddr
deriving DecidableEq, Repr, Inhabited

/-- One constructor for each row of the opcode table. The first nine are the operations of R6; the rest are
the controller commands of R95 with their parameter bytes (R96). -/
inductive Instr where
  | computeBufferLength (area : Area)
  | sendCommand (b : Byte)
  | sendPixelBuffer (buf : List Byte)
  | init
  | render (buf : List Byte) (area : Area)
  | clear
  | drawNumber (v : Int) (n : Nat)
  | poll
  | tick
  | dispOff
  | memMode (p : Byte)
  | startLine
  | segRemap
  | comDir
  | muxRatio (p : Byte)
  | dispOffset (p : Byte)
  | comPins (p : Byte)
  | clkDiv (p : Byte)
  | precharge (p : Byte)
  | vcomh (p : Byte)
  | contrast (p : Byte)
  | entireOnRam
  | normal
  | chargePump (p : Byte)
  | scrollOff
  | dispOn
  | colAddr (a b : Byte)
  | pageAddr (a b : Byte)
deriving DecidableEq, Repr

end Sys2Proof
end

