-- ==== Sys2Proof/WellFormed.lean ====
section
/-! DEFINITION. WellFormed: which instruction terms stand for an operation of the block. The value of
draw_number is a non-negative integer (R151, R155); a byte sequence and the two numbers of draw_number must fit
the 32-bit fields of the stored form (notes/assumptions/8.md). Areas are not checked here: an invalid area raises
ContractViolation when it is used (R122, R136). -/

namespace Sys2Proof

/-- The numbers the stored form's 32-bit fields hold (notes/assumptions/8.md). -/
def fieldLimit : Nat := 2 ^ 32

/-- A byte sequence whose length fits the stored form (DESIGN CHOICE, notes/assumptions/8.md). -/
def bufferFits (buf : List Byte) : Bool := decide (buf.length < fieldLimit)

/-- The check of an instruction term. -/
def Instr.wellFormed : Instr → Bool
  | .sendPixelBuffer buf => bufferFits buf
  | .render buf _ => bufferFits buf
  | .drawNumber v n => decide (0 ≤ v) && decide (v < (fieldLimit : Int)) && decide (n < fieldLimit)
  | .computeBufferLength _ => true
  | .sendCommand _ => true
  | .init => true
  | .clear => true
  | .poll => true
  | .tick => true
  | .dispOff => true
  | .memMode _ => true
  | .startLine => true
  | .segRemap => true
  | .comDir => true
  | .muxRatio _ => true
  | .dispOffset _ => true
  | .comPins _ => true
  | .clkDiv _ => true
  | .precharge _ => true
  | .vcomh _ => true
  | .contrast _ => true
  | .entireOnRam => true
  | .normal => true
  | .chargePump _ => true
  | .scrollOff => true
  | .dispOn => true
  | .colAddr _ _ => true
  | .pageAddr _ _ => true

end Sys2Proof
end

