-- ==== Sys2Proof/Decode.lean ====
section
/-! DEFINITION. Decode: the stored form of an instruction, its decoder and its encoder. The spec's encodings are
the operation labels op[3:0] (30_encoding.md R98) and the CMD words [control byte, opcode] of the controller
commands (R92, R95, and the table's rows). The block itself stores no program (R84); how operands follow the
label or the opcode in the queue an outside caller fills is DESIGN CHOICE, notes/assumptions/8.md. -/

namespace Sys2Proof

/-! ### The tables of R95 and R98 -/

/-- The nineteen commands in the order of R95. -/
def Cmd.all : List Cmd :=
  [.dispOff, .memMode, .startLine, .segRemap, .comDir, .muxRatio, .dispOffset, .comPins, .clkDiv,
   .precharge, .vcomh, .contrast, .entireOnRam, .normal, .chargePump, .scrollOff, .dispOn,
   .colAddr, .pageAddr]

/-- The number of parameter bytes of a command: the column "params" of R95. -/
def Cmd.params : Cmd → Nat
  | .dispOff => 0
  | .memMode => 1
  | .startLine => 0
  | .segRemap => 0
  | .comDir => 0
  | .muxRatio => 1
  | .dispOffset => 1
  | .comPins => 1
  | .clkDiv => 1
  | .precharge => 1
  | .vcomh => 1
  | .contrast => 1
  | .entireOnRam => 0
  | .normal => 0
  | .chargePump => 1
  | .scrollOff => 0
  | .dispOn => 0
  | .colAddr => 2
  | .pageAddr => 2

/-- The control byte of the opcode table's CMD rows (R91's default): bits 15..8 of the row's word. -/
def tableCtrlCmd : Byte := 0x80

/-- The opcode byte of a command in the opcode table: bits 7..0 of the row's word (R95's default). -/
def Cmd.tableOpcode : Cmd → Byte
  | .dispOff => 0xAE
  | .memMode => 0x20
  | .startLine => 0x40
  | .segRemap => 0xA1
  | .comDir => 0xC8
  | .muxRatio => 0xA8
  | .dispOffset => 0xD3
  | .comPins => 0xDA
  | .clkDiv => 0xD5
  | .precharge => 0xD9
  | .vcomh => 0xDB
  | .contrast => 0x81
  | .entireOnRam => 0xA4
  | .normal => 0xA6
  | .chargePump => 0x8D
  | .scrollOff => 0x2E
  | .dispOn => 0xAF
  | .colAddr => 0x21
  | .pageAddr => 0x22

/-- The command whose table opcode is `b`. -/
def Cmd.ofTableOpcode (b : Byte) : Option Cmd :=
  Cmd.all.find? fun c => c.tableOpcode == b

/-! ### Decoding -/

/-- Why bytes decode to no instruction. -/
inductive DecodeError where
  /-- There is no byte. -/
  | empty
  /-- The bytes end inside the operands. -/
  | truncated
  /-- An operation label 0b1001 to 0b1111 (R100 a). -/
  | reservedLabel (label : Nat)
  /-- A CMD word whose opcode is none of the nineteen (R100 c). -/
  | unknownCommand (opcode : Byte)
  /-- A first byte that opens neither an operation nor a CMD word (R100 b). -/
  | unknownFormat (first : Byte)
deriving DecidableEq, Repr

/-- What a decoder answers: an instruction and the bytes after it, or why there is none. -/
abbrev Decoded := Except DecodeError (Instr × List Byte)

/-- A 32-bit number of the stored form, most significant byte first. -/
def be32 (a b c d : Byte) : Nat :=
  ((a.toNat * 256 + b.toNat) * 256 + c.toNat) * 256 + d.toNat

/-- The four bytes of a number below 2^32, most significant first. -/
def toBe32 (n : Nat) : List Byte :=
  [BitVec.ofNat 8 (n / 16777216), BitVec.ofNat 8 (n / 65536), BitVec.ofNat 8 (n / 256), BitVec.ofNat 8 n]

/-- Reads a length and that many bytes, and gives them to `build`. -/
def decodeBuffer (build : List Byte → Instr) : List Byte → Decoded
  | a :: b :: c :: d :: r =>
    if be32 a b c d ≤ r.length then .ok (build (r.take (be32 a b c d)), r.drop (be32 a b c d))
    else .error .truncated
  | _ => .error .truncated

/-- Reads the four bytes of an AREA record (R90). -/
def decodeArea (build : Area → List Byte → Decoded) : List Byte → Decoded
  | c0 :: c1 :: p0 :: p1 :: r => build ⟨c0, c1, p0, p1⟩ r
  | _ => .error .truncated

/-- Reads one operand byte. -/
def decodeByte (build : Byte → Instr) : List Byte → Decoded
  | p :: r => .ok (build p, r)
  | _ => .error .truncated

/-- Reads two operand bytes. -/
def decodeBytes2 (build : Byte → Byte → Instr) : List Byte → Decoded
  | a :: b :: r => .ok (build a b, r)
  | _ => .error .truncated

/-- Reads the two numbers of draw_number. -/
def decodeNumber : List Byte → Decoded
  | a :: b :: c :: d :: e :: f :: g :: h :: r =>
    .ok (.drawNumber (be32 a b c d : Int) (be32 e f g h), r)
  | _ => .error .truncated

/-- An operation, from its label op[3:0] (R98). -/
def decodeOp (label : Nat) (r : List Byte) : Decoded :=
  match label with
  | 0 => decodeArea (fun a r => .ok (.computeBufferLength a, r)) r
  | 1 => decodeByte .sendCommand r
  | 2 => decodeBuffer .sendPixelBuffer r
  | 3 => .ok (.init, r)
  | 4 => decodeArea (fun a r => decodeBuffer (fun buf => .render buf a) r) r
  | 5 => .ok (.clear, r)
  | 6 => decodeNumber r
  | 7 => .ok (.poll, r)
  | 8 => .ok (.tick, r)
  | n => .error (.reservedLabel n)

/-- A controller command, from its name (R95), its parameter bytes following. -/
def decodeCmd (c : Cmd) (r : List Byte) : Decoded :=
  match c with
  | .dispOff => .ok (.dispOff, r)
  | .memMode => decodeByte .memMode r
  | .startLine => .ok (.startLine, r)
  | .segRemap => .ok (.segRemap, r)
  | .comDir => .ok (.comDir, r)
  | .muxRatio => decodeByte .muxRatio r
  | .dispOffset => decodeByte .dispOffset r
  | .comPins => decodeByte .comPins r
  | .clkDiv => decodeByte .clkDiv r
  | .precharge => decodeByte .precharge r
  | .vcomh => decodeByte .vcomh r
  | .contrast => decodeByte .contrast r
  | .entireOnRam => .ok (.entireOnRam, r)
  | .normal => .ok (.normal, r)
  | .chargePump => decodeByte .chargePump r
  | .scrollOff => .ok (.scrollOff, r)
  | .dispOn => .ok (.dispOn, r)
  | .colAddr => decodeBytes2 .colAddr r
  | .pageAddr => decodeBytes2 .pageAddr r

/-- The decoder, total on any bytes. -/
def decode : List Byte → Decoded
  | [] => .error .empty
  | first :: r =>
    if first = tableCtrlCmd then
      match r with
      | [] => .error .truncated
      | opcode :: r =>
        match Cmd.ofTableOpcode opcode with
        | some c => decodeCmd c r
        | none => .error (.unknownCommand opcode)
    else if first.toNat < 16 then decodeOp first.toNat r
    else .error (.unknownFormat first)

/-! ### Encoding -/

/-- The four bytes of an AREA record (R90). -/
def encodeArea (a : Area) : List Byte := [a.startCol, a.endCol, a.startPage, a.endPage]

/-- A byte sequence after its length. -/
def encodeBuffer (buf : List Byte) : List Byte := toBe32 buf.length ++ buf

/-- The word of a controller command, then its parameters (R92, R95). -/
def encodeCmd (c : Cmd) (ps : List Byte) : List Byte := tableCtrlCmd :: c.tableOpcode :: ps

/-- The bytes of an instruction, from the tables of R98 and R95. -/
def encode : Instr → List Byte
  | .computeBufferLength a => 0x00 :: encodeArea a
  | .sendCommand b => [0x01, b]
  | .sendPixelBuffer buf => 0x02 :: encodeBuffer buf
  | .init => [0x03]
  | .render buf a => 0x04 :: (encodeArea a ++ encodeBuffer buf)
  | .clear => [0x05]
  | .drawNumber v n => 0x06 :: (toBe32 v.toNat ++ toBe32 n)
  | .poll => [0x07]
  | .tick => [0x08]
  | .dispOff => encodeCmd .dispOff []
  | .memMode p => encodeCmd .memMode [p]
  | .startLine => encodeCmd .startLine []
  | .segRemap => encodeCmd .segRemap []
  | .comDir => encodeCmd .comDir []
  | .muxRatio p => encodeCmd .muxRatio [p]
  | .dispOffset p => encodeCmd .dispOffset [p]
  | .comPins p => encodeCmd .comPins [p]
  | .clkDiv p => encodeCmd .clkDiv [p]
  | .precharge p => encodeCmd .precharge [p]
  | .vcomh p => encodeCmd .vcomh [p]
  | .contrast p => encodeCmd .contrast [p]
  | .entireOnRam => encodeCmd .entireOnRam []
  | .normal => encodeCmd .normal []
  | .chargePump p => encodeCmd .chargePump [p]
  | .scrollOff => encodeCmd .scrollOff []
  | .dispOn => encodeCmd .dispOn []
  | .colAddr a b => encodeCmd .colAddr [a, b]
  | .pageAddr a b => encodeCmd .pageAddr [a, b]

/-! ### The opcode table's numbering -/

/-- The bytes of `k` 16-bit words, the first word the least significant, each word's upper byte first: the upper
byte of a row's word is the control byte, which travels first (R51, R90; notes/assumptions/8.md). -/
def wordBytes : Nat → Nat → List Byte
  | 0, _ => []
  | k + 1, w => BitVec.ofNat 8 (w / 256) :: BitVec.ofNat 8 w :: wordBytes k (w / 65536)

/-- The operand bytes above a row's bits, all zero, up to the longest fixed part of an instruction. -/
def zeroOperands : List Byte := List.replicate 8 0

/-- An instruction's bytes as the table numbers its bits: a label is one byte, a CMD row is 16-bit words; every
bit above the row's is 0. -/
def layoutWord (nbits w : Nat) : List Byte :=
  (if nbits ≤ 8 then [BitVec.ofNat 8 w] else wordBytes ((nbits + 15) / 16) w) ++ zeroOperands

/-- The instruction the decoder reads from a row's word. -/
def decodeTableWord (nbits w : Nat) : Option Instr :=
  match decode (layoutWord nbits w) with
  | .ok (i, _) => some i
  | .error _ => none

end Sys2Proof
end

