-- ==== Sys2Proof/Config.lean ====
section
/-! DEFINITION. Config: the configuration record CFG (00_scope.md R8 to R11), the answers the environment can
give, and the opaque free values: what an environment agent answers (R5) and what the spec calls unspecified. -/

namespace Sys2Proof

/-- What a failed bus write did to the target (R9, R68). -/
inductive FailedTxnEffect where
  | none
  | anyPrefix
deriving DecidableEq, Repr

/-- The opcode bytes of R95 and the parameter bytes that are constants of CFG.CMD (R97). MUX_VAL, OFFSET_VAL
and CONTRAST_VAL are not here: R97 gives their values. -/
structure CmdBytes where
  dispOff : Byte
  memMode : Byte
  startLine : Byte
  segRemap : Byte
  comDir : Byte
  muxRatio : Byte
  dispOffset : Byte
  comPins : Byte
  clkDiv : Byte
  precharge : Byte
  vcomh : Byte
  contrast : Byte
  entireOnRam : Byte
  normal : Byte
  chargePump : Byte
  scrollOff : Byte
  dispOn : Byte
  colAddr : Byte
  pageAddr : Byte
  memHoriz : Byte
  comPinsVal : Byte
  clkDivVal : Byte
  prechargeVal : Byte
  vcomhVal : Byte
  chargePumpVal : Byte
deriving DecidableEq, Repr

/-- The configuration record CFG: the parameters of R9, then those of R10, then the glyph ROM (R33). No
operation writes any field of it (R8). -/
structure Cfg where
  width : Nat
  height : Nat
  devAddr : Nat
  ctrlCmd : Byte
  ctrlData : Byte
  cmd : CmdBytes
  glyphW : Nat
  digitPage : Nat
  clkPin : Nat
  dataPin : Nat
  btnPin : Nat
  ledPin : Nat
  solPin : Nat
  initialBpm : Nat
  initialEnabled : Bool
  tsW : Nat
  cntW : Nat
  failedTxn : FailedTxnEffect
  pageHeight : Nat
  bpmMin : Nat
  bpmMax : Nat
  usPerMin : Nat
  btnDebounceUs : Nat
  pulseUs : Nat
  pollDelayMs : Nat
  digits : Nat
  numGlyphs : Nat
  glyphs : List (List Byte)
deriving DecidableEq, Repr

/-- One answer of the bus transport (R50): ok, bus_error, or no answer at all. `taken` is how many bytes of the
transaction the target had taken by then (R68; notes/assumptions/12.md). -/
inductive BusAnswer where
  | ok
  | busError (taken : Nat)
  | stall (taken : Nat)
deriving DecidableEq, Repr, Inhabited

/-- The levels of the three input pins at one sampling instant (R74, R161). -/
structure PinSample where
  clk : Level
  data : Level
  btn : Level
deriving DecidableEq, Repr, Inhabited

/-- Where a free value of the bus target is drawn: at its power-on (R60), or at a later moment, numbered. -/
inductive Draw where
  | powerOn
  | later (n : Nat)
deriving DecidableEq, Repr

/-- The numbered registers of the bus target whose values can be free (R60). -/
inductive TargetNumber where
  | colStart | colEnd | pageStart | pageEnd | col | page
deriving DecidableEq, Repr

/-- The flags of the bus target whose values can be free (R60). -/
inductive TargetFlag where
  | displayOn | scrollActive | modeHorizontal
deriving DecidableEq, Repr

/-- Free: what the transport answers at its draw `n` (R50, decision D29). -/
opaque Config.busAnswer (n : Nat) : BusAnswer

/-- Free: the input pin levels at its draw `n` (R74: any level at any call). -/
opaque Config.pinSample (n : Nat) : PinSample

/-- Free: how far the clock has moved before the read at its draw `n` (R76: successive reads never decrease). -/
opaque Config.clockAdvance (n : Nat) : Nat

/-- Free: the clock's value at reset (R43, R242). -/
opaque Config.clockStart : Nat

/-- Free: ENC.last_clk_level at reset (R43: either level). -/
opaque Config.resetClkLevel : Level

/-- Free: the bytes of the glyph ROM (R33: the contents are not specified). -/
opaque Config.glyphByte (tile column : Nat) : Byte

/-- Free: a numbered register of the target (R60, U6). -/
opaque Config.targetNumber (d : Draw) (r : TargetNumber) : Nat

/-- Free: a flag of the target (R60, U6). -/
opaque Config.targetFlag (d : Draw) (f : TargetFlag) : Bool

/-- Free: the byte of display RAM at a key (R60, R66, U6). -/
opaque Config.ramByte (d : Draw) (addr : Nat) : Byte

/-- Free: T.pending (R60, U6). -/
opaque Config.targetPending (d : Draw) : Option (Cmd × List Byte)

/-- Free: the record of settings a target that is no longer described has received (U6). -/
opaque Config.targetReceived (n : Nat) : List (Cmd × List Byte)

/-- The default command bytes of R95. -/
def CmdBytes.default : CmdBytes where
  dispOff := 0xAE
  memMode := 0x20
  startLine := 0x40
  segRemap := 0xA1
  comDir := 0xC8
  muxRatio := 0xA8
  dispOffset := 0xD3
  comPins := 0xDA
  clkDiv := 0xD5
  precharge := 0xD9
  vcomh := 0xDB
  contrast := 0x81
  entireOnRam := 0xA4
  normal := 0xA6
  chargePump := 0x8D
  scrollOff := 0x2E
  dispOn := 0xAF
  colAddr := 0x21
  pageAddr := 0x22
  memHoriz := 0x00
  comPinsVal := 0x02
  clkDivVal := 0x80
  prechargeVal := 0xF1
  vcomhVal := 0x30
  chargePumpVal := 0x14

/-- The configuration of the defaults of R9 and the values of R10. GLYPH_W has no default (8 is that of the
example configuration), the pin identifiers are opaque numbers and the tile bytes are free: DESIGN CHOICE,
notes/assumptions/2.md. -/
def Cfg.default : Cfg where
  width := 128
  height := 32
  devAddr := 0x3C
  ctrlCmd := 0x80
  ctrlData := 0x40
  cmd := CmdBytes.default
  glyphW := 8
  digitPage := 0
  clkPin := 0
  dataPin := 1
  btnPin := 2
  ledPin := 3
  solPin := 4
  initialBpm := 60
  initialEnabled := true
  tsW := 64
  cntW := 32
  failedTxn := .anyPrefix
  pageHeight := 8
  bpmMin := 1
  bpmMax := 300
  usPerMin := 60000000
  btnDebounceUs := 50000
  pulseUs := 50000
  pollDelayMs := 1
  digits := 3
  numGlyphs := 11
  glyphs := (List.range 11).map fun i => (List.range 8).map fun k => Config.glyphByte i k

end Sys2Proof
end

