-- ==== Sys2Proof/Machine/Geometry.lean ====
section
/-! DEFINITION. Geometry: the derived parameters of CFG (00_scope.md R11), the keys of display RAM (20_memory.md R59), and
display RAM whose every byte is drawn (R60, R66). -/

namespace Sys2Proof

/-- PAGES = HEIGHT / PAGE_HEIGHT (R11). -/
def Cfg.pages (c : Cfg) : Nat := c.height / c.pageHeight

/-- TOTAL_BUF_LEN = PAGES * WIDTH (R11). -/
def Cfg.totalBufLen (c : Cfg) : Nat := c.pages * c.width

/-- The key of display-RAM address (page, column): column 0 of page 0 is 0, and a page is WIDTH columns (R59). -/
def Cfg.cellAddr (c : Cfg) (page col : Nat) : Nat := page * c.width + col

/-- Display RAM with a free byte at each of its addresses and nothing beside (R60, R66; notes/assumptions/6.md). -/
def Cfg.drawnRam (c : Cfg) (d : Draw) : List Host.Cell :=
  (List.range c.totalBufLen).map fun a => (a, Config.ramByte d a)

end Sys2Proof
end

