-- ==== Sys2Proof/Machine/State.lean ====
section
/-! DEFINITION. State: every piece of state of 10_state.md, the bus target's registers of 20_memory.md R60, the
read-only configuration, and the model's own fields (named as such), all plain data; the reset state (R43, R240);
and the reasons a step stops. -/

namespace Sys2Proof.Machine

/-- ENC.last_direction (R28). -/
inductive Direction where
  | cw
  | ccw
  | none
deriving DecidableEq, Repr

/-- SEQ.pos, the position of the one sequencer (R26). -/
inductive SeqPos where
  | boot
  | s1
  | s2
  | s3
  | s4
  | fault
deriving DecidableEq, Repr

/-- Which check a ContractViolation failed (R136, R210). -/
inductive Violation where
  | invalidArea
  | areaOutsideDisplay
  | lengthMismatch
deriving DecidableEq, Repr

/-- How a call ended: the three statuses of R210, of which a BusTransactionFailure carries the index of the failed
transaction in the operation's sequence (R210) and the number it was raised with: the command byte (R126) or the
length of the pixel buffer (R127); and `noReturn`, which is not a status: the call never returns (R214). -/
inductive Status where
  | ok
  | busFailure (index info : Nat)
  | contractViolation (which : Violation)
  | noReturn
deriving DecidableEq, Repr

/-- The value an operation returned to its caller (R31, R121, R161, R210). -/
inductive Ret where
  | nothing
  | length (n : Nat)
  | press (b : Bool)
  | status (st : Status)
deriving DecidableEq, Repr

/-- What an observer outside the block sees, in order (R80, decision D27): a completed bus transaction with its
outcome (`ok` false is bus_error), or a pin write. -/
inductive Event where
  | bus (addr : Nat) (bytes : List Byte) (ok : Bool)
  | pin (pin : Nat) (level : Level)
deriving DecidableEq, Repr

/-- Why the reference model of the target describes it no longer (notes/assumptions/13.md): the spec has the model
of the target refuse the run there, or calls its state unconstrained. The block goes on. -/
inductive TargetLoss where
  /-- An opcode that is none of the nineteen (R100 c). -/
  | unknownOpcode
  /-- A transaction that is neither CMD nor DATA (R100 b). -/
  | badTransaction
  /-- Window bounds with start > end or beyond the display (R63, R64). -/
  | windowOutOfRange
  /-- A data transaction outside horizontal mode (R65). -/
  | notHorizontal
  /-- The first command byte after a composite operation that was cut inside a command, or data while a parameter is due
  (U6, R62). -/
  | misparsed
  /-- A parameter sent to MEM_MODE that init does not send (U15, R65). -/
  | reservedParameter
  /-- A pixel byte at a pointer outside the display (R60, R62). -/
  | pointerOutside
deriving DecidableEq, Repr

/-- Display RAM: address and byte pairs, addresses strictly rising. Every address of the display is listed (R60); one that is
not listed does not exist (notes/assumptions/6.md). -/
abbrev Memory := List Host.Cell

/-- ENC: the encoder's registers (R21, R22, R27, R28). -/
structure Encoder where
  counter : Int
  lastClkLevel : Level
  lastDirection : Direction
  lastButtonPressTimestamp : Nat
deriving DecidableEq, Repr

/-- MET: the metronome's registers (R23, R24, R25, R29, R30). -/
structure Metronome where
  bpm : BitVec 16
  enabled : Bool
  beatIntervalUs : BitVec 32
  lastBeatTimestamp : Nat
  pulseActive : Bool
deriving DecidableEq, Repr

/-- OUT: the two output pin levels (R35). -/
structure Outputs where
  led : Level
  sol : Level
deriving DecidableEq, Repr

/-- T.pending when it holds an opcode: the command, and the parameters that have arrived (R60, R61). `cut` is the model's own:
a composite operation was cut with this command waiting for a parameter (U6, notes/assumptions/14.md). -/
structure Pending where
  cmd : Cmd
  params : List Byte
  cut : Bool
deriving DecidableEq, Repr

/-- T: the registers of the bus target's reference model (R60, R61, R67). `lost` is the model's own field. -/
structure Target where
  ram : Memory
  colStart : Nat
  colEnd : Nat
  pageStart : Nat
  pageEnd : Nat
  col : Nat
  page : Nat
  displayOn : Bool
  scrollActive : Bool
  modeHorizontal : Bool
  pending : Option Pending
  received : List (Cmd × List Byte)
  lost : Option TargetLoss
deriving DecidableEq, Repr

/-- The environment's answers (R5): those written out in advance, taken from the head of each list; when a list is
empty, the opaque oracle of Config is read at the number of answers taken so far. The three agents are independent of
each other. The model's own (notes/assumptions/4.md). -/
structure Env where
  bus : List BusAnswer
  pins : List PinSample
  advances : List Nat
  busDraws : Nat
  pinDraws : Nat
  clockDraws : Nat
deriving DecidableEq, Repr

/-- The machine. -/
structure State where
  cfg : Cfg
  enc : Encoder
  met : Metronome
  prevCounter : Int
  pos : SeqPos
  out : Outputs
  target : Target
  events : List Event
  inflight : Option (List Byte)
  clock : Nat
  env : Env
  prog : List Byte
  ret : Ret
deriving DecidableEq, Repr

/-- Why a run stops. -/
inductive Fault where
  /-- Raised by the step of a block that a ContractViolation has faulted: it performs no further step (R212). Safe:
  the spec gives it no later behaviour. -/
  | faulted
  /-- Raised by the step of a block whose bus transaction was never answered: it hangs in it (R214). Safe: the spec
  gives it no later behaviour. -/
  | busStalled
deriving DecidableEq, Repr

/-- Why the model gives no meaning. -/
inductive Refusal where
  /-- An instruction without a meaning in exec. No arm uses it. Safe. -/
  | notModelled (mnemonic : String)
  /-- Raised by step: the configuration is not well formed, and the spec gives it no meaning (R12). Safe. -/
  | illFormedConfig
  /-- Raised by step: the queued bytes are no operation (R100). Safe. -/
  | badEncoding (why : DecodeError)
  /-- Raised by draw_number: a negative value has no meaning (R155). Safe. -/
  | negativeValue
deriving DecidableEq, Repr

/-- T.pending as drawn: no operation was cut. -/
def Target.drawnPending (d : Draw) : Option Pending :=
  (Config.targetPending d).map fun p => ⟨p.1, p.2, false⟩

/-- The target at its power-on: everything unspecified (R60), every byte of RAM and every register free
(notes/assumptions/5.md, 6.md). -/
def Target.powerOn (c : Cfg) : Target where
  ram := c.drawnRam .powerOn
  colStart := Config.targetNumber .powerOn .colStart
  colEnd := Config.targetNumber .powerOn .colEnd
  pageStart := Config.targetNumber .powerOn .pageStart
  pageEnd := Config.targetNumber .powerOn .pageEnd
  col := Config.targetNumber .powerOn .col
  page := Config.targetNumber .powerOn .page
  displayOn := Config.targetFlag .powerOn .displayOn
  scrollActive := Config.targetFlag .powerOn .scrollActive
  modeHorizontal := Config.targetFlag .powerOn .modeHorizontal
  pending := Target.drawnPending .powerOn
  received := []
  lost := none

/-- The machine right after power-on with configuration `cfg` (R43). -/
def State.resetWith (cfg : Cfg) : State where
  cfg := cfg
  enc :=
    { counter := 0
      lastClkLevel := Config.resetClkLevel
      lastDirection := .none
      lastButtonPressTimestamp := 0 }
  met :=
    { bpm := BitVec.ofNat 16 cfg.initialBpm
      enabled := cfg.initialEnabled
      beatIntervalUs := BitVec.ofNat 32 (cfg.usPerMin / cfg.initialBpm)
      lastBeatTimestamp := 0
      pulseActive := false }
  prevCounter := 0
  pos := .boot
  out := { led := .low, sol := .low }
  target := Target.powerOn cfg
  events := []
  inflight := none
  clock := Config.clockStart
  env := { bus := [], pins := [], advances := [], busDraws := 0, pinDraws := 0, clockDraws := 0 }
  prog := []
  ret := .nothing

/-- The machine right after reset, with the configuration of the spec's defaults (R9, R43, R240). -/
def State.reset : State := State.resetWith Cfg.default

end Sys2Proof.Machine
end

