-- ==== Sys2Proof/Machine/Operands.lean ====
section
/-! DEFINITION. Operands: what the operations compute from CFG and their operands before they touch any state:
the well-formedness of a configuration (R12), command bytes and their parameters (R95 to
R97), areas and their lengths (R120 to R123), the checks of render (R136), and the digits and slots of a number
(R152, R153). -/

namespace Sys2Proof

open Machine

/-! ### The configuration -/

/-- The five pin identifiers are distinct (R9, decision D1). -/
def Cfg.pinsDistinct (c : Cfg) : Bool :=
  decide [c.clkPin, c.dataPin, c.btnPin, c.ledPin, c.solPin].Nodup

/-- The constraints of R9 on geometry, and those they leave implied: at least one page and one glyph column
(notes/assumptions/17.md). -/
def Cfg.geometryOk (c : Cfg) : Bool :=
  decide (1 ≤ c.width ∧ c.width ≤ 256 ∧ 1 ≤ c.height ∧ c.height ≤ 256
    ∧ c.height % c.pageHeight = 0
    ∧ 1 ≤ c.glyphW ∧ c.digits * c.glyphW + (c.digits - 1) ≤ c.width
    ∧ c.digitPage < c.pages)

/-- The values the source gives (R10). -/
def Cfg.sourceValuesOk (c : Cfg) : Bool :=
  decide (c.pageHeight = 8 ∧ c.bpmMin = 1 ∧ c.bpmMax = 300
    ∧ c.usPerMin = 60000000 ∧ c.btnDebounceUs = 50000 ∧ c.pulseUs = 50000
    ∧ c.pollDelayMs = 1 ∧ c.digits = 3 ∧ c.numGlyphs = 11)

/-- The glyph ROM has NUM_GLYPHS tiles of exactly GLYPH_W bytes (R33). -/
def Cfg.glyphsOk (c : Cfg) : Bool :=
  decide (c.glyphs.length = c.numGlyphs) && c.glyphs.all fun t => decide (t.length = c.glyphW)

/-- A well-formed configuration (R12): every constraint of R9 and R10, and the glyph ROM's shape. -/
def Cfg.wf (c : Cfg) : Bool :=
  decide (c.geometryOk = true ∧ c.sourceValuesOk = true ∧ c.glyphsOk = true ∧ c.pinsDistinct = true
    ∧ c.ctrlCmd ≠ c.ctrlData
    ∧ c.bpmMin ≤ c.initialBpm ∧ c.initialBpm ≤ c.bpmMax
    ∧ 27 ≤ c.tsW ∧ 2 ≤ c.cntW)

/-! ### Command bytes -/

/-- The opcode byte of a command in this configuration (R95). -/
def Cfg.opcode (c : Cfg) : Cmd → Byte
  | .dispOff => c.cmd.dispOff
  | .memMode => c.cmd.memMode
  | .startLine => c.cmd.startLine
  | .segRemap => c.cmd.segRemap
  | .comDir => c.cmd.comDir
  | .muxRatio => c.cmd.muxRatio
  | .dispOffset => c.cmd.dispOffset
  | .comPins => c.cmd.comPins
  | .clkDiv => c.cmd.clkDiv
  | .precharge => c.cmd.precharge
  | .vcomh => c.cmd.vcomh
  | .contrast => c.cmd.contrast
  | .entireOnRam => c.cmd.entireOnRam
  | .normal => c.cmd.normal
  | .chargePump => c.cmd.chargePump
  | .scrollOff => c.cmd.scrollOff
  | .dispOn => c.cmd.dispOn
  | .colAddr => c.cmd.colAddr
  | .pageAddr => c.cmd.pageAddr

/-- The nineteen opcode bytes are pairwise different: what a target needs to tell commands apart. R9 does not ask
for it (notes/assumptions/21.md). -/
def Cfg.opcodesDistinct (c : Cfg) : Bool := decide (Cmd.all.map c.opcode).Nodup

/-- The command whose opcode byte is `b`; the first of R95's order if two share it (notes/assumptions/21.md). -/
def Cfg.cmdOfOpcode (c : Cfg) (b : Byte) : Option Cmd := Cmd.all.find? fun k => c.opcode k == b

/-- MUX_VAL = HEIGHT - 1 (R97). -/
def Cfg.muxVal (c : Cfg) : Byte := BitVec.ofNat 8 (c.height - 1)

/-- OFFSET_VAL = 0 (R97). -/
def offsetVal : Byte := 0x00

/-- CONTRAST_VAL = 255 (R97). -/
def contrastVal : Byte := 0xFF

/-- The commands of init with their parameters, in the order of R131. -/
def Cfg.initScript (c : Cfg) : List (Cmd × List Byte) :=
  [(.dispOff, []),
   (.memMode, [c.cmd.memHoriz]),
   (.startLine, []), (.segRemap, []), (.comDir, []),
   (.muxRatio, [c.muxVal]),
   (.dispOffset, [offsetVal]),
   (.comPins, [c.cmd.comPinsVal]), (.clkDiv, [c.cmd.clkDivVal]),
   (.precharge, [c.cmd.prechargeVal]), (.vcomh, [c.cmd.vcomhVal]),
   (.contrast, [contrastVal]),
   (.entireOnRam, []), (.normal, []), (.chargePump, [c.cmd.chargePumpVal]),
   (.scrollOff, []),
   (.dispOn, [])]

/-- SEQ_INIT: the command bytes of init in the order they are sent (R131). -/
def Cfg.seqInit (c : Cfg) : List Byte :=
  (c.initScript).flatMap fun x => c.opcode x.1 :: x.2

/-! ### Transactions -/

/-- What part a transaction has in its operation. Nothing on the wire carries it, and the target reads opcode or parameter by
position alone (R96): of what a failed transaction ends, it says whether that was a composite operation cut inside a command
(U6; notes/assumptions/14.md), and what number the failure is raised with (R126, R127). `raw` is send_command's byte. -/
inductive Role where
  | opcode
  | param
  | raw
  | data
deriving DecidableEq, Repr

/-- A bus transaction: its bytes, control byte first (R51). -/
structure Tx where
  role : Role
  bytes : List Byte
deriving DecidableEq, Repr

/-- The number a failed transaction is raised with: its command byte (R126), or the length of its payload (R127). -/
def Tx.info (tx : Tx) : Nat :=
  if tx.role = .data then tx.bytes.length - 1 else (tx.bytes.getD 1 0).toNat

/-- Format CMD: the control byte "command follows", then one command byte (R92). -/
def Cfg.cmdTx (c : Cfg) (role : Role) (b : Byte) : Tx := ⟨role, [c.ctrlCmd, b]⟩

/-- Format DATA: the control byte "data follows", then the whole payload (R93). -/
def Cfg.dataTx (c : Cfg) (buf : List Byte) : Tx := ⟨.data, c.ctrlData :: buf⟩

/-- A command with its parameters: one CMD transaction for the opcode and one for each parameter (R96). -/
def Cfg.commandTxs (c : Cfg) (k : Cmd) (ps : List Byte) : List Tx :=
  c.cmdTx .opcode (c.opcode k) :: ps.map (c.cmdTx .param)

/-- The transactions of init (R130, R131). -/
def Cfg.initTxs (c : Cfg) : List Tx :=
  (c.initScript).flatMap fun x => c.commandTxs x.1 x.2

/-! ### Areas -/

/-- A rectangle of display RAM, both ends inclusive, as integers: what an AREA record stands for (R120), and what
draw_number computes for a slot before it is known to fit the display (R151). -/
structure Rect where
  startCol : Nat
  endCol : Nat
  startPage : Nat
  endPage : Nat
deriving DecidableEq, Repr

/-- The rectangle of an AREA record (R120). -/
def Area.rect (a : Area) : Rect :=
  ⟨a.startCol.toNat, a.endCol.toNat, a.startPage.toNat, a.endPage.toNat⟩

/-- end >= start in both directions (R120). -/
def Rect.valid (r : Rect) : Bool := decide (r.startCol ≤ r.endCol) && decide (r.startPage ≤ r.endPage)

/-- ncols of R54 and R121. -/
def Rect.ncols (r : Rect) : Nat := r.endCol - r.startCol + 1

/-- npages of R121. -/
def Rect.npages (r : Rect) : Nat := r.endPage - r.startPage + 1

/-- The value of compute_buffer_length on a valid area (R121), on integers. -/
def Rect.bufferLength (r : Rect) : Nat := r.ncols * r.npages

/-- The area lies inside the display (R55 c). -/
def Cfg.inDisplay (c : Cfg) (r : Rect) : Bool :=
  decide (r.endCol ≤ c.width - 1) && decide (r.endPage ≤ c.pages - 1)

/-- The checks of render in their order (R136): the first that fails. -/
def Cfg.renderCheck (c : Cfg) (r : Rect) (len : Nat) : Option Violation :=
  if ¬ r.valid then some .invalidArea
  else if ¬ c.inDisplay r then some .areaOutsideDisplay
  else if len ≠ r.bufferLength then some .lengthMismatch
  else none

/-- The seven transactions of render: column window, page window, pixel buffer (R135). -/
def Cfg.renderTxs (c : Cfg) (r : Rect) (buf : List Byte) : List Tx :=
  c.commandTxs .colAddr [BitVec.ofNat 8 r.startCol, BitVec.ofNat 8 r.endCol]
    ++ c.commandTxs .pageAddr [BitVec.ofNat 8 r.startPage, BitVec.ofNat 8 r.endPage]
    ++ [c.dataTx buf]

/-- The whole display: the area of clear (R140). -/
def Cfg.fullRect (c : Cfg) : Rect := ⟨0, c.width - 1, 0, c.pages - 1⟩

/-- The display-RAM key of byte `k` of a buffer that fills `r` (R54). -/
def Cfg.bufferAddr (c : Cfg) (r : Rect) (k : Nat) : Nat :=
  c.cellAddr (r.startPage + k / r.ncols) (r.startCol + k % r.ncols)

/-! ### Digits and slots -/

/-- The decimal digit of `v` with `k` digits to its right (R152). -/
def digitAt (v k : Nat) : Nat := v / 10 ^ k % 10

/-- The slot with `k` slots to its right shows the blank tile: `v` is smaller than its place value, and it is not the
last slot (R152). -/
def blankAt (v k : Nat) : Bool := decide (v < 10 ^ k) && decide (k ≠ 0)

/-- Glyph(i): tile `i` of the glyph ROM (R33). -/
def Cfg.glyph (c : Cfg) (i : Nat) : List Byte := c.glyphs.getD i []

/-- The tile of the slot with `k` slots to its right: index 10 is the blank tile (R151, R33). -/
def Cfg.slotTile (c : Cfg) (v k : Nat) : List Byte :=
  if blankAt v k then c.glyph 10 else c.glyph (digitAt v k)

/-- The rectangle of slot `i`, slot 0 leftmost (R153). -/
def Cfg.slotRect (c : Cfg) (i : Nat) : Rect :=
  ⟨i * c.glyphW + i, i * c.glyphW + i + c.glyphW - 1, c.digitPage, c.digitPage⟩

end Sys2Proof
end

