-- ==== Sys2Proof/Machine/Flags.lean ====
section
/-! DEFINITION. Flags: every comparison and every wrapped or clamped number the block computes: elapsed times (R76),
the encoder's edge, direction and press (R162, R163, R165), the tempo delta, clamp and interval (R184, R185), the
beat and the end of the pulse (R187, R188). -/

namespace Sys2Proof.Machine

/-- wrap_w of `later - earlier`, read as unsigned (R76). -/
def elapsed (w later earlier : Nat) : Nat := (later + (2 ^ w - earlier % 2 ^ w)) % 2 ^ w

/-- The two's-complement integer of the w-bit pattern of `x`: sext_w (wrap_w x) (R14). -/
def wrapSigned (w : Nat) (x : Int) : Int := Int.bmod x (2 ^ w)

/-- clamp(v, lo, hi) (R14). -/
def clampInt (v lo hi : Int) : Int := if v < lo then lo else if hi < v then hi else v

/-- A detent: the clock level differs from the previous poll's and is the active, high, level (R162). -/
def detent (last clk : Level) : Bool := decide (clk ≠ last) && decide (clk = .high)

/-- The step of a detent: clockwise (+1) if the data level differs from the clock level, else counter-clockwise
(-1) (R163). -/
def detentStep (clk data : Level) : Int := if data ≠ clk then 1 else -1

/-- The direction of a detent (R163). -/
def detentDirection (clk data : Level) : Direction := if data ≠ clk then .cw else .ccw

/-- A press: the button reads low and more than the debounce time has passed since the last low sample (R165). -/
def pressed (c : Cfg) (btn : Level) (now last : Nat) : Bool :=
  decide (btn = .low) && decide (c.btnDebounceUs < elapsed c.tsW now last)

/-- The signed change of the counter since the last tick (R184). -/
def tempoDelta (c : Cfg) (cur prev : Int) : Int := wrapSigned c.cntW (cur - prev)

/-- The new tempo (R185). -/
def newBpm (c : Cfg) (bpm : Nat) (delta : Int) : Nat :=
  (clampInt ((bpm : Int) + delta) (c.bpmMin : Int) (c.bpmMax : Int)).toNat

/-- The beat interval of a tempo, by floor division (R185, R190). -/
def beatInterval (c : Cfg) (bpm : Nat) : Nat := c.usPerMin / bpm

/-- A beat is due: enabled, and at least an interval has passed since the last beat (R187). -/
def beatDue (c : Cfg) (m : Metronome) (t : Nat) : Bool :=
  m.enabled && decide (m.beatIntervalUs.toNat ≤ elapsed c.tsW t m.lastBeatTimestamp)

/-- The pulse is over: active, and more than the pulse duration has passed since the last beat (R188). -/
def pulseOver (c : Cfg) (m : Metronome) (t : Nat) : Bool :=
  m.pulseActive && decide (c.pulseUs < elapsed c.tsW t m.lastBeatTimestamp)

end Sys2Proof.Machine
end

