-- ==== Sys2Proof/Machine/Ops.lean ====
section
/-! DEFINITION. Ops: the named operations over memory, the environment, the pins and the clock (20_memory.md R74 to
R77), and how an error leaves an operation: the raise of a ContractViolation (60_exceptions.md R212), and the return of
a status to a caller (R210, R219, R220). There is no return from an error (R221). -/

namespace Sys2Proof.Machine

/-! ### Display RAM -/

/-- The byte held at a key; none where display RAM has no such address (notes/assumptions/6.md). -/
def Memory.read : Memory → Nat → Option Byte
  | [], _ => none
  | (k, b) :: m, a => if k = a then some b else Memory.read m a

/-- MemWrite of one byte (R62), keeping the keys strictly rising. -/
def Memory.write : Memory → Nat → Byte → Memory
  | [], a, v => [(a, v)]
  | (k, b) :: m, a, v =>
    if a < k then (a, v) :: (k, b) :: m
    else if a = k then (a, v) :: m
    else (k, b) :: Memory.write m a v

/-- Every key of `m` is above `lo`. -/
def Memory.above (lo : Nat) (m : Memory) : Bool := m.all fun cell => decide (lo < cell.1)

/-- The canonical form: keys strictly rising. An unlisted address reads as no byte at all, so no entry can equal what an
unlisted key reads as. -/
def Memory.wf : Memory → Bool
  | [] => true
  | cell :: m => Memory.above cell.1 m && Memory.wf m

/-! ### The environment -/

/-- The next answer of the bus transport (R50). -/
def Env.takeBus (e : Env) : BusAnswer × Env :=
  match e.bus with
  | [] => (Config.busAnswer e.busDraws, { e with busDraws := e.busDraws + 1 })
  | a :: r => (a, { e with bus := r, busDraws := e.busDraws + 1 })

/-- The next levels of the input pins (R74). -/
def Env.takePins (e : Env) : PinSample × Env :=
  match e.pins with
  | [] => (Config.pinSample e.pinDraws, { e with pinDraws := e.pinDraws + 1 })
  | p :: r => (p, { e with pins := r, pinDraws := e.pinDraws + 1 })

/-- How far the clock has moved before the next read (R76). -/
def Env.takeAdvance (e : Env) : Nat × Env :=
  match e.advances with
  | [] => (Config.clockAdvance e.clockDraws, { e with clockDraws := e.clockDraws + 1 })
  | d :: r => (d, { e with advances := r, clockDraws := e.clockDraws + 1 })

/-! ### Pins, clock, sleep -/

/-- PinRead of the three input pins at one sampling instant (R74, R161). -/
def State.samplePins (s : State) : PinSample × State :=
  (s.env.takePins.1, { s with env := s.env.takePins.2 })

/-- Now(): the clock moves on by the environment's choice, and its TS_W low bits are read (R76). -/
def State.now (s : State) : Nat × State :=
  ((s.clock + s.env.takeAdvance.1) % 2 ^ s.cfg.tsW,
   { s with clock := s.clock + s.env.takeAdvance.1, env := s.env.takeAdvance.2 })

/-- Sleep(ms): every later read of the clock is at least 1000 * ms on (R77, notes/assumptions/20.md). -/
def State.sleep (s : State) (ms : Nat) : State := { s with clock := s.clock + 1000 * ms }

/-- PinWrite of the indicator pin (R75, R35). -/
def State.writeLed (s : State) (l : Level) : State :=
  { s with out := { s.out with led := l }, events := s.events ++ [Event.pin s.cfg.ledPin l] }

/-- PinWrite of the striker pin (R75, R35). -/
def State.writeSol (s : State) (l : Level) : State :=
  { s with out := { s.out with sol := l }, events := s.events ++ [Event.pin s.cfg.solPin l] }

/-- Both outputs, the indicator first (R187, R188, decision D19). -/
def State.writeOutputs (s : State) (l : Level) : State := (s.writeLed l).writeSol l

/-! ### How an error leaves an operation -/

/-- raise ContractViolation: SEQ.pos becomes FAULT; registers and output pins keep their values (R212). No context is
saved (R219); `ret` shows the status and which check failed (R210). -/
def State.raise (s : State) (v : Violation) : State :=
  { s with pos := .fault, ret := .status (.contractViolation v) }

/-- The end of a call the outside caller made: a status is returned (R210), a ContractViolation faults the block
wherever it arises (R212, R220), and a call that never returns leaves the block where it hangs (R214). -/
def State.leave (r : State × Status) : State :=
  match r.2 with
  | .ok => { r.1 with ret := .status .ok }
  | .busFailure k info => { r.1 with ret := .status (.busFailure k info) }
  | .contractViolation v => r.1.raise v
  | .noReturn => r.1

/-- The end of a call the sequencer made at a point that drops a BusTransactionFailure and goes on to `next`
(R193, R246, R220). A ContractViolation is never dropped (R220). -/
def State.proceed (next : SeqPos) (r : State × Status) : State :=
  match r.2 with
  | .ok => { r.1 with pos := next }
  | .busFailure _ _ => { r.1 with pos := next }
  | .contractViolation v => r.1.raise v
  | .noReturn => r.1

/-- `call op`: after a call that returned ok, the next; any other status ends the caller with it (R220). -/
def andThen (r : State × Status) (f : State → State × Status) : State × Status :=
  match r.2 with
  | .ok => f r.1
  | st => (r.1, st)

/-- `call op, ignore BusTransactionFailure` (R245, R246). -/
def ignoreBusFailure (r : State × Status) : State × Status :=
  match r.2 with
  | .busFailure _ _ => (r.1, .ok)
  | st => (r.1, st)

end Sys2Proof.Machine
end

