-- ==== Sys2Proof/Machine/Encoder.lean ====
section
/-! DEFINITION. Encoder: the encoder input unit ENC (43_encoder_input.md): poll. -/

namespace Sys2Proof.Machine

/-- The quadrature part of a poll (R162, R163, R164): a detent moves the counter and sets the direction; the clock level
is stored on every poll. -/
def Encoder.quadrature (c : Cfg) (p : PinSample) (e : Encoder) : Encoder :=
  if detent e.lastClkLevel p.clk then
    { e with
      counter := wrapSigned c.cntW (e.counter + detentStep p.clk p.data)
      lastDirection := detentDirection p.clk p.data
      lastClkLevel := p.clk }
  else { e with lastClkLevel := p.clk }

/-- The button part of a poll (R165): every low sample moves the timestamp. -/
def Encoder.button (p : PinSample) (now : Nat) (e : Encoder) : Encoder :=
  if p.btn = .low then { e with lastButtonPressTimestamp := now } else e

/-- poll (R161): the pins and the clock are sampled, the two parts act, and the poll sleeps (R167). The result is the
press, and the state after. -/
def pollOp (s : State) : Bool × State :=
  let pins := s.samplePins
  let time := pins.2.now
  (pressed s.cfg pins.1.btn time.1 s.enc.lastButtonPressTimestamp,
   State.sleep
     { time.2 with enc := Encoder.button pins.1 time.1 (Encoder.quadrature s.cfg pins.1 s.enc) }
     s.cfg.pollDelayMs)

/-- poll (R161), called from outside: it returns the press. -/
def execPoll (s : State) : Host.Outcome State Fault Refusal :=
  .next { (pollOp s).2 with ret := .press (pollOp s).1 }

end Sys2Proof.Machine
end

