-- ==== Sys2Proof/Machine/Target.lean ====
section
/-! DEFINITION. Target: the reference model of the display controller behind the bus (20_memory.md R60 to R69): how it
reads transactions (R61, R96, R100, R102), what each command does (R63 to R67), how a data transaction fills the window
(R62), what scrolling does to a write (R66), and what a failed transaction may have delivered (R68). -/

namespace Sys2Proof.Machine

/-- A target the reference model no longer describes: every register and every byte of RAM is free
(notes/assumptions/13.md). `n` numbers the moment. -/
def Target.unknown (c : Cfg) (n : Nat) (why : TargetLoss) : Target where
  ram := c.drawnRam (.later n)
  colStart := Config.targetNumber (.later n) .colStart
  colEnd := Config.targetNumber (.later n) .colEnd
  pageStart := Config.targetNumber (.later n) .pageStart
  pageEnd := Config.targetNumber (.later n) .pageEnd
  col := Config.targetNumber (.later n) .col
  page := Config.targetNumber (.later n) .page
  displayOn := Config.targetFlag (.later n) .displayOn
  scrollActive := Config.targetFlag (.later n) .scrollActive
  modeHorizontal := Config.targetFlag (.later n) .modeHorizontal
  pending := Target.drawnPending (.later n)
  received := Config.targetReceived n
  lost := some why

/-! ### Commands -/

/-- The set-column-window command (R63): the window and the pointer's column; other bounds have no meaning. -/
def Target.setColumns (c : Cfg) (n : Nat) (t : Target) (a b : Nat) : Target :=
  if a ≤ b ∧ b ≤ c.width - 1 then { t with colStart := a, colEnd := b, col := a }
  else Target.unknown c n .windowOutOfRange

/-- The set-page-window command (R64). -/
def Target.setPages (c : Cfg) (n : Nat) (t : Target) (a b : Nat) : Target :=
  if a ≤ b ∧ b ≤ c.pages - 1 then { t with pageStart := a, pageEnd := b, page := a }
  else Target.unknown c n .windowOutOfRange

/-- The memory-addressing-mode command (R65): horizontal for MEM_HORIZ, not for any other parameter, which init does not send,
so that from there on a target model refuses (U15, notes/assumptions/16.md). -/
def Target.setMode (c : Cfg) (t : Target) (p : Byte) : Target :=
  if p = c.cmd.memHoriz then { t with modeHorizontal := true }
  else { t with modeHorizontal := false, lost := some .reservedParameter }

/-- R67: a setting that no rule reads is recorded with its parameter. -/
def Target.record (t : Target) (k : Cmd) (ps : List Byte) : Target :=
  { t with received := t.received ++ [(k, ps)] }

/-- The `i`-th parameter byte. -/
def paramAt (ps : List Byte) (i : Nat) : Byte := ps.getD i 0

/-- A complete command takes effect (R61, R63 to R67). -/
def Target.effect (c : Cfg) (n : Nat) (t : Target) (k : Cmd) (ps : List Byte) : Target :=
  match k with
  | .dispOff => { t with displayOn := false }
  | .dispOn => { t with displayOn := true }
  | .memMode => t.setMode c (paramAt ps 0)
  | .scrollOff => { t with scrollActive := false }
  | .colAddr => t.setColumns c n (paramAt ps 0).toNat (paramAt ps 1).toNat
  | .pageAddr => t.setPages c n (paramAt ps 0).toNat (paramAt ps 1).toNat
  | .startLine => t.record .startLine ps
  | .segRemap => t.record .segRemap ps
  | .comDir => t.record .comDir ps
  | .muxRatio => t.record .muxRatio ps
  | .dispOffset => t.record .dispOffset ps
  | .comPins => t.record .comPins ps
  | .clkDiv => t.record .clkDiv ps
  | .precharge => t.record .precharge ps
  | .vcomh => t.record .vcomh ps
  | .contrast => t.record .contrast ps
  | .entireOnRam => t.record .entireOnRam ps
  | .normal => t.record .normal ps
  | .chargePump => t.record .chargePump ps

/-- A command byte in opcode position (R61): a command without parameters takes effect at once, another waits for
them; an unknown opcode has no parameter count (R100 c). -/
def Target.opcodeByte (c : Cfg) (n : Nat) (t : Target) (b : Byte) : Target :=
  match c.cmdOfOpcode b with
  | none => Target.unknown c n .unknownOpcode
  | some k => if k.params = 0 then t.effect c n k [] else { t with pending := some ⟨k, [], false⟩ }

/-- A command byte in parameter position (R61): the last parameter makes the command take effect. -/
def Target.paramByte (c : Cfg) (n : Nat) (t : Target) (p : Pending) (b : Byte) : Target :=
  if p.cmd.params ≤ (p.params ++ [b]).length then
    { t with pending := none }.effect c n p.cmd (p.params ++ [b])
  else { t with pending := some { p with params := p.params ++ [b] } }

/-- A command byte: opcode or parameter by its position alone, whoever sent it (R61, R96). After a composite operation that was
cut inside a command, the next command byte is the first misparsed one, and from it on the target is unconstrained (U6,
notes/assumptions/14.md). -/
def Target.commandByte (c : Cfg) (n : Nat) (t : Target) (b : Byte) : Target :=
  match t.pending with
  | none => t.opcodeByte c n b
  | some p => if p.cut then Target.unknown c n .misparsed else t.paramByte c n p b

/-! ### Data -/

/-- The pointer after one pixel byte: column then page, wrapping inside the window (R62). -/
def Target.advance (t : Target) : Target :=
  if t.col = t.colEnd then
    { t with col := t.colStart, page := if t.page = t.pageEnd then t.pageStart else t.page + 1 }
  else { t with col := t.col + 1 }

/-- One pixel byte at the pointer (R62). -/
def Target.pixelByte (c : Cfg) (n : Nat) (t : Target) (v : Byte) : Target :=
  if t.col < c.width ∧ t.page < c.pages then
    { t with ram := Memory.write t.ram (c.cellAddr t.page t.col) v }.advance
  else Target.unknown c n .pointerOutside

/-- The pixel bytes of a payload, in order (R62); none after the target is lost. -/
def Target.pixelBytes (c : Cfg) (n : Nat) : Target → List Byte → Target
  | t, [] => t
  | t, v :: vs =>
    if (t.pixelByte c n v).lost.isSome then t.pixelByte c n v
    else Target.pixelBytes c n (t.pixelByte c n v) vs

/-- A data write while scrolling is active: every byte of RAM is drawn anew, and so is the pointer (R66,
notes/assumptions/15.md). -/
def Target.scramble (c : Cfg) (n : Nat) (t : Target) : Target :=
  { t with
    ram := c.drawnRam (.later n)
    col := Config.targetNumber (.later n) .col
    page := Config.targetNumber (.later n) .page }

/-- The payload of a data transaction (R62), with the conditions of its last sentence (R65, R66, U6). -/
def Target.payload (c : Cfg) (n : Nat) (t : Target) (vs : List Byte) : Target :=
  if t.pending.isSome then Target.unknown c n .misparsed
  else if t.modeHorizontal = false then Target.unknown c n .notHorizontal
  else if t.scrollActive then t.scramble c n
  else t.pixelBytes c n vs

/-! ### Transactions -/

/-- The bytes of a transaction arrive (R61, R62, R100 b, R102). A control byte alone carries nothing for a command
(notes/assumptions/12.md). -/
def Target.deliver (c : Cfg) (n : Nat) (t : Target) (bytes : List Byte) : Target :=
  match bytes with
  | [] => t
  | first :: rest =>
    match t.lost with
    | some why => Target.unknown c n why
    | none =>
      if first = c.ctrlData then t.payload c n rest
      else if first = c.ctrlCmd then
        match rest with
        | [] => t
        | [b] => t.commandByte c n b
        | _ => Target.unknown c n .badTransaction
      else Target.unknown c n .badTransaction

/-- What a transaction that ended in bus_error delivered (R68): nothing, or what a prefix of it does. -/
def Target.deliverPrefix (c : Cfg) (n : Nat) (tx : Tx) (taken : Nat) (t : Target) : Target :=
  match c.failedTxn with
  | .none => t
  | .anyPrefix => t.deliver c n (tx.bytes.take taken)

/-- The failed transaction ended its composite operation (R132, R137): if that leaves the target waiting for a parameter, the
operation was cut inside a command (U6). A `raw` byte is no part of a composite operation. A failed parameter marks whatever
command is pending, also one that the operation did not itself send, since R96 counts positions and not senders: U6 does not
speak of that case, and to mark it is the model's choice (notes/assumptions/14.md). A failed opcode marks only a command that it
opened: where one was pending `before` it, the operation was not cut after an opcode. -/
def Target.markCut (role : Role) (before t : Target) : Target :=
  if role = .param ∨ (role = .opcode ∧ before.pending = none) then
    { t with pending := t.pending.map fun p => { p with cut := true } }
  else t

/-- What a transaction that ended in bus_error did to the target. -/
def Target.deliverFailed (c : Cfg) (n : Nat) (tx : Tx) (taken : Nat) (t : Target) : Target :=
  Target.markCut tx.role t (t.deliverPrefix c n tx taken)

/-! ### The image -/

/-- T.ram[page][col] (R60); none outside the display. -/
def Target.ramAt (c : Cfg) (t : Target) (page col : Nat) : Option Byte :=
  if col < c.width ∧ page < c.pages then Memory.read t.ram (c.cellAddr page col) else none

/-- The pixel at column `x`, row `y` of the image in RAM: bit `y mod 8` of T.ram[y / 8][x] (R69). -/
def Target.pixel (c : Cfg) (t : Target) (x y : Nat) : Option Bool :=
  (t.ramAt c (y / 8) x).map fun b => b.getLsbD (y % 8)

end Sys2Proof.Machine
end

