-- ==== Sys2Proof/Machine/Bus.lean ====
section
/-! DEFINITION. Bus: the one way the block reaches the display, BusWrite (20_memory.md R50), and a sequence of
transactions that ends at the first that does not complete (R217, R220). -/

namespace Sys2Proof.Machine

/-- BusWrite that returns ok: the transaction is complete, and the target has taken all of it (R61, R62, R80). -/
def State.busOk (s : State) (tx : Tx) : State :=
  { s with
    env := s.env.takeBus.2
    events := s.events ++ [Event.bus s.cfg.devAddr tx.bytes true]
    target := s.target.deliver s.cfg s.env.busDraws tx.bytes }

/-- BusWrite that returns bus_error (R68, R211): no register changes. -/
def State.busFailed (s : State) (tx : Tx) (taken : Nat) : State :=
  { s with
    env := s.env.takeBus.2
    events := s.events ++ [Event.bus s.cfg.devAddr tx.bytes false]
    target := s.target.deliverFailed s.cfg s.env.busDraws tx taken }

/-- BusWrite that never returns (R214): the sequencer stays in it; it is not a completed transaction (R80). The target
may have taken any prefix (notes/assumptions/12.md). -/
def State.busHung (s : State) (tx : Tx) (taken : Nat) : State :=
  { s with
    env := s.env.takeBus.2
    inflight := some tx.bytes
    target := s.target.deliver s.cfg s.env.busDraws (tx.bytes.take taken) }

/-- One blocking bus transaction (R50), the `k`-th of its operation: one call, one transaction, never repeated
(R126, R211). -/
def State.busWrite (s : State) (k : Nat) (tx : Tx) : State × Status :=
  match s.env.takeBus.1 with
  | .ok => (s.busOk tx, .ok)
  | .busError taken => (s.busFailed tx taken, .busFailure k tx.info)
  | .stall taken => (s.busHung tx taken, .noReturn)

/-- Transactions in order, the first the `k`-th of the operation; the first that does not return ok ends them
(R132, R137, R217, R220). -/
def runTxs : Nat → List Tx → State → State × Status
  | _, [], s => (s, .ok)
  | k, tx :: txs, s => andThen (s.busWrite k tx) (runTxs (k + 1) txs)

end Sys2Proof.Machine
end

