-- ==== Sys2Proof/Machine/Driver.lean ====
section
/-! DEFINITION. Driver: RenderArea (40_render_area.md) and the display protocol driver DPD (41_display_driver.md):
compute_buffer_length, send_command, send_pixel_buffer, init, render, clear. -/

namespace Sys2Proof.Machine

/-! ### The operations, for any caller -/

/-- send_command b (R126): one CMD transaction. -/
def sendCommandOp (b : Byte) (s : State) : State × Status := s.busWrite 0 (s.cfg.cmdTx .raw b)

/-- send_pixel_buffer buf (R127, R128): one DATA transaction, whatever the length. -/
def sendPixelBufferOp (buf : List Byte) (s : State) : State × Status := s.busWrite 0 (s.cfg.dataTx buf)

/-- init (R130, R132). -/
def initOp (s : State) : State × Status := runTxs 0 s.cfg.initTxs s

/-- render over a rectangle, its first transaction the `k`-th of the caller's: the checks of R136, then the seven
transactions of R135, ending at the first that fails (R137). -/
def renderOp (k : Nat) (buf : List Byte) (r : Rect) (s : State) : State × Status :=
  match s.cfg.renderCheck r buf.length with
  | some v => (s, .contractViolation v)
  | none => runTxs k (s.cfg.renderTxs r buf) s

/-- clear (R140): zeros over the whole display. -/
def clearOp (s : State) : State × Status :=
  renderOp 0 (List.replicate s.cfg.totalBufLen 0) s.cfg.fullRect s

/-! ### The meanings of the instructions -/

/-- compute_buffer_length (R121); an invalid area raises ContractViolation (R122). -/
def execComputeBufferLength (a : Area) (s : State) : Host.Outcome State Fault Refusal :=
  if a.rect.valid then .next { s with ret := .length a.rect.bufferLength }
  else .next (s.raise .invalidArea)

/-- send_command (R126). -/
def execSendCommand (b : Byte) (s : State) : Host.Outcome State Fault Refusal :=
  .next (State.leave (sendCommandOp b s))

/-- send_pixel_buffer (R127). -/
def execSendPixelBuffer (buf : List Byte) (s : State) : Host.Outcome State Fault Refusal :=
  .next (State.leave (sendPixelBufferOp buf s))

/-- init (R130). -/
def execInit (s : State) : Host.Outcome State Fault Refusal := .next (State.leave (initOp s))

/-- render (R135). -/
def execRender (buf : List Byte) (a : Area) (s : State) : Host.Outcome State Fault Refusal :=
  .next (State.leave (renderOp 0 buf a.rect s))

/-- clear (R140). -/
def execClear (s : State) : Host.Outcome State Fault Refusal := .next (State.leave (clearOp s))

end Sys2Proof.Machine
end

