-- ==== Sys2Proof/Machine/Glyph.lean ====
section
/-! DEFINITION. Glyph: the glyph renderer GLY (42_glyph_renderer.md): draw_number. -/

namespace Sys2Proof.Machine

/-- The slots of draw_number v, n that are left, `k` of them, slot n - k first: each is one render of its tile into its
rectangle, and a raise ends them all (R151, R154). Slot i has place value 10^(n-1-i), that is k - 1 slots to its
right. -/
def drawSlots (v n : Nat) : Nat → State → State × Status
  | 0, s => (s, .ok)
  | k + 1, s =>
    andThen (renderOp (7 * (n - (k + 1))) (s.cfg.slotTile v k) (s.cfg.slotRect (n - (k + 1))) s)
      (drawSlots v n k)

/-- draw_number v, n for a non-negative v (R151): slots 0 to n - 1, left to right. -/
def drawNumberOp (v n : Nat) (s : State) : State × Status := drawSlots v n n s

/-- draw_number (R151); a negative value has no meaning and is refused (R155, U17). -/
def execDrawNumber (v : Int) (n : Nat) (s : State) : Host.Outcome State Fault Refusal :=
  if v < 0 then .refused .negativeValue else .next (State.leave (drawNumberOp v.toNat n s))

end Sys2Proof.Machine
end

