-- ==== Sys2Proof/Machine/Beat.lean ====
section
/-! DEFINITION. Beat: the beat-pulse timer BPT (44_beat_scheduler.md): the four steps of tick, and tick. -/

namespace Sys2Proof.Machine

/-- Step 1 (R183): poll once; a press flips MET.enabled, and nothing else of MET. -/
def tickStep1 (s : State) : State :=
  let r := pollOp s
  if r.1 then { r.2 with met := { r.2.met with enabled := !r.2.met.enabled } } else r.2

/-- MET.bpm as step 2 stores it when the counter has changed by `delta` (R185): 16 bits (R23). -/
def Metronome.bpmAfter (c : Cfg) (delta : Int) (m : Metronome) : BitVec 16 :=
  BitVec.ofNat 16 (newBpm c m.bpm.toNat delta)

/-- The registers step 2 writes when the counter has changed by `delta` (R185): the tempo, and the interval of the tempo
just stored, in 32 bits (R24). -/
def Metronome.retempo (c : Cfg) (delta : Int) (m : Metronome) : Metronome :=
  { m with
    bpm := m.bpmAfter c delta
    beatIntervalUs := BitVec.ofNat 32 (beatInterval c (m.bpmAfter c delta).toNat) }

/-- Step 2 (R184, R185): the counter seen is stored on every tick; a change of it moves the tempo and refreshes the
display, also where the clamp absorbed it. -/
def tickStep2 (s : State) : State × Status :=
  let delta := tempoDelta s.cfg s.enc.counter s.prevCounter
  let seen := { s with prevCounter := s.enc.counter }
  if delta = 0 then (seen, .ok)
  else
    drawNumberOp (s.met.bpmAfter s.cfg delta).toNat s.cfg.digits
      { seen with met := s.met.retempo s.cfg delta }

/-- Step 3 (R187): a beat that is due sets the pulse, takes the time read as its timestamp, and asserts the outputs. -/
def tickStep3 (s : State) : State :=
  let time := s.now
  if beatDue s.cfg s.met time.1 then
    State.writeOutputs
      { time.2 with met := { s.met with pulseActive := true, lastBeatTimestamp := time.1 } } .high
  else time.2

/-- Step 4 (R188): a pulse that has outlasted its duration ends, enabled or not. -/
def tickStep4 (s : State) : State :=
  let time := s.now
  if pulseOver s.cfg s.met time.1 then
    State.writeOutputs { time.2 with met := { s.met with pulseActive := false } } .low
  else time.2

/-- Step 1 at SEQ.pos = S1, then S2 (R26). -/
def seqS1 (s : State) : State := { tickStep1 s with pos := .s2 }

/-- Step 2 at SEQ.pos = S2, then S3: a BusTransactionFailure is dropped (R193), a bus that stalls leaves the sequencer
here (R214). -/
def seqS2 (s : State) : State := State.proceed .s3 (tickStep2 s)

/-- Step 3 at SEQ.pos = S3, then S4 (R26). -/
def seqS3 (s : State) : State := { tickStep3 s with pos := .s4 }

/-- Step 4 at SEQ.pos = S4, then S1 again (R26, R200). -/
def seqS4 (s : State) : State := { tickStep4 s with pos := .s1 }

/-- tick (R181): steps 1 to 4 in order, SEQ.pos at the step being performed (R26); step 2 is the only one that may not
come to an end (R214) or fault (R212). -/
def tickOp (s : State) : State :=
  let t := seqS2 (seqS1 { s with pos := .s1 })
  if t.pos = .s3 then seqS4 (seqS3 t) else t

/-- tick (R181). It returns no status (R210). -/
def execTick (s : State) : Host.Outcome State Fault Refusal := .next (tickOp s)

end Sys2Proof.Machine
end

