-- ==== Sys2Proof/Machine/Commands.lean ====
section
/-! DEFINITION. Commands: the nineteen controller commands as instructions (30_encoding.md R95). The block sends the
opcode and each parameter as its own CMD transaction (R92, R96), ending at the first that fails (R220); what the
command does at the target is said in Target.lean (R61 to R67). -/

namespace Sys2Proof.Machine

/-- A controller command sent as one operation: the transactions of R96, in order. -/
def commandOp (k : Cmd) (ps : List Byte) (s : State) : State × Status :=
  runTxs 0 (s.cfg.commandTxs k ps) s

/-- DISP_OFF (R67: T.display_on becomes false). -/
def execDispOff (s : State) : Host.Outcome State Fault Refusal :=
  .next (State.leave (commandOp .dispOff [] s))

/-- MEM_MODE (R65: T.mode_horizontal becomes true exactly for the parameter MEM_HORIZ). -/
def execMemMode (p : Byte) (s : State) : Host.Outcome State Fault Refusal :=
  .next (State.leave (commandOp .memMode [p] s))

/-- START_LINE (R67: recorded). -/
def execStartLine (s : State) : Host.Outcome State Fault Refusal :=
  .next (State.leave (commandOp .startLine [] s))

/-- SEG_REMAP (R67: recorded). -/
def execSegRemap (s : State) : Host.Outcome State Fault Refusal :=
  .next (State.leave (commandOp .segRemap [] s))

/-- COM_DIR (R67: recorded). -/
def execComDir (s : State) : Host.Outcome State Fault Refusal :=
  .next (State.leave (commandOp .comDir [] s))

/-- MUX_RATIO (R67: recorded with its parameter). -/
def execMuxRatio (p : Byte) (s : State) : Host.Outcome State Fault Refusal :=
  .next (State.leave (commandOp .muxRatio [p] s))

/-- DISP_OFFSET (R67: recorded with its parameter). -/
def execDispOffset (p : Byte) (s : State) : Host.Outcome State Fault Refusal :=
  .next (State.leave (commandOp .dispOffset [p] s))

/-- COM_PINS (R67: recorded with its parameter). -/
def execComPins (p : Byte) (s : State) : Host.Outcome State Fault Refusal :=
  .next (State.leave (commandOp .comPins [p] s))

/-- CLK_DIV (R67: recorded with its parameter). -/
def execClkDiv (p : Byte) (s : State) : Host.Outcome State Fault Refusal :=
  .next (State.leave (commandOp .clkDiv [p] s))

/-- PRECHARGE (R67: recorded with its parameter). -/
def execPrecharge (p : Byte) (s : State) : Host.Outcome State Fault Refusal :=
  .next (State.leave (commandOp .precharge [p] s))

/-- VCOMH (R67: recorded with its parameter). -/
def execVcomh (p : Byte) (s : State) : Host.Outcome State Fault Refusal :=
  .next (State.leave (commandOp .vcomh [p] s))

/-- CONTRAST (R67: recorded with its parameter). -/
def execContrast (p : Byte) (s : State) : Host.Outcome State Fault Refusal :=
  .next (State.leave (commandOp .contrast [p] s))

/-- ENTIRE_ON_RAM (R67: recorded). -/
def execEntireOnRam (s : State) : Host.Outcome State Fault Refusal :=
  .next (State.leave (commandOp .entireOnRam [] s))

/-- NORMAL (R67: recorded). -/
def execNormal (s : State) : Host.Outcome State Fault Refusal :=
  .next (State.leave (commandOp .normal [] s))

/-- CHARGE_PUMP (R67: recorded with its parameter). -/
def execChargePump (p : Byte) (s : State) : Host.Outcome State Fault Refusal :=
  .next (State.leave (commandOp .chargePump [p] s))

/-- SCROLL_OFF (R66: T.scroll_active becomes false). -/
def execScrollOff (s : State) : Host.Outcome State Fault Refusal :=
  .next (State.leave (commandOp .scrollOff [] s))

/-- DISP_ON (R67: T.display_on becomes true). -/
def execDispOn (s : State) : Host.Outcome State Fault Refusal :=
  .next (State.leave (commandOp .dispOn [] s))

/-- COL_ADDR (R63: the column window and the pointer's column). -/
def execColAddr (a b : Byte) (s : State) : Host.Outcome State Fault Refusal :=
  .next (State.leave (commandOp .colAddr [a, b] s))

/-- PAGE_ADDR (R64: the page window and the pointer's page). -/
def execPageAddr (a b : Byte) (s : State) : Host.Outcome State Fault Refusal :=
  .next (State.leave (commandOp .pageAddr [a, b] s))

end Sys2Proof.Machine
end

