-- ==== Sys2Proof/Machine/Dispatch.lean ====
section
/-! DEFINITION. Dispatch: the meaning of each instruction, one arm for each row of the opcode table. -/

namespace Sys2Proof.Machine

-- What an instruction does once the sequencer performs it. Whether it performs one is step's to say (Step.lean).
def exec (i : Instr) (s : State) : Host.Outcome State Fault Refusal :=
  match i with
  | .computeBufferLength area => Sys2Proof.Machine.execComputeBufferLength area s
  | .sendCommand b => Sys2Proof.Machine.execSendCommand b s
  | .sendPixelBuffer buf => Sys2Proof.Machine.execSendPixelBuffer buf s
  | .init => Sys2Proof.Machine.execInit s
  | .render buf area => Sys2Proof.Machine.execRender buf area s
  | .clear => Sys2Proof.Machine.execClear s
  | .drawNumber v n => Sys2Proof.Machine.execDrawNumber v n s
  | .poll => Sys2Proof.Machine.execPoll s
  | .tick => Sys2Proof.Machine.execTick s
  | .dispOff => Sys2Proof.Machine.execDispOff s
  | .memMode p => Sys2Proof.Machine.execMemMode p s
  | .startLine => Sys2Proof.Machine.execStartLine s
  | .segRemap => Sys2Proof.Machine.execSegRemap s
  | .comDir => Sys2Proof.Machine.execComDir s
  | .muxRatio p => Sys2Proof.Machine.execMuxRatio p s
  | .dispOffset p => Sys2Proof.Machine.execDispOffset p s
  | .comPins p => Sys2Proof.Machine.execComPins p s
  | .clkDiv p => Sys2Proof.Machine.execClkDiv p s
  | .precharge p => Sys2Proof.Machine.execPrecharge p s
  | .vcomh p => Sys2Proof.Machine.execVcomh p s
  | .contrast p => Sys2Proof.Machine.execContrast p s
  | .entireOnRam => Sys2Proof.Machine.execEntireOnRam s
  | .normal => Sys2Proof.Machine.execNormal s
  | .chargePump p => Sys2Proof.Machine.execChargePump p s
  | .scrollOff => Sys2Proof.Machine.execScrollOff s
  | .dispOn => Sys2Proof.Machine.execDispOn s
  | .colAddr a b => Sys2Proof.Machine.execColAddr a b s
  | .pageAddr a b => Sys2Proof.Machine.execPageAddr a b s

end Sys2Proof.Machine
end

