-- ==== Sys2Proof/Machine/Sequencer.lean ====
section
/-! DEFINITION. Sequencer: what the one sequencer does when no operation is queued: the boot sequence
(70_reset_and_hazards.md R245, R246), then the steps of the loop for ever (44_beat_scheduler.md R200). -/

namespace Sys2Proof.Machine

/-- init; clear; draw_number INITIAL_BPM, DIGITS; each with its BusTransactionFailure dropped (R245, R246). -/
def bootOp (s : State) : State × Status :=
  andThen (ignoreBusFailure (initOp s)) fun s =>
    andThen (ignoreBusFailure (clearOp s)) fun s =>
      ignoreBusFailure (drawNumberOp s.cfg.initialBpm s.cfg.digits s)

/-- The boot sequence at SEQ.pos = BOOT, then S1 (R245). -/
def seqBoot (s : State) : State := State.proceed .s1 (bootOp s)

/-- One step of the sequencer's own run (R26). A faulted sequencer has none (R212): step stops before it. -/
def State.ownStep (s : State) : State :=
  match s.pos with
  | .boot => seqBoot s
  | .s1 => seqS1 s
  | .s2 => seqS2 s
  | .s3 => seqS3 s
  | .s4 => seqS4 s
  | .fault => s

/-- The next queued operation (notes/assumptions/7.md): decoded, taken off the queue, and performed. Reserved encodings
are refused by name (R100). -/
def State.queuedStep (s : State) : Host.Outcome State Fault Refusal :=
  match decode s.prog with
  | .ok (i, rest) => exec i { s with prog := rest }
  | .error why => .refused (.badEncoding why)

/-- One step of the machine: an ill-formed configuration has no meaning (R12), a hung (R214) or faulted (R212) block
performs no step; otherwise a queued operation, or the sequencer's own next step. -/
def State.machineStep (s : State) : Host.Outcome State Fault Refusal :=
  if s.cfg.wf = false then .refused .illFormedConfig
  else if s.inflight.isSome then .fault .busStalled
  else if s.pos = .fault then .fault .faulted
  else if s.prog.isEmpty then .next s.ownStep
  else s.queuedStep

/-- The operation whose bits the opcode table numbers as `w`, queued for the next step. -/
def State.queueWord (s : State) (nbits w : Nat) : State := { s with prog := layoutWord nbits w }

end Sys2Proof.Machine
end

