-- ==== Sys2Proof/Machine/Step.lean ====
section
/-! DEFINITION. Step: the step function, and the host's way to give the machine one instruction. -/

namespace Sys2Proof.Machine

/-- One step of the machine. -/
def step (s : State) : Host.Outcome State Fault Refusal := s.machineStep

/-- `s` with the instruction whose bits are `w` (as the opcode table numbers them) queued as the next operation
(notes/assumptions/7.md). -/
def State.withFetchWord (s : State) (nbits w : Nat) : State := s.queueWord nbits w

end Sys2Proof.Machine
end

