-- ==== Sys2Proof/Safety.lean ====
section
/-! DEFINITION. Safety: the terms claims about the block are made in: which environment answers a claim assumes, what an
operation that only uses the bus leaves alone (R34, R41), what is on the wire, the bus target a claim can describe, and the
invariants of R42. -/

namespace Sys2Proof

/-- A display-RAM address lies in a rectangle. -/
def Rect.has (r : Rect) (page col : Nat) : Prop :=
  r.startPage ≤ page ∧ page ≤ r.endPage ∧ r.startCol ≤ col ∧ col ≤ r.endCol

end Sys2Proof

namespace Sys2Proof.Machine

/-! ### The environment of a claim -/

/-- The next `n` bus transactions return ok. -/
def Env.busOks : Nat → Env → Bool
  | 0, _ => true
  | n + 1, e => decide (e.takeBus.1 = .ok) && Env.busOks n e.takeBus.2

/-- The environment after `n` more bus transactions. -/
def Env.afterBus : Nat → Env → Env
  | 0, e => e
  | n + 1, e => Env.afterBus n e.takeBus.2

/-- The sequencer performs steps: the configuration is well formed (R12), no transaction hangs (R214), no fault
(R212). -/
def State.runnable (s : State) : Bool :=
  s.cfg.wf && s.inflight.isNone && decide (s.pos ≠ .fault)

/-! ### Frames -/

/-- Every register of the block, both output pins, the configuration, the clock and the queue are as before: what no DPD
or GLY operation writes (R34, R41). -/
structure BlockUnchanged (s t : State) : Prop where
  cfg : t.cfg = s.cfg
  enc : t.enc = s.enc
  met : t.met = s.met
  prevCounter : t.prevCounter = s.prevCounter
  out : t.out = s.out
  clock : t.clock = s.clock
  prog : t.prog = s.prog

/-- `t` differs from `s` by bus traffic alone: the block as before, SEQ.pos and the returned value too, the pin and clock
answers still to come, and some events added. -/
structure BusOnly (s t : State) : Prop extends BlockUnchanged s t where
  pos : t.pos = s.pos
  ret : t.ret = s.ret
  pins : t.env.pins = s.env.pins
  advances : t.env.advances = s.env.advances
  pinDraws : t.env.pinDraws = s.env.pinDraws
  clockDraws : t.env.clockDraws = s.env.clockDraws
  events : ∃ added, t.events = s.events ++ added

/-! ### The wire -/

/-- A CMD transaction as an observer sees it: C:xx of R103. -/
def cmdEvent (c : Cfg) (ok : Bool) (b : Byte) : Event := .bus c.devAddr [c.ctrlCmd, b] ok

/-- A DATA transaction as an observer sees it: D:xx xx ... of R103. -/
def dataEvent (c : Cfg) (ok : Bool) (buf : List Byte) : Event := .bus c.devAddr (c.ctrlData :: buf) ok

/-- The same transaction with the outcome bus_error. -/
def Event.failed : Event → Event
  | .bus addr bytes _ => .bus addr bytes false
  | .pin p level => .pin p level

/-- What is on the wire where transaction number `j` of `all` is the first that fails and ends the operation: those before it,
and it (R132, R137, R154). -/
def cutEvents (all : List Event) (j : Nat) : List Event :=
  all.take j ++ ((all.drop j).take 1).map Event.failed

/-- The command bytes of a controller command, opcode first (R95, R96); none for an operation. -/
def commandBytes (c : Cfg) : Instr → List Byte
  | .dispOff => [c.cmd.dispOff]
  | .memMode p => [c.cmd.memMode, p]
  | .startLine => [c.cmd.startLine]
  | .segRemap => [c.cmd.segRemap]
  | .comDir => [c.cmd.comDir]
  | .muxRatio p => [c.cmd.muxRatio, p]
  | .dispOffset p => [c.cmd.dispOffset, p]
  | .comPins p => [c.cmd.comPins, p]
  | .clkDiv p => [c.cmd.clkDiv, p]
  | .precharge p => [c.cmd.precharge, p]
  | .vcomh p => [c.cmd.vcomh, p]
  | .contrast p => [c.cmd.contrast, p]
  | .entireOnRam => [c.cmd.entireOnRam]
  | .normal => [c.cmd.normal]
  | .chargePump p => [c.cmd.chargePump, p]
  | .scrollOff => [c.cmd.scrollOff]
  | .dispOn => [c.cmd.dispOn]
  | .colAddr a b => [c.cmd.colAddr, a, b]
  | .pageAddr a b => [c.cmd.pageAddr, a, b]
  | .computeBufferLength _ => []
  | .sendCommand _ => []
  | .sendPixelBuffer _ => []
  | .init => []
  | .render _ _ => []
  | .clear => []
  | .drawNumber _ _ => []
  | .poll => []
  | .tick => []

/-- The completed transactions of `txs`. -/
def okEvents (c : Cfg) (txs : List Tx) : List Event := txs.map fun tx => .bus c.devAddr tx.bytes true

/-- The traffic of a render of `buf` into a rectangle (R135). -/
def renderEvents (c : Cfg) (r : Rect) (buf : List Byte) : List Event :=
  ([c.cmd.colAddr, BitVec.ofNat 8 r.startCol, BitVec.ofNat 8 r.endCol,
    c.cmd.pageAddr, BitVec.ofNat 8 r.startPage, BitVec.ofNat 8 r.endPage].map (cmdEvent c true))
    ++ [dataEvent c true buf]

/-! ### The target -/

/-- The target is described and waits for an opcode. -/
def Target.listening (t : Target) : Bool := t.lost.isNone && t.pending.isNone

/-- The target also takes pixel data as R62 says: horizontal addressing, no scrolling. -/
def Target.ready (t : Target) : Bool := t.listening && t.modeHorizontal && !t.scrollActive

/-- The setting commands of R67 that the target only records, with their parameters. -/
def settingOf : Instr → Option (Cmd × List Byte)
  | .startLine => some (.startLine, [])
  | .segRemap => some (.segRemap, [])
  | .comDir => some (.comDir, [])
  | .muxRatio p => some (.muxRatio, [p])
  | .dispOffset p => some (.dispOffset, [p])
  | .comPins p => some (.comPins, [p])
  | .clkDiv p => some (.clkDiv, [p])
  | .precharge p => some (.precharge, [p])
  | .vcomh p => some (.vcomh, [p])
  | .contrast p => some (.contrast, [p])
  | .entireOnRam => some (.entireOnRam, [])
  | .normal => some (.normal, [])
  | .chargePump p => some (.chargePump, [p])
  | _ => none

/-- The instructions that use only the bus: those of DPD that transmit, GLY, and the controller commands. -/
def usesBusOnly : Instr → Bool
  | .computeBufferLength _ => false
  | .poll => false
  | .tick => false
  | _ => true

/-! ### Operations one after another -/

/-- The state after send_command of each byte, one after another. -/
def sendEach : List Byte → State → State
  | [], s => s
  | b :: bs, s =>
    match exec (.sendCommand b) s with
    | .next t => sendEach bs t
    | _ => s

/-- The state after `n` polls one after another. -/
def pollTimes : Nat → State → State
  | 0, s => s
  | n + 1, s =>
    match exec .poll s with
    | .next t => pollTimes n t
    | _ => s

/-- The rising edges of the clock level with data low less those with data high in a sequence of samples, the level before
it being `last` (R168). -/
def detentBalance : Level → List PinSample → Int
  | _, [] => 0
  | last, p :: ps =>
    (if last = .low ∧ p.clk = .high then (if p.data = .low then 1 else -1) else 0)
      + detentBalance p.clk ps

/-- The number of rising edges of the clock level in a sequence of samples, the level before it being `last`. -/
def risingEdges : Level → List PinSample → Nat
  | _, [] => 0
  | last, p :: ps => (if last = .low ∧ p.clk = .high then 1 else 0) + risingEdges p.clk ps

/-! ### Invariants -/

/-- A CNT_W-bit two's-complement number (R21). -/
def inCounterRange (c : Cfg) (x : Int) : Prop :=
  -(2 ^ (c.cntW - 1) : Nat) ≤ x ∧ x < (2 ^ (c.cntW - 1) : Nat)

/-- The invariants of R42 (a), (b), (c), the widths of R21, R22 and R25, and the form of display RAM: canonical, with a byte at
each address of the display and at no other (R60). -/
structure Inv (s : State) : Prop where
  cfgWf : s.cfg.wf = true
  bpmLow : s.cfg.bpmMin ≤ s.met.bpm.toNat
  bpmHigh : s.met.bpm.toNat ≤ s.cfg.bpmMax
  interval : s.met.beatIntervalUs.toNat = s.cfg.usPerMin / s.met.bpm.toNat
  outputsEqual : s.out.led = s.out.sol
  outputsPulse : s.out.led = .high ↔ s.met.pulseActive = true
  counterRange : inCounterRange s.cfg s.enc.counter
  prevRange : inCounterRange s.cfg s.prevCounter
  buttonTimeRange : s.enc.lastButtonPressTimestamp < 2 ^ s.cfg.tsW
  beatTimeRange : s.met.lastBeatTimestamp < 2 ^ s.cfg.tsW
  ramWf : Memory.wf s.target.ram = true
  ramAddrs : s.target.ram.map Prod.fst = List.range s.cfg.totalBufLen

/-- R42 (d) for the sequencer's own run: between ticks, and after step 2, SCH.prev_counter is ENC.counter. -/
def CounterSeen (s : State) : Prop := s.pos ≠ .s2 → s.prevCounter = s.enc.counter

end Sys2Proof.Machine
end

