-- ==== Sys2Proof/Certificates/Slice0/Obligations.lean ====
section
/-! DEFINITION. Obligations: the statements about the block, in the order of OBLIGATIONS.json. Each docstring names the
rules of spec/ it formalises; what is the model's choice names its row of notes/assumptions. -/

open Sys2Proof Sys2Proof.Machine

/-! ### Encodings and steps -/

/-- The decoder reads back what the encoder writes, for every well-formed instruction with any bytes after it. The labels are
R98's, the opcodes R95's; the layout of operands is the model's choice (notes/assumptions/8.md). -/
def Obligations.DecodeReadsEncodedInstruction : Prop :=
  ∀ (i : Instr) (rest : List Byte), i.wellFormed = true → decode (encode i ++ rest) = .ok (i, rest)

/-- Words of the opcode table, written from R98 and R95, decode to their rows, and the reserved label 0b1001 to none. That a
label is stored as one byte, a word upper byte first, and the operands above a row's bits as zeros (memMode 0, colAddr 0 0), is
the model's choice (notes/assumptions/8.md). -/
def Obligations.TableWordsDecode : Prop :=
  decodeTableWord 8 0b0011 = some .init ∧
  decodeTableWord 8 0b0111 = some .poll ∧
  decodeTableWord 8 0b1000 = some .tick ∧
  decodeTableWord 8 0b1001 = none ∧
  decodeTableWord 16 0b1000000010101110 = some .dispOff ∧
  decodeTableWord 16 0b1000000010101111 = some .dispOn ∧
  decodeTableWord 16 0b1000000000100000 = some (.memMode 0) ∧
  decodeTableWord 16 0b1000000000100001 = some (.colAddr 0 0)

/-- R100 (a), (b), (c) for queued operations: a label 9 to 15, a first byte of no format, and an unknown opcode are
refused by name. That the refusal ends the step is the model's reading (notes/assumptions/8.md). -/
def Obligations.ReservedEncodingsRefused : Prop :=
  ∀ (s : State) (b : Byte) (rest : List Byte), s.runnable = true → s.prog = b :: rest →
    (9 ≤ b.toNat → b.toNat < 16 → step s = .refused (.badEncoding (.reservedLabel b.toNat))) ∧
    (16 ≤ b.toNat → b.toNat ≠ 0x80 → step s = .refused (.badEncoding (.unknownFormat b))) ∧
    (b.toNat = 0x80 → ∀ o r, rest = o :: r → (∀ k : Cmd, k.tableOpcode ≠ o) →
      step s = .refused (.badEncoding (.unknownCommand o)))

/-- A step of a running block performs the queued operation its bytes decode to, taken off the queue, and where nothing is
queued the sequencer's own next step (notes/assumptions/7.md). -/
def Obligations.StepRunsDecodedInstruction : Prop :=
  (∀ (s : State) (i : Instr) (rest : List Byte), s.runnable = true → decode s.prog = .ok (i, rest) →
    step s = exec i { s with prog := rest }) ∧
  (∀ s : State, s.runnable = true → s.prog = [] → step s = .next s.ownStep)

/-- R12: a model refuses an ill-formed configuration. -/
def Obligations.IllFormedConfigurationRefused : Prop :=
  ∀ s : State, s.cfg.wf = false → step s = .refused .illFormedConfig

/-- R212 and R214: a faulted block performs no further step, and neither does one whose bus transaction was never
answered. How a stop shows in `step` is the model's choice (notes/assumptions/10.md, 11.md). -/
def Obligations.StoppedBlockTakesNoStep : Prop :=
  ∀ s : State, s.cfg.wf = true →
    (∀ bytes, s.inflight = some bytes → step s = .fault .busStalled) ∧
    (s.inflight = none → s.pos = .fault → step s = .fault .faulted)

/-! ### Reset and invariants -/

/-- The reset values of R43, which the spec marks as its own (decision D14), for every well-formed configuration, and
what they are for the defaults of R9. -/
def Obligations.ResetValues : Prop :=
  (∀ c : Cfg, c.wf = true →
    (State.resetWith c).cfg = c ∧
    (State.resetWith c).enc.counter = 0 ∧
    (State.resetWith c).enc.lastDirection = .none ∧
    (State.resetWith c).enc.lastButtonPressTimestamp = 0 ∧
    (State.resetWith c).met.bpm.toNat = c.initialBpm ∧
    (State.resetWith c).met.enabled = c.initialEnabled ∧
    (State.resetWith c).met.beatIntervalUs.toNat = c.usPerMin / c.initialBpm ∧
    (State.resetWith c).met.lastBeatTimestamp = 0 ∧
    (State.resetWith c).met.pulseActive = false ∧
    (State.resetWith c).prevCounter = 0 ∧
    (State.resetWith c).out = { led := .low, sol := .low } ∧
    (State.resetWith c).pos = .boot) ∧
  State.reset.met.bpm.toNat = 60 ∧ State.reset.met.beatIntervalUs.toNat = 1000000 ∧
  State.reset.met.enabled = true

/-- The reset state of every well-formed configuration meets the invariants of R42. -/
def Obligations.ResetMeetsInvariants : Prop :=
  ∀ c : Cfg, c.wf = true → Inv (State.resetWith c) ∧ CounterSeen (State.resetWith c)

/-- R42 (a), (b), (c), the register widths and the form of display RAM hold after every step that starts in a state where
they hold, whatever the environment answers and whatever is queued. -/
def Obligations.StepKeepsInvariants : Prop :=
  ∀ s t : State, Inv s → step s = .next t → Inv t

/-- R42 (d): in the sequencer's own run SCH.prev_counter is ENC.counter except between steps 1 and 2 of a tick. -/
def Obligations.OwnRunSeesTheCounter : Prop :=
  ∀ s t : State, s.prog = [] → CounterSeen s → step s = .next t → CounterSeen t ∧ t.prog = []

/-- R212: in the block's own run a ContractViolation cannot occur, and every step of a running block has a next state. -/
def Obligations.OwnRunNeverFaults : Prop :=
  ∀ s : State, Inv s → s.runnable = true → s.prog = [] →
    ∃ t, step s = .next t ∧ t.pos ≠ .fault ∧ t.prog = []

/-- R8: no operation writes any field of the configuration, and no step does. -/
def Obligations.ConfigurationNeverWritten : Prop :=
  (∀ (i : Instr) (s t : State), exec i s = .next t → t.cfg = s.cfg) ∧
  (∀ s t : State, step s = .next t → t.cfg = s.cfg)

/-- R41: the ENC registers are written by poll alone (which tick calls); the MET registers, SCH.prev_counter and the
outputs by tick alone. -/
def Obligations.OneWriterForEachRegister : Prop :=
  ∀ (i : Instr) (s t : State), exec i s = .next t →
    (i ≠ .poll → i ≠ .tick → t.enc = s.enc) ∧
    (i ≠ .tick → t.met = s.met ∧ t.prevCounter = s.prevCounter ∧ t.out = s.out)

/-- R34 and R41, the frame of every operation that uses the bus (DPD's, GLY's, and the controller commands): nothing of the
block changes but the events, the transaction in flight, the answers of the transport, and, where a ContractViolation is
raised, SEQ.pos (R212). -/
def Obligations.BusOperationsLeaveTheBlockAlone : Prop :=
  ∀ (i : Instr) (s t : State), usesBusOnly i = true → exec i s = .next t →
    BlockUnchanged s t ∧
    (t.pos = s.pos ∨ t.pos = .fault ∧ ∃ v, t.ret = .status (.contractViolation v)) ∧
    t.env.pins = s.env.pins ∧ t.env.advances = s.env.advances ∧
    ∃ added, t.events = s.events ++ added

/-- A CMD transaction stores nothing in display RAM: while the target is described, every byte reads as before after
send_command, init and the nineteen controller commands (R61, R63 to R67, R133 b). -/
def Obligations.CommandsStoreNothing : Prop :=
  ∀ (i : Instr) (s t : State), usesBusOnly i = true →
    (∀ buf, i ≠ .sendPixelBuffer buf) → (∀ buf a, i ≠ .render buf a) → i ≠ .clear →
    (∀ v n, i ≠ .drawNumber v n) → s.cfg.ctrlCmd ≠ s.cfg.ctrlData →
    exec i s = .next t → t.target.lost = none →
    ∀ page col, t.target.ramAt t.cfg page col = s.target.ramAt s.cfg page col

/-- R76, R77, R201: no step moves the clock back, and a tick that comes to its end takes at least the poll delay. -/
def Obligations.ClockMovesForward : Prop :=
  (∀ s t : State, step s = .next t → s.clock ≤ t.clock) ∧
  (∀ s t : State, exec .tick s = .next t → s.clock + 1000 * s.cfg.pollDelayMs ≤ t.clock)

/-! ### compute_buffer_length -/

/-- R121: compute_buffer_length of a valid area, label 0b0000, returns the product of the two extents, computed on integers, 1 to
65,536, and writes no state: nothing of the machine changes but the value returned. -/
def Obligations.BufferLengthOfValidArea : Prop :=
  ∀ (a : Area) (s : State), a.startCol.toNat ≤ a.endCol.toNat → a.startPage.toNat ≤ a.endPage.toNat →
    ∃ n : Nat, (n : Int) = ((a.endCol.toNat : Int) - a.startCol.toNat + 1)
        * ((a.endPage.toNat : Int) - a.startPage.toNat + 1) ∧
      1 ≤ n ∧ n ≤ 65536 ∧ (encode (.computeBufferLength a)).head? = some 0b0000 ∧
      exec (.computeBufferLength a) s = .next { s with ret := .length n }

/-- R122 (decision D11): compute_buffer_length on an invalid area raises ContractViolation, and the block faults. -/
def Obligations.BufferLengthOfInvalidArea : Prop :=
  ∀ (a : Area) (s : State),
    (a.endCol.toNat < a.startCol.toNat ∨ a.endPage.toNat < a.startPage.toNat) →
    exec (.computeBufferLength a) s
      = .next { s with pos := .fault, ret := .status (.contractViolation .invalidArea) }

/-! ### send_command and send_pixel_buffer -/

/-- R126: send_command, label 0b0001, issues exactly one transaction, the control byte and `b`, whatever `b` is; it returns ok, or
raises BusTransactionFailure with `b` exactly when the transport reports bus_error, without repeating it. No register changes. That it
never ends if the transport never answers is R126 and R214, and the form of that stop is the model's reading
(notes/assumptions/10.md). -/
def Obligations.SendCommandTransmitsOnce : Prop :=
  ∀ (b : Byte) (s : State),
    (encode (.sendCommand b)).head? = some 0b0001 ∧
    (s.env.takeBus.1 = .ok →
      ∃ t, exec (.sendCommand b) s = .next t ∧ BlockUnchanged s t ∧ t.pos = s.pos ∧
        t.inflight = s.inflight ∧
        t.events = s.events ++ [.bus s.cfg.devAddr [s.cfg.ctrlCmd, b] true] ∧ t.ret = .status .ok) ∧
    (∀ taken, s.env.takeBus.1 = .busError taken →
      ∃ t, exec (.sendCommand b) s = .next t ∧ BlockUnchanged s t ∧ t.pos = s.pos ∧
        t.inflight = s.inflight ∧
        t.events = s.events ++ [.bus s.cfg.devAddr [s.cfg.ctrlCmd, b] false] ∧
        t.ret = .status (.busFailure 0 b.toNat)) ∧
    (∀ taken, s.env.takeBus.1 = .stall taken →
      ∃ t, exec (.sendCommand b) s = .next t ∧ BlockUnchanged s t ∧ t.pos = s.pos ∧
        t.inflight = some [s.cfg.ctrlCmd, b] ∧ t.events = s.events ∧ t.ret = s.ret ∧
        (s.cfg.wf = true → step t = .fault .busStalled))

/-- R127: send_pixel_buffer, label 0b0010, issues exactly one transaction, the control byte and the whole payload, of any length;
it returns ok, or raises BusTransactionFailure with the payload's length exactly when the transport reports bus_error, without
retry. No register changes. That it never ends if the transport never answers is R214, and the form of that stop is the model's
reading (notes/assumptions/10.md). -/
def Obligations.SendPixelBufferTransmitsOnce : Prop :=
  ∀ (buf : List Byte) (s : State),
    (encode (.sendPixelBuffer buf)).head? = some 0b0010 ∧
    (s.env.takeBus.1 = .ok →
      ∃ t, exec (.sendPixelBuffer buf) s = .next t ∧ BlockUnchanged s t ∧ t.pos = s.pos ∧
        t.inflight = s.inflight ∧
        t.events = s.events ++ [.bus s.cfg.devAddr (s.cfg.ctrlData :: buf) true] ∧
        t.ret = .status .ok) ∧
    (∀ taken, s.env.takeBus.1 = .busError taken →
      ∃ t, exec (.sendPixelBuffer buf) s = .next t ∧ BlockUnchanged s t ∧ t.pos = s.pos ∧
        t.inflight = s.inflight ∧
        t.events = s.events ++ [.bus s.cfg.devAddr (s.cfg.ctrlData :: buf) false] ∧
        t.ret = .status (.busFailure 0 buf.length)) ∧
    (∀ taken, s.env.takeBus.1 = .stall taken →
      ∃ t, exec (.sendPixelBuffer buf) s = .next t ∧ BlockUnchanged s t ∧ t.pos = s.pos ∧
        t.inflight = some (s.cfg.ctrlData :: buf) ∧ t.events = s.events ∧ t.ret = s.ret ∧
        (s.cfg.wf = true → step t = .fault .busStalled))

/-- R62, R54: a payload sent with the pointer `p` bytes into a window fills it column then page and wraps inside it: byte `k` goes
to page start_page + ((p + k) / ncols) mod npages, column start_col + (p + k) mod ncols; a later byte at the same address wins; no
other address changes; and the pointer stands where the next byte would go. (The wrap is [from general knowledge] in R62.) -/
def Obligations.PixelDataFillsTheWindow : Prop :=
  ∀ (s : State) (r : Rect) (p : Nat) (buf : List Byte),
    s.env.takeBus.1 = .ok → s.cfg.ctrlCmd ≠ s.cfg.ctrlData → s.target.ready = true →
    r.startCol ≤ r.endCol → r.endCol < s.cfg.width →
    r.startPage ≤ r.endPage → r.endPage < s.cfg.pages →
    s.target.colStart = r.startCol → s.target.colEnd = r.endCol →
    s.target.pageStart = r.startPage → s.target.pageEnd = r.endPage →
    s.target.col = r.startCol + p % r.ncols → s.target.page = r.startPage + p / r.ncols % r.npages →
    ∃ t, exec (.sendPixelBuffer buf) s = .next t ∧ t.ret = .status .ok ∧
      t.target.ready = true ∧
      t.target.page = r.startPage + (p + buf.length) / r.ncols % r.npages ∧
      t.target.col = r.startCol + (p + buf.length) % r.ncols ∧
      (∀ k, k < buf.length → buf.length ≤ k + r.ncols * r.npages →
        t.target.ramAt t.cfg (r.startPage + (p + k) / r.ncols % r.npages) (r.startCol + (p + k) % r.ncols)
          = buf[k]?) ∧
      (∀ page col, (∀ k, k < buf.length →
          ¬ (page = r.startPage + (p + k) / r.ncols % r.npages ∧ col = r.startCol + (p + k) % r.ncols)) →
        t.target.ramAt t.cfg page col = s.target.ramAt s.cfg page col)

/-- R66 (U4): a data write while scrolling is active is no fault and returns ok, and leaves every byte of display RAM with any
value: each address holds a byte, and which one does not depend on what RAM held before or on the payload. That the pointer too is
drawn anew is the model's reading (notes/assumptions/15.md). -/
def Obligations.ScrollingWriteForgetsRam : Prop :=
  ∀ (s : State) (buf : List Byte), s.env.takeBus.1 = .ok → s.target.listening = true →
    s.target.modeHorizontal = true → s.target.scrollActive = true →
    ∃ t, exec (.sendPixelBuffer buf) s = .next t ∧ t.ret = .status .ok ∧
      t.target = { s.target with ram := t.target.ram, col := t.target.col, page := t.target.page } ∧
      (∀ page col, page < s.cfg.pages → col < s.cfg.width → ∃ v, t.target.ramAt t.cfg page col = some v) ∧
      ∀ (m : Memory) (buf' : List Byte),
        ∃ u, exec (.sendPixelBuffer buf') { s with target := { s.target with ram := m } } = .next u ∧
          u.target.ram = t.target.ram

/-! ### init -/

/-- R130, R131: with a bus that answers ok, init sends the 26 command bytes of SEQ_INIT in their order, each as its own CMD
transaction, and nothing else; it returns ok and no register changes. It leaves exactly
what send_command of each of these bytes leaves, at the target too (R104). (The order inside a group and the parameters are decision
D7; MUX_VAL, OFFSET_VAL and CONTRAST_VAL are R97's.) -/
def Obligations.InitSendsItsSequence : Prop :=
  ∀ s : State, Env.busOks 26 s.env = true →
    ∃ t, exec .init s = .next t ∧ BlockUnchanged s t ∧ t.pos = s.pos ∧ t.inflight = s.inflight ∧
      t.ret = .status .ok ∧
      t.events = s.events ++
        ([s.cfg.cmd.dispOff, s.cfg.cmd.memMode, s.cfg.cmd.memHoriz, s.cfg.cmd.startLine,
          s.cfg.cmd.segRemap, s.cfg.cmd.comDir, s.cfg.cmd.muxRatio, BitVec.ofNat 8 (s.cfg.height - 1),
          s.cfg.cmd.dispOffset, 0, s.cfg.cmd.comPins, s.cfg.cmd.comPinsVal, s.cfg.cmd.clkDiv,
          s.cfg.cmd.clkDivVal, s.cfg.cmd.precharge, s.cfg.cmd.prechargeVal, s.cfg.cmd.vcomh,
          s.cfg.cmd.vcomhVal, s.cfg.cmd.contrast, 255, s.cfg.cmd.entireOnRam, s.cfg.cmd.normal,
          s.cfg.cmd.chargePump, s.cfg.cmd.chargePumpVal, s.cfg.cmd.scrollOff,
          s.cfg.cmd.dispOn].map (cmdEvent s.cfg true)) ∧
      t = sendEach s.cfg.seqInit s

/-- R132 (decision D9): if the transaction for SEQ_INIT[k] is the first to return bus_error, init ends there with that failure:
the transactions before it completed, it was tried once, and no later one is issued. -/
def Obligations.InitStopsAtFirstFailure : Prop :=
  ∀ (s : State) (k taken : Nat) (b : Byte), Env.busOks k s.env = true →
    (Env.afterBus k s.env).takeBus.1 = .busError taken → s.cfg.seqInit[k]? = some b →
    ∃ t, exec .init s = .next t ∧ BlockUnchanged s t ∧ t.pos = s.pos ∧ t.inflight = s.inflight ∧
      t.ret = .status (.busFailure k b.toNat) ∧
      t.events = s.events ++ (s.cfg.seqInit.take k).map (cmdEvent s.cfg true)
        ++ [cmdEvent s.cfg false b]

/-- R34: the driver holds no state: the traffic an operation of DPD or GLY, or a controller command, adds and the status it
returns are a function of its operands, the configuration and the transport's answers, so two states that agree on these give the
same traffic and the same status, or hang in the same transaction, whatever else they hold, the last status among it. In
particular init twice with a bus that answers ok gives the same stream both times (R133 a). -/
def Obligations.DriverHoldsNoState : Prop :=
  (∀ (i : Instr) (s s' t t' : State), usesBusOnly i = true → s.cfg = s'.cfg →
    s.env.bus = s'.env.bus → s.env.busDraws = s'.env.busDraws →
    exec i s = .next t → exec i s' = .next t' →
    (∃ traffic, t.events = s.events ++ traffic ∧ t'.events = s'.events ++ traffic) ∧
    (t.ret = t'.ret ∧ t.inflight = s.inflight ∧ t'.inflight = s'.inflight ∨
      ∃ bytes, t.inflight = some bytes ∧ t'.inflight = some bytes ∧ t.ret = s.ret ∧ t'.ret = s'.ret)) ∧
  (∀ s : State, Env.busOks 52 s.env = true →
    ∃ t u stream, exec .init s = .next t ∧ exec .init t = .next u ∧
      t.events = s.events ++ stream ∧ u.events = t.events ++ stream ∧ stream.length = 26)

/-- R133 (b), (c), R65, R66, R67: what a complete init leaves at a target that waits for an opcode: the display on, horizontal
addressing, no scrolling, no command pending, the thirteen other settings recorded; RAM, window and pointer as before. Opcodes
pairwise different is a premise (notes/assumptions/21.md). -/
def Obligations.InitConfiguresTheTarget : Prop :=
  ∀ s : State, Env.busOks 26 s.env = true → s.cfg.ctrlCmd ≠ s.cfg.ctrlData →
    s.cfg.opcodesDistinct = true → s.target.listening = true →
    ∃ t, exec .init s = .next t ∧
      t.target = { s.target with
        displayOn := true
        modeHorizontal := true
        scrollActive := false
        received := s.target.received ++
          [(.startLine, []), (.segRemap, []), (.comDir, []),
           (.muxRatio, [BitVec.ofNat 8 (s.cfg.height - 1)]), (.dispOffset, [0]),
           (.comPins, [s.cfg.cmd.comPinsVal]), (.clkDiv, [s.cfg.cmd.clkDivVal]),
           (.precharge, [s.cfg.cmd.prechargeVal]), (.vcomh, [s.cfg.cmd.vcomhVal]),
           (.contrast, [255]), (.entireOnRam, []), (.normal, []),
           (.chargePump, [s.cfg.cmd.chargePumpVal])] }

/-! ### render and clear -/

/-- R136, R124: the checks of render in their order; a render that fails one raises that ContractViolation before any bus
transaction: nothing else of the state changes (R212, decision D10, D11). -/
def Obligations.RenderRejectsBadOperands : Prop :=
  ∀ (buf : List Byte) (a : Area) (s : State),
    (if a.endCol.toNat < a.startCol.toNat ∨ a.endPage.toNat < a.startPage.toNat then
      exec (.render buf a) s
        = .next { s with pos := .fault, ret := .status (.contractViolation .invalidArea) }
    else if s.cfg.width - 1 < a.endCol.toNat ∨ s.cfg.pages - 1 < a.endPage.toNat then
      exec (.render buf a) s
        = .next { s with pos := .fault, ret := .status (.contractViolation .areaOutsideDisplay) }
    else if (buf.length : Int) ≠ ((a.endCol.toNat : Int) - a.startCol.toNat + 1)
        * ((a.endPage.toNat : Int) - a.startPage.toNat + 1) then
      exec (.render buf a) s
        = .next { s with pos := .fault, ret := .status (.contractViolation .lengthMismatch) }
    else ∃ t, exec (.render buf a) s = .next t ∧ t.pos = s.pos)

/-- R135: a render whose operands pass the checks, on a bus that answers ok, sends the column window, the page window and the
pixel buffer, seven transactions, and nothing else; it returns ok and no register changes. It leaves exactly what six
send_command and one send_pixel_buffer leave, at the target too (R104). (The two opcode bytes are decision
D8.) -/
def Obligations.RenderSendsWindowsThenPixels : Prop :=
  ∀ (buf : List Byte) (a : Area) (s : State), s.cfg.renderCheck a.rect buf.length = none →
    Env.busOks 7 s.env = true →
    ∃ t, exec (.render buf a) s = .next t ∧ BlockUnchanged s t ∧ t.pos = s.pos ∧
      t.inflight = s.inflight ∧ t.ret = .status .ok ∧
      t.events = s.events ++
        [cmdEvent s.cfg true s.cfg.cmd.colAddr, cmdEvent s.cfg true a.startCol,
         cmdEvent s.cfg true a.endCol, cmdEvent s.cfg true s.cfg.cmd.pageAddr,
         cmdEvent s.cfg true a.startPage, cmdEvent s.cfg true a.endPage, dataEvent s.cfg true buf] ∧
      exec (.sendPixelBuffer buf) (sendEach [s.cfg.cmd.colAddr, a.startCol, a.endCol,
        s.cfg.cmd.pageAddr, a.startPage, a.endPage] s) = .next t

/-- R135 at the target (R54, R62 to R64): a complete render writes byte `k` of the buffer at page start_page + k / ncols, column
start_col + k mod ncols; every display-RAM byte outside the area is unchanged; window and pointer are the area and its start.
Opcodes pairwise different is a premise (notes/assumptions/21.md); R63 and R64 are [from general knowledge] in part. -/
def Obligations.RenderFillsItsArea : Prop :=
  ∀ (buf : List Byte) (a : Area) (s : State), s.cfg.wf = true → s.cfg.opcodesDistinct = true →
    s.cfg.renderCheck a.rect buf.length = none → Env.busOks 7 s.env = true →
    s.target.ready = true →
    ∃ t, exec (.render buf a) s = .next t ∧ t.target.ready = true ∧
      t.target.colStart = a.startCol.toNat ∧ t.target.colEnd = a.endCol.toNat ∧
      t.target.pageStart = a.startPage.toNat ∧ t.target.pageEnd = a.endPage.toNat ∧
      t.target.col = a.startCol.toNat ∧ t.target.page = a.startPage.toNat ∧
      (∀ k, k < buf.length →
        t.target.ramAt t.cfg (a.startPage.toNat + k / (a.endCol.toNat - a.startCol.toNat + 1))
          (a.startCol.toNat + k % (a.endCol.toNat - a.startCol.toNat + 1)) = buf[k]?) ∧
      (∀ page col, ¬ a.rect.has page col →
        t.target.ramAt t.cfg page col = s.target.ramAt s.cfg page col)

/-- R137 (decision D9): if the `j`-th of the seven transactions of a render is the first to return bus_error, render ends there:
the earlier ones completed, none later is issued; in particular no pixel byte is sent after a window command has failed. -/
def Obligations.RenderStopsAtFirstFailure : Prop :=
  ∀ (buf : List Byte) (a : Area) (s : State) (j taken : Nat),
    s.cfg.renderCheck a.rect buf.length = none → s.cfg.ctrlCmd ≠ s.cfg.ctrlData →
    j < 7 → Env.busOks j s.env = true →
    (Env.afterBus j s.env).takeBus.1 = .busError taken →
    ∃ t info, exec (.render buf a) s = .next t ∧ BlockUnchanged s t ∧ t.pos = s.pos ∧
      t.inflight = s.inflight ∧ t.ret = .status (.busFailure j info) ∧
      t.events = s.events ++ (renderEvents s.cfg a.rect buf).take j
        ++ (if j = 6 then [dataEvent s.cfg false buf]
            else (([s.cfg.cmd.colAddr, a.startCol, a.endCol, s.cfg.cmd.pageAddr, a.startPage,
              a.endPage].map (cmdEvent s.cfg false)).drop j).take 1) ∧
      (j < 6 → t.target.lost = none →
        ∀ page col, t.target.ramAt t.cfg page col = s.target.ramAt s.cfg page col)

/-- R58: a complete render is idempotent on display RAM: repeating it leaves the same RAM. -/
def Obligations.RenderTwiceSameRam : Prop :=
  ∀ (buf : List Byte) (a : Area) (s t u : State), Inv s → s.cfg.opcodesDistinct = true →
    s.cfg.renderCheck a.rect buf.length = none → Env.busOks 14 s.env = true →
    s.target.ready = true → exec (.render buf a) s = .next t → exec (.render buf a) t = .next u →
    u.target.ram = t.target.ram ∧
      ∃ traffic, t.events = s.events ++ traffic ∧ u.events = t.events ++ traffic

/-- R140: clear on a bus that answers ok sends the full-display windows and TOTAL_BUF_LEN zero bytes in one transaction, and at
a target that takes data every byte of display RAM becomes 0; a ContractViolation cannot occur for a well-formed
configuration, whatever the bus answers; clear ends at its first transaction that fails, as render does (R137); and it is render of
TOTAL_BUF_LEN zeros over {0, WIDTH-1, 0, PAGES-1} (R104). -/
def Obligations.ClearZeroesTheDisplay : Prop :=
  (∀ s : State, s.cfg.wf = true → ∃ t, exec .clear s = .next t ∧ t.pos = s.pos) ∧
  (∀ s : State, s.cfg.wf = true → Env.busOks 7 s.env = true →
    ∃ t, exec .clear s = .next t ∧ BlockUnchanged s t ∧ t.inflight = s.inflight ∧
      t.ret = .status .ok ∧
      t.events = s.events ++ renderEvents s.cfg
        { startCol := 0, endCol := s.cfg.width - 1, startPage := 0, endPage := s.cfg.pages - 1 }
        (List.replicate (s.cfg.pages * s.cfg.width) 0) ∧
      (s.cfg.opcodesDistinct = true → s.target.ready = true → t.target.ready = true ∧
        ∀ page col, page < s.cfg.pages → col < s.cfg.width →
          t.target.ramAt t.cfg page col = some 0)) ∧
  (∀ (s : State) (j taken : Nat), s.cfg.wf = true → j < 7 → Env.busOks j s.env = true →
    (Env.afterBus j s.env).takeBus.1 = .busError taken →
    ∃ t info, exec .clear s = .next t ∧ BlockUnchanged s t ∧ t.pos = s.pos ∧ t.inflight = s.inflight ∧
      t.ret = .status (.busFailure j info) ∧
      t.events = s.events ++ cutEvents (renderEvents s.cfg
        { startCol := 0, endCol := s.cfg.width - 1, startPage := 0, endPage := s.cfg.pages - 1 }
        (List.replicate (s.cfg.pages * s.cfg.width) 0)) j) ∧
  (∀ s : State, s.cfg.wf = true → exec .clear s = exec (.render (List.replicate (s.cfg.pages * s.cfg.width) 0)
    { startCol := 0, endCol := BitVec.ofNat 8 (s.cfg.width - 1)
      startPage := 0, endPage := BitVec.ofNat 8 (s.cfg.pages - 1) }) s)

/-! ### draw_number -/

/-- R151, R152, R153: draw_number v, n on a bus that answers ok renders, left to right, for slot i the tile of digit
(v / 10^(n-1-i)) mod 10, or the blank tile 10 where v < 10^(n-1-i) and the slot is not the last, into columns i * GLYPH_W + i on of
page DIGIT_PAGE: 7n transactions and nothing else; it returns ok and no register changes. (The order is decision D20.) -/
def Obligations.DrawNumberRendersItsSlots : Prop :=
  ∀ (v n : Nat) (s : State), s.cfg.wf = true → n * s.cfg.glyphW + (n - 1) ≤ s.cfg.width →
    Env.busOks (7 * n) s.env = true →
    ∃ t, exec (.drawNumber v n) s = .next t ∧ BlockUnchanged s t ∧ t.pos = s.pos ∧
      t.inflight = s.inflight ∧ t.ret = .status .ok ∧
      t.events = s.events ++ (List.range n).flatMap fun i =>
        renderEvents s.cfg
          { startCol := i * s.cfg.glyphW + i
            endCol := i * s.cfg.glyphW + i + s.cfg.glyphW - 1
            startPage := s.cfg.digitPage, endPage := s.cfg.digitPage }
          (if v < 10 ^ (n - 1 - i) ∧ i ≠ n - 1 then s.cfg.glyph 10
           else s.cfg.glyph (v / 10 ^ (n - 1 - i) % 10))

/-- R153, R156: after a complete draw_number, slot i of page DIGIT_PAGE holds its tile, column by column, and every other byte
of display RAM, the gap columns among them, is unchanged. Premise as notes/assumptions/21.md. -/
def Obligations.DrawNumberShowsItsDigits : Prop :=
  ∀ (v n : Nat) (s : State), s.cfg.wf = true → s.cfg.opcodesDistinct = true →
    n * s.cfg.glyphW + (n - 1) ≤ s.cfg.width → Env.busOks (7 * n) s.env = true →
    s.target.ready = true →
    ∃ t, exec (.drawNumber v n) s = .next t ∧ t.target.ready = true ∧
      (∀ i k, i < n → k < s.cfg.glyphW →
        t.target.ramAt t.cfg s.cfg.digitPage (i * (s.cfg.glyphW + 1) + k)
          = (if v < 10 ^ (n - 1 - i) ∧ i ≠ n - 1 then s.cfg.glyph 10
             else s.cfg.glyph (v / 10 ^ (n - 1 - i) % 10))[k]?) ∧
      (∀ page col,
        (∀ i k, i < n → k < s.cfg.glyphW →
          ¬ (page = s.cfg.digitPage ∧ col = i * (s.cfg.glyphW + 1) + k)) →
        t.target.ramAt t.cfg page col = s.target.ramAt s.cfg page col)

/-- R154: where a slot falls outside the display, draw_number renders the slots before it and then raises
ContractViolation(area_outside_display): `m` is the number of slots that fit. -/
def Obligations.DrawNumberTooWideFaults : Prop :=
  ∀ (v n m : Nat) (s : State), s.cfg.wf = true → m < n →
    m * s.cfg.glyphW + (m - 1) ≤ s.cfg.width →
    s.cfg.width < (m + 1) * s.cfg.glyphW + m →
    Env.busOks (7 * m) s.env = true →
    ∃ t, exec (.drawNumber v n) s = .next t ∧ BlockUnchanged s t ∧ t.pos = .fault ∧
      t.ret = .status (.contractViolation .areaOutsideDisplay) ∧
      t.inflight = s.inflight ∧
      t.events = s.events ++ (List.range m).flatMap fun i =>
        renderEvents s.cfg
          { startCol := i * s.cfg.glyphW + i
            endCol := i * s.cfg.glyphW + i + s.cfg.glyphW - 1
            startPage := s.cfg.digitPage, endPage := s.cfg.digitPage }
          (if v < 10 ^ (n - 1 - i) ∧ i ≠ n - 1 then s.cfg.glyph 10
           else s.cfg.glyph (v / 10 ^ (n - 1 - i) % 10))

/-- R154 (decision D9): if transaction number `j` of draw_number is the first to fail, draw_number ends there: of the transactions
its slots send, those before number `j` completed, number `j` was tried once, none later is issued, and its index is raised. -/
def Obligations.DrawNumberStopsAtFirstFailure : Prop :=
  ∀ (v n j taken : Nat) (s : State), s.cfg.wf = true → n * s.cfg.glyphW + (n - 1) ≤ s.cfg.width →
    j < 7 * n → Env.busOks j s.env = true → (Env.afterBus j s.env).takeBus.1 = .busError taken →
    ∃ t info, exec (.drawNumber v n) s = .next t ∧ BlockUnchanged s t ∧ t.pos = s.pos ∧
      t.inflight = s.inflight ∧ t.ret = .status (.busFailure j info) ∧
      t.events = s.events ++ cutEvents ((List.range n).flatMap fun i =>
        renderEvents s.cfg
          { startCol := i * s.cfg.glyphW + i
            endCol := i * s.cfg.glyphW + i + s.cfg.glyphW - 1
            startPage := s.cfg.digitPage, endPage := s.cfg.digitPage }
          (if v < 10 ^ (n - 1 - i) ∧ i ≠ n - 1 then s.cfg.glyph 10
           else s.cfg.glyph (v / 10 ^ (n - 1 - i) % 10))) j

/-- R155 (U17): a negative value has no meaning; the model refuses it. -/
def Obligations.NegativeNumberRefused : Prop :=
  ∀ (v : Int) (n : Nat) (s : State), v < 0 → exec (.drawNumber v n) s = .refused .negativeValue

/-! ### poll -/

/-- R162, and the direction of R163's first sentence: a poll counts a detent exactly when the clock level it reads differs from the
one the previous poll read and is high; then the counter moves by +1 with direction CW if data reads low and by -1 with CCW if it
reads high, in CNT_W-bit two's complement (R21); any other poll leaves the counter. The level read is stored on every poll (R164). -/
def Obligations.PollDecodesQuadrature : Prop :=
  ∀ s : State, inCounterRange s.cfg s.enc.counter → 2 ≤ s.cfg.cntW →
    ∃ t, exec .poll s = .next t ∧ t.enc.lastClkLevel = s.env.takePins.1.clk ∧
      inCounterRange s.cfg t.enc.counter ∧
      (if s.env.takePins.1.clk ≠ s.enc.lastClkLevel ∧ s.env.takePins.1.clk = .high then
        (if s.env.takePins.1.data = .low then
          t.enc.lastDirection = .cw ∧
            (t.enc.counter - (s.enc.counter + 1)) % (2 ^ s.cfg.cntW : Nat) = 0
        else
          t.enc.lastDirection = .ccw ∧
            (t.enc.counter - (s.enc.counter - 1)) % (2 ^ s.cfg.cntW : Nat) = 0)
      else t.enc.counter = s.enc.counter)

/-- R165: the button filter. `now` is the clock value of the sampling instant. A low sample reports a press exactly when more
than BTN_DEBOUNCE_US, 50,000, have passed since the last low sample, in TS_W-bit arithmetic (R76), and always moves the timestamp
to `now`; a high sample reports none and moves nothing. -/
def Obligations.PollFiltersTheButton : Prop :=
  ∀ (s : State) (now : Nat), now = (s.clock + s.env.takeAdvance.1) % 2 ^ s.cfg.tsW →
    ∃ t, exec .poll s = .next t ∧ (s.cfg.wf = true → s.cfg.btnDebounceUs = 50000) ∧
      (if s.env.takePins.1.btn = .low then
        t.enc.lastButtonPressTimestamp = now ∧
        t.ret = .press (decide ((s.cfg.btnDebounceUs : Int)
          < ((now : Int) - s.enc.lastButtonPressTimestamp) % (2 ^ s.cfg.tsW : Nat)))
      else
        t.enc.lastButtonPressTimestamp = s.enc.lastButtonPressTimestamp ∧ t.ret = .press false)

/-- R161, R167: the rest of a poll: it issues no bus transaction and writes no pin, no MET register and no SCH.prev_counter, it
sleeps POLL_DELAY_MS after the clock read (decision D16), and with no detent it leaves the direction (decision D17). -/
def Obligations.PollTouchesOnlyEnc : Prop :=
  ∀ s : State, ∃ t, exec .poll s = .next t ∧ t.cfg = s.cfg ∧ t.met = s.met ∧
    t.prevCounter = s.prevCounter ∧ t.pos = s.pos ∧ t.out = s.out ∧ t.target = s.target ∧
    t.events = s.events ∧ t.inflight = s.inflight ∧ t.prog = s.prog ∧ t.env.bus = s.env.bus ∧
    t.clock = s.clock + s.env.takeAdvance.1 + 1000 * s.cfg.pollDelayMs ∧
    (¬ (s.enc.lastClkLevel = .low ∧ s.env.takePins.1.clk = .high) →
      t.enc.lastDirection = s.enc.lastDirection)

/-- R168: over a sequence of polls the counter changes by the number of rising edges with data low minus the number with data
high, modulo 2^CNT_W; with no rising edge it does not change. -/
def Obligations.CounterCountsDetents : Prop :=
  ∀ (samples rest : List PinSample) (s : State), s.env.pins = samples ++ rest →
    inCounterRange s.cfg s.enc.counter → 2 ≤ s.cfg.cntW →
    ((pollTimes samples.length s).enc.counter
        - (s.enc.counter + detentBalance s.enc.lastClkLevel samples)) % (2 ^ s.cfg.cntW : Nat) = 0 ∧
    (risingEdges s.enc.lastClkLevel samples = 0 →
      (pollTimes samples.length s).enc.counter = s.enc.counter)

/-- R164: two consecutive polls never both count a detent: after a poll that changed the direction or the counter, the next
changes neither. -/
def Obligations.NoTwoDetentsInARow : Prop :=
  ∀ s t u : State, exec .poll s = .next t → exec .poll t = .next u →
    (t.enc.counter ≠ s.enc.counter ∨ t.enc.lastDirection ≠ s.enc.lastDirection) →
    u.enc.counter = t.enc.counter ∧ u.enc.lastDirection = t.enc.lastDirection

/-- R166 (c): a button held low and polled at intervals of at most BTN_DEBOUNCE_US reports no press after its first low
sample: in a run of polls that all read low, each sampled at most BTN_DEBOUNCE_US after the one before, poll number k > 0
reports none. -/
def Obligations.HeldButtonReportsOnce : Prop :=
  ∀ (n : Nat) (s : State),
    (∀ k, k ≤ n → (pollTimes k s).env.takePins.1.btn = .low) →
    (∀ k, 0 < k → k ≤ n →
      1000 * s.cfg.pollDelayMs + (pollTimes k s).env.takeAdvance.1 ≤ s.cfg.btnDebounceUs) →
    s.cfg.btnDebounceUs < 2 ^ s.cfg.tsW →
    ∀ k, 0 < k → k ≤ n → ∃ t, exec .poll (pollTimes k s) = .next t ∧ t.ret = .press false

/-! ### tick -/

/-- R183: step 1 of the sequencer's tick: exactly one poll; a press flips MET.enabled, and nothing else of MET, the outputs or
SCH.prev_counter changes. -/
def Obligations.TickStepOnePolls : Prop :=
  ∀ s : State, s.runnable = true → s.prog = [] → s.pos = .s1 →
    ∃ t u press, step s = .next t ∧ exec .poll s = .next u ∧ u.ret = .press press ∧
      t.enc = u.enc ∧ t.clock = u.clock ∧
      t.met = { s.met with enabled := if press then !s.met.enabled else s.met.enabled } ∧
      t.prevCounter = s.prevCounter ∧ t.out = s.out ∧ t.events = s.events ∧
      t.target = s.target ∧ t.pos = .s2

/-- R184, R185: step 2 of the sequencer's tick. `delta` is the CNT_W-bit signed change of the counter since the last tick. Without a
change only SCH.prev_counter is written and there is no bus traffic; with one the tempo is clamped to [BPM_MIN, BPM_MAX], the interval is
the floor of US_PER_MIN / bpm, and the display is refreshed with the new tempo, also where the clamp left it (decision D23); no other
register changes, whatever the bus answers. -/
def Obligations.TickStepTwoSetsTheTempo : Prop :=
  ∀ (s : State) (delta : Int), Inv s → s.runnable = true → s.prog = [] → s.pos = .s2 →
    inCounterRange s.cfg delta →
    (delta - (s.enc.counter - s.prevCounter)) % (2 ^ s.cfg.cntW : Nat) = 0 →
    ∃ t, step s = .next t ∧ t.prevCounter = s.enc.counter ∧ t.enc = s.enc ∧ t.out = s.out ∧
      t.clock = s.clock ∧
      (delta = 0 → t.met = s.met ∧ t.events = s.events ∧ t.target = s.target ∧ t.pos = .s3) ∧
      (delta ≠ 0 →
        (t.met.bpm.toNat : Int)
          = max (s.cfg.bpmMin : Int) (min (s.cfg.bpmMax : Int) ((s.met.bpm.toNat : Int) + delta)) ∧
        t.met.beatIntervalUs.toNat = s.cfg.usPerMin / t.met.bpm.toNat ∧
        t.met.enabled = s.met.enabled ∧ t.met.lastBeatTimestamp = s.met.lastBeatTimestamp ∧
        t.met.pulseActive = s.met.pulseActive ∧
        (t.inflight = none → t.pos = .s3) ∧
        (Env.busOks (7 * s.cfg.digits) s.env = true → t.pos = .s3 ∧
          ∃ u, exec (.drawNumber t.met.bpm.toNat s.cfg.digits) s = .next u ∧
            t.events = u.events ∧ t.target = u.target))

/-- R187: step 3 of the sequencer's tick, `t3` the clock value it reads. If enabled and at least an interval has passed since the last
beat (TS_W-bit arithmetic), the pulse is active, the timestamp is t3, and both outputs are driven high, the indicator first; else
nothing but the clock read. -/
def Obligations.TickStepThreeBeats : Prop :=
  ∀ (s : State) (t3 : Nat), s.runnable = true → s.prog = [] → s.pos = .s3 →
    t3 = (s.clock + s.env.takeAdvance.1) % 2 ^ s.cfg.tsW →
    ∃ t, step s = .next t ∧ t.pos = .s4 ∧ t.enc = s.enc ∧ t.prevCounter = s.prevCounter ∧
      t.target = s.target ∧
      (if s.met.enabled = true ∧ (s.met.beatIntervalUs.toNat : Int)
          ≤ ((t3 : Int) - s.met.lastBeatTimestamp) % (2 ^ s.cfg.tsW : Nat) then
        t.met = { s.met with pulseActive := true, lastBeatTimestamp := t3 } ∧
        t.out = { led := .high, sol := .high } ∧
        t.events = s.events ++ [.pin s.cfg.ledPin .high, .pin s.cfg.solPin .high]
      else t.met = s.met ∧ t.out = s.out ∧ t.events = s.events)

/-- R188: step 4 of the sequencer's tick, `t4` the clock value it reads. If the pulse is active and more than PULSE_US have passed
since the last beat, it ends and both outputs are driven low, whether or not enabled; else nothing but the clock read. -/
def Obligations.TickStepFourEndsThePulse : Prop :=
  ∀ (s : State) (t4 : Nat), s.runnable = true → s.prog = [] → s.pos = .s4 →
    t4 = (s.clock + s.env.takeAdvance.1) % 2 ^ s.cfg.tsW →
    ∃ t, step s = .next t ∧ t.pos = .s1 ∧ t.enc = s.enc ∧ t.prevCounter = s.prevCounter ∧
      t.target = s.target ∧
      (if s.met.pulseActive = true ∧ (s.cfg.pulseUs : Int)
          < ((t4 : Int) - s.met.lastBeatTimestamp) % (2 ^ s.cfg.tsW : Nat) then
        t.met = { s.met with pulseActive := false } ∧
        t.out = { led := .low, sol := .low } ∧
        t.events = s.events ++ [.pin s.cfg.ledPin .low, .pin s.cfg.solPin .low]
      else t.met = s.met ∧ t.out = s.out ∧ t.events = s.events)

/-- R181, R26: the operation tick is the four steps of the sequencer: from SEQ.pos = S1 with nothing queued, a tick that comes to its
end is what four steps of the machine give; one that hangs in its display refresh is what two steps give. -/
def Obligations.TickIsFourSteps : Prop :=
  ∀ s t : State, s.runnable = true → s.prog = [] → s.pos = .s1 → exec .tick s = .next t →
    (t.pos = .s1 → Sys2Proof.core.run 4 s = .next t) ∧
    (t.pos ≠ .s1 → Sys2Proof.core.run 2 s = .next t)

/-- R181: tick answers a next state; on a bus that does not stall it comes to its end at SEQ.pos = S1 with SCH.prev_counter equal to
ENC.counter, the encoder as one poll leaves it, the tempo as the counter's change makes it, and MET.enabled flipped exactly on a press. -/
def Obligations.TickCompletes : Prop :=
  ∀ s : State, Inv s → s.inflight = none →
    (∀ n, n < 7 * s.cfg.digits → ∀ taken, (Env.afterBus n s.env).takeBus.1 ≠ .stall taken) →
    ∃ t u press, exec .tick s = .next t ∧ exec .poll s = .next u ∧ u.ret = .press press ∧
      t.pos = .s1 ∧ t.inflight = none ∧ t.enc = u.enc ∧ t.prevCounter = u.enc.counter ∧
      t.prog = s.prog ∧ t.ret = s.ret ∧
      t.met.enabled = (if press then !s.met.enabled else s.met.enabled) ∧
      t.met.beatIntervalUs.toNat = s.cfg.usPerMin / t.met.bpm.toNat ∧
      ∀ delta : Int, inCounterRange s.cfg delta →
        (delta - (u.enc.counter - s.prevCounter)) % (2 ^ s.cfg.cntW : Nat) = 0 →
        (t.met.bpm.toNat : Int)
          = max (s.cfg.bpmMin : Int) (min (s.cfg.bpmMax : Int) ((s.met.bpm.toNat : Int) + delta))

/-- R221 (and R193): after a dropped BusTransactionFailure the block is as it would be had the display operation succeeded: two
blocks that agree on everything but what the bus transport answers, the target, and what has been on the bus, and whose ticks both
come to an end, agree so again after the tick, on every register, both output pins and the clock, whatever transactions failed; the
premises hold again, so the same goes for any number of ticks. -/
def Obligations.DisplayFailureKeepsTheBeat : Prop :=
  ∀ s s' t t' : State, s.cfg = s'.cfg → s.enc = s'.enc → s.met = s'.met →
    s.prevCounter = s'.prevCounter → s.out = s'.out → s.clock = s'.clock →
    s.env.pins = s'.env.pins → s.env.pinDraws = s'.env.pinDraws →
    s.env.advances = s'.env.advances → s.env.clockDraws = s'.env.clockDraws →
    exec .tick s = .next t → exec .tick s' = .next t' → t.pos = .s1 → t'.pos = .s1 →
    t.enc = t'.enc ∧ t.met = t'.met ∧ t.prevCounter = t'.prevCounter ∧ t.out = t'.out ∧
      t.clock = t'.clock ∧ t.cfg = t'.cfg ∧ t.pos = t'.pos ∧
      t.env.pins = t'.env.pins ∧ t.env.pinDraws = t'.env.pinDraws ∧
      t.env.advances = t'.env.advances ∧ t.env.clockDraws = t'.env.clockDraws

/-- R192 (c): while Idle no beat fires: a tick that ends muted has not moved MET.last_beat_timestamp and has not started a pulse. -/
def Obligations.NoBeatWhileIdle : Prop :=
  ∀ s t : State, exec .tick s = .next t → t.met.enabled = false →
    t.met.lastBeatTimestamp = s.met.lastBeatTimestamp ∧
    (t.met.pulseActive = true → s.met.pulseActive = true)

/-- R192 (a): a press that un-mutes when the last beat is at least one interval old fires a beat in the same tick. `t3` is the clock
value of step 3; the counter has not changed. -/
def Obligations.UnmuteBeatsAtOnce : Prop :=
  ∀ (s u : State) (t3 : Nat), Inv s → s.met.enabled = false → exec .poll s = .next u →
    u.ret = .press true → u.enc.counter = s.prevCounter →
    t3 = (u.clock + u.env.takeAdvance.1) % 2 ^ s.cfg.tsW →
    (s.met.beatIntervalUs.toNat : Int)
      ≤ ((t3 : Int) - s.met.lastBeatTimestamp) % (2 ^ s.cfg.tsW : Nat) →
    ∃ t, exec .tick s = .next t ∧ t.met.enabled = true ∧ t.met.lastBeatTimestamp = t3 ∧
      ∃ tail, t.events = s.events ++ [.pin s.cfg.ledPin .high, .pin s.cfg.solPin .high] ++ tail

/-! ### Boot -/

/-- R245, R246: the boot step reaches the loop whatever transactions fail, and changes no register but SEQ.pos: it uses at most
54 of the transport's answers, and where none of those is a stall it ends at S1; where it hangs it stays at BOOT. (That boot
clears and draws is decision D15.) -/
def Obligations.BootReachesTheLoop : Prop :=
  ∀ s : State, s.runnable = true → s.prog = [] → s.pos = .boot →
    ∃ t, step s = .next t ∧ BlockUnchanged s t ∧ t.ret = s.ret ∧
      (t.inflight = none → t.pos = .s1) ∧ (t.inflight ≠ none → t.pos = .boot) ∧
      ((∀ n, n < 54 → ∀ taken, (Env.afterBus n s.env).takeBus.1 ≠ .stall taken) →
        t.inflight = none ∧ t.pos = .s1)

/-- R247: a boot on a bus that never fails issues 54 transactions: those of init, of clear, and of draw_number INITIAL_BPM, DIGITS
(R152, R153). It leaves the display on, horizontal addressing, no scrolling, the tiles of INITIAL_BPM in their slots, and every
other byte of display RAM 0. A one-parameter command that the target was waiting with takes the first byte as its parameter
(R61), and the rest is as said; left out are a window command that was waiting, since R61 gives it init's first bytes as bounds, which
a target model may have to refuse (R63, R64), and MEM_MODE, of which U15 has it refuse that parameter unless it is MEM_HORIZ
(notes/assumptions/5.md).
Opcodes pairwise different is a premise (notes/assumptions/21.md). -/
def Obligations.BootShowsTheTempo : Prop :=
  ∀ s : State, s.runnable = true → s.prog = [] → s.pos = .boot → Env.busOks 54 s.env = true →
    s.cfg.opcodesDistinct = true → s.target.lost = none →
    (∀ p, s.target.pending = some p → p.cut = false ∧ p.cmd ≠ .colAddr ∧ p.cmd ≠ .pageAddr ∧
      (p.cmd = .memMode → p.params = [] ∧ s.cfg.cmd.dispOff = s.cfg.cmd.memHoriz)) →
    ∃ t, step s = .next t ∧
      t.events = s.events ++ s.cfg.seqInit.map (cmdEvent s.cfg true)
        ++ renderEvents s.cfg
            { startCol := 0, endCol := s.cfg.width - 1, startPage := 0, endPage := s.cfg.pages - 1 }
            (List.replicate (s.cfg.pages * s.cfg.width) 0)
        ++ ((List.range s.cfg.digits).flatMap fun i =>
          renderEvents s.cfg
            { startCol := i * s.cfg.glyphW + i
              endCol := i * s.cfg.glyphW + i + s.cfg.glyphW - 1
              startPage := s.cfg.digitPage, endPage := s.cfg.digitPage }
            (if s.cfg.initialBpm < 10 ^ (s.cfg.digits - 1 - i) ∧ i ≠ s.cfg.digits - 1 then s.cfg.glyph 10
             else s.cfg.glyph (s.cfg.initialBpm / 10 ^ (s.cfg.digits - 1 - i) % 10))) ∧
      t.events.length = s.events.length + 54 ∧
      t.target.ready = true ∧ t.target.displayOn = true ∧
      (∀ i k, i < s.cfg.digits → k < s.cfg.glyphW →
        t.target.ramAt t.cfg s.cfg.digitPage (i * (s.cfg.glyphW + 1) + k)
          = (if s.cfg.initialBpm < 10 ^ (s.cfg.digits - 1 - i) ∧ i ≠ s.cfg.digits - 1 then s.cfg.glyph 10
             else s.cfg.glyph (s.cfg.initialBpm / 10 ^ (s.cfg.digits - 1 - i) % 10))[k]?) ∧
      (∀ page col, page < s.cfg.pages → col < s.cfg.width →
        (∀ i k, i < s.cfg.digits → k < s.cfg.glyphW →
          ¬ (page = s.cfg.digitPage ∧ col = i * (s.cfg.glyphW + 1) + k)) →
        t.target.ramAt t.cfg page col = some 0)

/-! ### The controller commands -/

/-- R92, R96: a controller command on a bus that answers ok is sent as one CMD transaction for its opcode and one for each
parameter, in order; it returns ok and no register changes. For all nineteen; and each ends at its first transaction that fails,
number `j` with byte `b`: the ones before it completed and none later is issued (R126, R220). On a bus that answers ok it leaves
exactly what send_command of each of its bytes leaves, at the target too (R96: by position alone). -/
def Obligations.CommandsSendOpcodeThenParameters : Prop :=
  ∀ (s : State) (p a b : Byte),
    (∀ x ∈ [(Instr.dispOff, s.cfg.cmd.dispOff), (.startLine, s.cfg.cmd.startLine),
        (.segRemap, s.cfg.cmd.segRemap), (.comDir, s.cfg.cmd.comDir),
        (.entireOnRam, s.cfg.cmd.entireOnRam), (.normal, s.cfg.cmd.normal),
        (.scrollOff, s.cfg.cmd.scrollOff), (.dispOn, s.cfg.cmd.dispOn)],
      Env.busOks 1 s.env = true →
      ∃ t, exec x.1 s = .next t ∧ BlockUnchanged s t ∧ t.pos = s.pos ∧ t.inflight = s.inflight ∧
        t.ret = .status .ok ∧ t.events = s.events ++ [cmdEvent s.cfg true x.2]) ∧
    (∀ x ∈ [(Instr.memMode p, s.cfg.cmd.memMode), (.muxRatio p, s.cfg.cmd.muxRatio),
        (.dispOffset p, s.cfg.cmd.dispOffset), (.comPins p, s.cfg.cmd.comPins),
        (.clkDiv p, s.cfg.cmd.clkDiv), (.precharge p, s.cfg.cmd.precharge),
        (.vcomh p, s.cfg.cmd.vcomh), (.contrast p, s.cfg.cmd.contrast),
        (.chargePump p, s.cfg.cmd.chargePump)],
      Env.busOks 2 s.env = true →
      ∃ t, exec x.1 s = .next t ∧ BlockUnchanged s t ∧ t.pos = s.pos ∧ t.inflight = s.inflight ∧
        t.ret = .status .ok ∧
        t.events = s.events ++ [cmdEvent s.cfg true x.2, cmdEvent s.cfg true p]) ∧
    (∀ x ∈ [(Instr.colAddr a b, s.cfg.cmd.colAddr), (.pageAddr a b, s.cfg.cmd.pageAddr)],
      Env.busOks 3 s.env = true →
      ∃ t, exec x.1 s = .next t ∧ BlockUnchanged s t ∧ t.pos = s.pos ∧ t.inflight = s.inflight ∧
        t.ret = .status .ok ∧
        t.events = s.events ++
          [cmdEvent s.cfg true x.2, cmdEvent s.cfg true a, cmdEvent s.cfg true b]) ∧
    (∀ (i : Instr) (j taken : Nat) (b : Byte), (commandBytes s.cfg i)[j]? = some b →
      Env.busOks j s.env = true → (Env.afterBus j s.env).takeBus.1 = .busError taken →
      ∃ t, exec i s = .next t ∧ BlockUnchanged s t ∧ t.pos = s.pos ∧ t.inflight = s.inflight ∧
        t.ret = .status (.busFailure j b.toNat) ∧
        t.events = s.events ++ cutEvents ((commandBytes s.cfg i).map (cmdEvent s.cfg true)) j) ∧
    (∀ i : Instr, commandBytes s.cfg i ≠ [] → Env.busOks (commandBytes s.cfg i).length s.env = true →
      exec i s = .next (sendEach (commandBytes s.cfg i) s))

/-- R67: the thirteen setting commands are recorded with their parameter, and change nothing else of the target. -/
def Obligations.SettingsAreRecorded : Prop :=
  ∀ (i : Instr) (k : Cmd) (ps : List Byte) (s : State), settingOf i = some (k, ps) →
    Env.busOks (1 + ps.length) s.env = true → s.cfg.ctrlCmd ≠ s.cfg.ctrlData →
    s.cfg.opcodesDistinct = true → s.target.listening = true →
    ∃ t, exec i s = .next t ∧
      t.target = { s.target with received := s.target.received ++ [(k, ps)] }

/-- R65, R66, R67: DISP_OFF and DISP_ON set T.display_on, SCROLL_OFF clears T.scroll_active, and MEM_MODE sets T.mode_horizontal true
for the parameter MEM_HORIZ and false for any other; nothing else of the target changes, but that a target model refuses the run
from any other parameter on (U15, notes/assumptions/16.md). -/
def Obligations.FlagCommandsSetTheirFlag : Prop :=
  ∀ (s : State) (p : Byte), Env.busOks 2 s.env = true → s.cfg.ctrlCmd ≠ s.cfg.ctrlData →
    s.cfg.opcodesDistinct = true → s.target.listening = true →
    (∃ t, exec .dispOff s = .next t ∧ t.target = { s.target with displayOn := false }) ∧
    (∃ t, exec .dispOn s = .next t ∧ t.target = { s.target with displayOn := true }) ∧
    (∃ t, exec .scrollOff s = .next t ∧ t.target = { s.target with scrollActive := false }) ∧
    (∃ t, exec (.memMode p) s = .next t ∧
      t.target = if p = s.cfg.cmd.memHoriz then { s.target with modeHorizontal := true }
        else { s.target with modeHorizontal := false, lost := some .reservedParameter })

/-- R63, R64: the window commands set the window and move the pointer to its start; bounds with start > end or beyond the display have
no meaning at the target, which is then no longer described (notes/assumptions/13.md), while the block goes on. -/
def Obligations.WindowCommandsSetTheWindow : Prop :=
  ∀ (s : State) (a b : Byte), Env.busOks 3 s.env = true → s.cfg.ctrlCmd ≠ s.cfg.ctrlData →
    s.cfg.opcodesDistinct = true → s.target.listening = true →
    (∃ t, exec (.colAddr a b) s = .next t ∧ t.ret = .status .ok ∧
      (if a.toNat ≤ b.toNat ∧ b.toNat ≤ s.cfg.width - 1 then
        t.target = { s.target with colStart := a.toNat, colEnd := b.toNat, col := a.toNat }
      else t.target.lost = some .windowOutOfRange)) ∧
    (∃ t, exec (.pageAddr a b) s = .next t ∧ t.ret = .status .ok ∧
      (if a.toNat ≤ b.toNat ∧ b.toNat ≤ s.cfg.pages - 1 then
        t.target = { s.target with pageStart := a.toNat, pageEnd := b.toNat, page := a.toNat }
      else t.target.lost = some .windowOutOfRange))

/-- R68, R100 (c): send_command at a target that is described. A failed one changes nothing there under FAILED_TXN_EFFECT = none;
under any_prefix it changes nothing while fewer than both bytes were taken (notes/assumptions/12.md), and does what a completed one
does if both were. A completed one whose byte is in opcode position and is none of the nineteen opcodes leaves the target no longer
described (notes/assumptions/13.md), while the operation returns ok. -/
def Obligations.SendCommandAtTheTarget : Prop :=
  ∀ (b : Byte) (s : State), s.target.lost = none → s.cfg.ctrlCmd ≠ s.cfg.ctrlData →
    (∀ taken, s.env.takeBus.1 = .busError taken → s.cfg.failedTxn = .none →
      ∃ t, exec (.sendCommand b) s = .next t ∧ t.target = s.target) ∧
    (∀ taken, s.env.takeBus.1 = .busError taken → s.cfg.failedTxn = .anyPrefix →
      ∃ t u, exec (.sendCommand b) s = .next t ∧
        exec (.sendCommand b) { s with env := { s.env with bus := .ok :: s.env.bus.tail } } = .next u ∧
        u.ret = .status .ok ∧ t.target = if taken < 2 then s.target else u.target) ∧
    (s.env.takeBus.1 = .ok → s.target.pending = none → (∀ k : Cmd, s.cfg.opcode k ≠ b) →
      ∃ t, exec (.sendCommand b) s = .next t ∧ t.ret = .status .ok ∧
        t.target.lost = some .unknownOpcode)

/-- R61, R96: the target reads a command byte as opcode or parameter by its position alone. In opcode position an opcode with
parameters waits for them. In parameter position any byte is the next parameter, also one sent as an opcode, and the last makes the
command take effect (for MEM_MODE, R65 and U15, notes/assumptions/16.md). A command of one byte does just what send_command of that
byte does. Only after a composite operation that was cut inside a command is the next command byte misparsed, and the target no longer
described (U6, notes/assumptions/14.md). Opcodes pairwise different is a premise (notes/assumptions/21.md). -/
def Obligations.CommandBytesReadByPosition : Prop :=
  ∀ (b : Byte) (s : State), s.target.lost = none → s.cfg.ctrlCmd ≠ s.cfg.ctrlData →
    s.cfg.opcodesDistinct = true → s.env.takeBus.1 = .ok →
    (∀ k : Cmd, s.target.pending = none → s.cfg.opcode k = b → 0 < k.params →
      (∃ t, exec (.sendCommand b) s = .next t ∧
        t.target = { s.target with pending := some ⟨k, [], false⟩ }) ∧
      ∀ (i : Instr) (p : Byte) (more : List Byte) (taken : Nat), commandBytes s.cfg i = b :: p :: more →
        s.cfg.failedTxn = .none → s.env.takeBus.2.takeBus.1 = .busError taken →
        ∃ t, exec i s = .next t ∧ t.target = { s.target with pending := some ⟨k, [], true⟩ }) ∧
    (∀ i : Instr, commandBytes s.cfg i = [b] →
      ∃ t, exec i s = .next t ∧ exec (.sendCommand b) s = .next t) ∧
    (∀ (k : Cmd) (ps : List Byte), s.target.pending = some ⟨k, ps, true⟩ →
      ∃ t, exec (.sendCommand b) s = .next t ∧ t.target.lost = some .misparsed) ∧
    (∀ (k : Cmd) (ps : List Byte), s.target.pending = some ⟨k, ps, false⟩ →
      (ps.length + 1 < k.params → ∃ t, exec (.sendCommand b) s = .next t ∧
        t.target = { s.target with pending := some ⟨k, ps ++ [b], false⟩ }) ∧
      (k.params = 1 → k ≠ .memMode → ∃ t, exec (.sendCommand b) s = .next t ∧
        t.target = { s.target with pending := none, received := s.target.received ++ [(k, ps ++ [b])] }) ∧
      (k = .memMode → ps = [] → ∃ t, exec (.sendCommand b) s = .next t ∧
        t.target = if b = s.cfg.cmd.memHoriz then { s.target with pending := none, modeHorizontal := true }
          else { s.target with
            pending := none, modeHorizontal := false, lost := some .reservedParameter }) ∧
      (∀ a, k = .colAddr → ps = [a] → a.toNat ≤ b.toNat → b.toNat ≤ s.cfg.width - 1 →
        ∃ t, exec (.sendCommand b) s = .next t ∧ t.target = { s.target with
          pending := none, colStart := a.toNat, colEnd := b.toNat, col := a.toNat }) ∧
      (∀ a, k = .pageAddr → ps = [a] → a.toNat ≤ b.toNat → b.toNat ≤ s.cfg.pages - 1 →
        ∃ t, exec (.sendCommand b) s = .next t ∧ t.target = { s.target with
          pending := none, pageStart := a.toNat, pageEnd := b.toNat, page := a.toNat }))
end

