-- ==== Sys2Proof/Laws/Env.lean ====
section
/-! SUPPORT. Laws of the environment: what taking an answer of one agent leaves of the others. -/

namespace Sys2Proof.Machine

@[simp] theorem Env.takeBus_pins (e : Env) : e.takeBus.2.pins = e.pins := by
  unfold Env.takeBus; split <;> rfl
@[simp] theorem Env.takeBus_advances (e : Env) : e.takeBus.2.advances = e.advances := by
  unfold Env.takeBus; split <;> rfl
@[simp] theorem Env.takeBus_pinDraws (e : Env) : e.takeBus.2.pinDraws = e.pinDraws := by
  unfold Env.takeBus; split <;> rfl
@[simp] theorem Env.takeBus_clockDraws (e : Env) : e.takeBus.2.clockDraws = e.clockDraws := by
  unfold Env.takeBus; split <;> rfl
@[simp] theorem Env.takeBus_busDraws (e : Env) : e.takeBus.2.busDraws = e.busDraws + 1 := by
  unfold Env.takeBus; split <;> rfl

@[simp] theorem Env.takePins_bus (e : Env) : e.takePins.2.bus = e.bus := by
  unfold Env.takePins; split <;> rfl
@[simp] theorem Env.takePins_advances (e : Env) : e.takePins.2.advances = e.advances := by
  unfold Env.takePins; split <;> rfl
@[simp] theorem Env.takePins_busDraws (e : Env) : e.takePins.2.busDraws = e.busDraws := by
  unfold Env.takePins; split <;> rfl
@[simp] theorem Env.takePins_clockDraws (e : Env) : e.takePins.2.clockDraws = e.clockDraws := by
  unfold Env.takePins; split <;> rfl

@[simp] theorem Env.takeAdvance_bus (e : Env) : e.takeAdvance.2.bus = e.bus := by
  unfold Env.takeAdvance; split <;> rfl
@[simp] theorem Env.takeAdvance_pins (e : Env) : e.takeAdvance.2.pins = e.pins := by
  unfold Env.takeAdvance; split <;> rfl
@[simp] theorem Env.takeAdvance_busDraws (e : Env) : e.takeAdvance.2.busDraws = e.busDraws := by
  unfold Env.takeAdvance; split <;> rfl
@[simp] theorem Env.takeAdvance_pinDraws (e : Env) : e.takeAdvance.2.pinDraws = e.pinDraws := by
  unfold Env.takeAdvance; split <;> rfl

/-- Two environments that agree on the transport agree on its next answer. -/
theorem Env.takeBus_congr {e e' : Env} (hb : e.bus = e'.bus) (hd : e.busDraws = e'.busDraws) :
    e.takeBus.1 = e'.takeBus.1 ∧ e.takeBus.2.bus = e'.takeBus.2.bus := by
  unfold Env.takeBus; rw [hb, hd]; split <;> exact ⟨rfl, rfl⟩

/-- Two environments that agree on the pins agree on the next sample. -/
theorem Env.takePins_congr {e e' : Env} (hp : e.pins = e'.pins) (hd : e.pinDraws = e'.pinDraws) :
    e.takePins.1 = e'.takePins.1 ∧ e.takePins.2.pins = e'.takePins.2.pins
      ∧ e.takePins.2.pinDraws = e'.takePins.2.pinDraws := by
  unfold Env.takePins; rw [hp, hd]; split <;> exact ⟨rfl, rfl, rfl⟩

/-- Two environments that agree on the clock agree on its next advance. -/
theorem Env.takeAdvance_congr {e e' : Env} (ha : e.advances = e'.advances)
    (hd : e.clockDraws = e'.clockDraws) :
    e.takeAdvance.1 = e'.takeAdvance.1 ∧ e.takeAdvance.2.advances = e'.takeAdvance.2.advances
      ∧ e.takeAdvance.2.clockDraws = e'.takeAdvance.2.clockDraws := by
  unfold Env.takeAdvance; rw [ha, hd]; split <;> exact ⟨rfl, rfl, rfl⟩

end Sys2Proof.Machine
end

