-- ==== Sys2Proof/Laws/State.lean ====
section
/-! SUPPORT. Laws of State: one lemma for each field and each named update, so that no proof unfolds an update. -/

namespace Sys2Proof.Machine

/-! ### Where the pins are sampled -/

@[simp] theorem State.samplePins_state_cfg (s : State) : s.samplePins.2.cfg = s.cfg := rfl
@[simp] theorem State.samplePins_state_enc (s : State) : s.samplePins.2.enc = s.enc := rfl
@[simp] theorem State.samplePins_state_met (s : State) : s.samplePins.2.met = s.met := rfl
@[simp] theorem State.samplePins_state_prevCounter (s : State) : s.samplePins.2.prevCounter = s.prevCounter := rfl
@[simp] theorem State.samplePins_state_pos (s : State) : s.samplePins.2.pos = s.pos := rfl
@[simp] theorem State.samplePins_state_out (s : State) : s.samplePins.2.out = s.out := rfl
@[simp] theorem State.samplePins_state_target (s : State) : s.samplePins.2.target = s.target := rfl
@[simp] theorem State.samplePins_state_events (s : State) : s.samplePins.2.events = s.events := rfl
@[simp] theorem State.samplePins_state_inflight (s : State) : s.samplePins.2.inflight = s.inflight := rfl
@[simp] theorem State.samplePins_state_clock (s : State) : s.samplePins.2.clock = s.clock := rfl
@[simp] theorem State.samplePins_state_env (s : State) : s.samplePins.2.env = s.env.takePins.2 := rfl
@[simp] theorem State.samplePins_state_prog (s : State) : s.samplePins.2.prog = s.prog := rfl
@[simp] theorem State.samplePins_state_ret (s : State) : s.samplePins.2.ret = s.ret := rfl

/-! ### Where the clock is read -/

@[simp] theorem State.now_state_cfg (s : State) : s.now.2.cfg = s.cfg := rfl
@[simp] theorem State.now_state_enc (s : State) : s.now.2.enc = s.enc := rfl
@[simp] theorem State.now_state_met (s : State) : s.now.2.met = s.met := rfl
@[simp] theorem State.now_state_prevCounter (s : State) : s.now.2.prevCounter = s.prevCounter := rfl
@[simp] theorem State.now_state_pos (s : State) : s.now.2.pos = s.pos := rfl
@[simp] theorem State.now_state_out (s : State) : s.now.2.out = s.out := rfl
@[simp] theorem State.now_state_target (s : State) : s.now.2.target = s.target := rfl
@[simp] theorem State.now_state_events (s : State) : s.now.2.events = s.events := rfl
@[simp] theorem State.now_state_inflight (s : State) : s.now.2.inflight = s.inflight := rfl
@[simp] theorem State.now_state_clock (s : State) : s.now.2.clock = s.clock + s.env.takeAdvance.1 := rfl
@[simp] theorem State.now_state_env (s : State) : s.now.2.env = s.env.takeAdvance.2 := rfl
@[simp] theorem State.now_state_prog (s : State) : s.now.2.prog = s.prog := rfl
@[simp] theorem State.now_state_ret (s : State) : s.now.2.ret = s.ret := rfl

/-! ### Where the sequencer sleeps -/

@[simp] theorem State.sleep_cfg (s : State) (ms : Nat) : (s.sleep ms).cfg = s.cfg := rfl
@[simp] theorem State.sleep_enc (s : State) (ms : Nat) : (s.sleep ms).enc = s.enc := rfl
@[simp] theorem State.sleep_met (s : State) (ms : Nat) : (s.sleep ms).met = s.met := rfl
@[simp] theorem State.sleep_prevCounter (s : State) (ms : Nat) : (s.sleep ms).prevCounter = s.prevCounter := rfl
@[simp] theorem State.sleep_pos (s : State) (ms : Nat) : (s.sleep ms).pos = s.pos := rfl
@[simp] theorem State.sleep_out (s : State) (ms : Nat) : (s.sleep ms).out = s.out := rfl
@[simp] theorem State.sleep_target (s : State) (ms : Nat) : (s.sleep ms).target = s.target := rfl
@[simp] theorem State.sleep_events (s : State) (ms : Nat) : (s.sleep ms).events = s.events := rfl
@[simp] theorem State.sleep_inflight (s : State) (ms : Nat) : (s.sleep ms).inflight = s.inflight := rfl
@[simp] theorem State.sleep_clock (s : State) (ms : Nat) : (s.sleep ms).clock = s.clock + 1000 * ms := rfl
@[simp] theorem State.sleep_env (s : State) (ms : Nat) : (s.sleep ms).env = s.env := rfl
@[simp] theorem State.sleep_prog (s : State) (ms : Nat) : (s.sleep ms).prog = s.prog := rfl
@[simp] theorem State.sleep_ret (s : State) (ms : Nat) : (s.sleep ms).ret = s.ret := rfl

/-! ### Where the indicator pin is written -/

@[simp] theorem State.writeLed_cfg (s : State) (l : Level) : (s.writeLed l).cfg = s.cfg := rfl
@[simp] theorem State.writeLed_enc (s : State) (l : Level) : (s.writeLed l).enc = s.enc := rfl
@[simp] theorem State.writeLed_met (s : State) (l : Level) : (s.writeLed l).met = s.met := rfl
@[simp] theorem State.writeLed_prevCounter (s : State) (l : Level) : (s.writeLed l).prevCounter = s.prevCounter := rfl
@[simp] theorem State.writeLed_pos (s : State) (l : Level) : (s.writeLed l).pos = s.pos := rfl
@[simp] theorem State.writeLed_out (s : State) (l : Level) : (s.writeLed l).out = { s.out with led := l } := rfl
@[simp] theorem State.writeLed_target (s : State) (l : Level) : (s.writeLed l).target = s.target := rfl
@[simp] theorem State.writeLed_events (s : State) (l : Level) : (s.writeLed l).events = s.events ++ [Event.pin s.cfg.ledPin l] := rfl
@[simp] theorem State.writeLed_inflight (s : State) (l : Level) : (s.writeLed l).inflight = s.inflight := rfl
@[simp] theorem State.writeLed_clock (s : State) (l : Level) : (s.writeLed l).clock = s.clock := rfl
@[simp] theorem State.writeLed_env (s : State) (l : Level) : (s.writeLed l).env = s.env := rfl
@[simp] theorem State.writeLed_prog (s : State) (l : Level) : (s.writeLed l).prog = s.prog := rfl
@[simp] theorem State.writeLed_ret (s : State) (l : Level) : (s.writeLed l).ret = s.ret := rfl

/-! ### Where the striker pin is written -/

@[simp] theorem State.writeSol_cfg (s : State) (l : Level) : (s.writeSol l).cfg = s.cfg := rfl
@[simp] theorem State.writeSol_enc (s : State) (l : Level) : (s.writeSol l).enc = s.enc := rfl
@[simp] theorem State.writeSol_met (s : State) (l : Level) : (s.writeSol l).met = s.met := rfl
@[simp] theorem State.writeSol_prevCounter (s : State) (l : Level) : (s.writeSol l).prevCounter = s.prevCounter := rfl
@[simp] theorem State.writeSol_pos (s : State) (l : Level) : (s.writeSol l).pos = s.pos := rfl
@[simp] theorem State.writeSol_out (s : State) (l : Level) : (s.writeSol l).out = { s.out with sol := l } := rfl
@[simp] theorem State.writeSol_target (s : State) (l : Level) : (s.writeSol l).target = s.target := rfl
@[simp] theorem State.writeSol_events (s : State) (l : Level) : (s.writeSol l).events = s.events ++ [Event.pin s.cfg.solPin l] := rfl
@[simp] theorem State.writeSol_inflight (s : State) (l : Level) : (s.writeSol l).inflight = s.inflight := rfl
@[simp] theorem State.writeSol_clock (s : State) (l : Level) : (s.writeSol l).clock = s.clock := rfl
@[simp] theorem State.writeSol_env (s : State) (l : Level) : (s.writeSol l).env = s.env := rfl
@[simp] theorem State.writeSol_prog (s : State) (l : Level) : (s.writeSol l).prog = s.prog := rfl
@[simp] theorem State.writeSol_ret (s : State) (l : Level) : (s.writeSol l).ret = s.ret := rfl

/-! ### Where both outputs are written -/

@[simp] theorem State.writeOutputs_cfg (s : State) (l : Level) : (s.writeOutputs l).cfg = s.cfg := rfl
@[simp] theorem State.writeOutputs_enc (s : State) (l : Level) : (s.writeOutputs l).enc = s.enc := rfl
@[simp] theorem State.writeOutputs_met (s : State) (l : Level) : (s.writeOutputs l).met = s.met := rfl
@[simp] theorem State.writeOutputs_prevCounter (s : State) (l : Level) : (s.writeOutputs l).prevCounter = s.prevCounter := rfl
@[simp] theorem State.writeOutputs_pos (s : State) (l : Level) : (s.writeOutputs l).pos = s.pos := rfl
@[simp] theorem State.writeOutputs_out (s : State) (l : Level) : (s.writeOutputs l).out = { led := l, sol := l } := rfl
@[simp] theorem State.writeOutputs_target (s : State) (l : Level) : (s.writeOutputs l).target = s.target := rfl
@[simp] theorem State.writeOutputs_events (s : State) (l : Level) : (s.writeOutputs l).events = s.events ++ [Event.pin s.cfg.ledPin l] ++ [Event.pin s.cfg.solPin l] := rfl
@[simp] theorem State.writeOutputs_inflight (s : State) (l : Level) : (s.writeOutputs l).inflight = s.inflight := rfl
@[simp] theorem State.writeOutputs_clock (s : State) (l : Level) : (s.writeOutputs l).clock = s.clock := rfl
@[simp] theorem State.writeOutputs_env (s : State) (l : Level) : (s.writeOutputs l).env = s.env := rfl
@[simp] theorem State.writeOutputs_prog (s : State) (l : Level) : (s.writeOutputs l).prog = s.prog := rfl
@[simp] theorem State.writeOutputs_ret (s : State) (l : Level) : (s.writeOutputs l).ret = s.ret := rfl

/-! ### Where a ContractViolation is raised -/

@[simp] theorem State.raise_cfg (s : State) (v : Violation) : (s.raise v).cfg = s.cfg := rfl
@[simp] theorem State.raise_enc (s : State) (v : Violation) : (s.raise v).enc = s.enc := rfl
@[simp] theorem State.raise_met (s : State) (v : Violation) : (s.raise v).met = s.met := rfl
@[simp] theorem State.raise_prevCounter (s : State) (v : Violation) : (s.raise v).prevCounter = s.prevCounter := rfl
@[simp] theorem State.raise_pos (s : State) (v : Violation) : (s.raise v).pos = .fault := rfl
@[simp] theorem State.raise_out (s : State) (v : Violation) : (s.raise v).out = s.out := rfl
@[simp] theorem State.raise_target (s : State) (v : Violation) : (s.raise v).target = s.target := rfl
@[simp] theorem State.raise_events (s : State) (v : Violation) : (s.raise v).events = s.events := rfl
@[simp] theorem State.raise_inflight (s : State) (v : Violation) : (s.raise v).inflight = s.inflight := rfl
@[simp] theorem State.raise_clock (s : State) (v : Violation) : (s.raise v).clock = s.clock := rfl
@[simp] theorem State.raise_env (s : State) (v : Violation) : (s.raise v).env = s.env := rfl
@[simp] theorem State.raise_prog (s : State) (v : Violation) : (s.raise v).prog = s.prog := rfl
@[simp] theorem State.raise_ret (s : State) (v : Violation) : (s.raise v).ret = .status (.contractViolation v) := rfl

/-! ### Where a transaction completes -/

@[simp] theorem State.busOk_cfg (s : State) (tx : Tx) : (s.busOk tx).cfg = s.cfg := rfl
@[simp] theorem State.busOk_enc (s : State) (tx : Tx) : (s.busOk tx).enc = s.enc := rfl
@[simp] theorem State.busOk_met (s : State) (tx : Tx) : (s.busOk tx).met = s.met := rfl
@[simp] theorem State.busOk_prevCounter (s : State) (tx : Tx) : (s.busOk tx).prevCounter = s.prevCounter := rfl
@[simp] theorem State.busOk_pos (s : State) (tx : Tx) : (s.busOk tx).pos = s.pos := rfl
@[simp] theorem State.busOk_out (s : State) (tx : Tx) : (s.busOk tx).out = s.out := rfl
@[simp] theorem State.busOk_target (s : State) (tx : Tx) : (s.busOk tx).target = s.target.deliver s.cfg s.env.busDraws tx.bytes := rfl
@[simp] theorem State.busOk_events (s : State) (tx : Tx) : (s.busOk tx).events = s.events ++ [Event.bus s.cfg.devAddr tx.bytes true] := rfl
@[simp] theorem State.busOk_inflight (s : State) (tx : Tx) : (s.busOk tx).inflight = s.inflight := rfl
@[simp] theorem State.busOk_clock (s : State) (tx : Tx) : (s.busOk tx).clock = s.clock := rfl
@[simp] theorem State.busOk_env (s : State) (tx : Tx) : (s.busOk tx).env = s.env.takeBus.2 := rfl
@[simp] theorem State.busOk_prog (s : State) (tx : Tx) : (s.busOk tx).prog = s.prog := rfl
@[simp] theorem State.busOk_ret (s : State) (tx : Tx) : (s.busOk tx).ret = s.ret := rfl

/-! ### Where a transaction fails -/

@[simp] theorem State.busFailed_cfg (s : State) (tx : Tx) (n : Nat) : (s.busFailed tx n).cfg = s.cfg := rfl
@[simp] theorem State.busFailed_enc (s : State) (tx : Tx) (n : Nat) : (s.busFailed tx n).enc = s.enc := rfl
@[simp] theorem State.busFailed_met (s : State) (tx : Tx) (n : Nat) : (s.busFailed tx n).met = s.met := rfl
@[simp] theorem State.busFailed_prevCounter (s : State) (tx : Tx) (n : Nat) : (s.busFailed tx n).prevCounter = s.prevCounter := rfl
@[simp] theorem State.busFailed_pos (s : State) (tx : Tx) (n : Nat) : (s.busFailed tx n).pos = s.pos := rfl
@[simp] theorem State.busFailed_out (s : State) (tx : Tx) (n : Nat) : (s.busFailed tx n).out = s.out := rfl
@[simp] theorem State.busFailed_target (s : State) (tx : Tx) (n : Nat) : (s.busFailed tx n).target = s.target.deliverFailed s.cfg s.env.busDraws tx n := rfl
@[simp] theorem State.busFailed_events (s : State) (tx : Tx) (n : Nat) : (s.busFailed tx n).events = s.events ++ [Event.bus s.cfg.devAddr tx.bytes false] := rfl
@[simp] theorem State.busFailed_inflight (s : State) (tx : Tx) (n : Nat) : (s.busFailed tx n).inflight = s.inflight := rfl
@[simp] theorem State.busFailed_clock (s : State) (tx : Tx) (n : Nat) : (s.busFailed tx n).clock = s.clock := rfl
@[simp] theorem State.busFailed_env (s : State) (tx : Tx) (n : Nat) : (s.busFailed tx n).env = s.env.takeBus.2 := rfl
@[simp] theorem State.busFailed_prog (s : State) (tx : Tx) (n : Nat) : (s.busFailed tx n).prog = s.prog := rfl
@[simp] theorem State.busFailed_ret (s : State) (tx : Tx) (n : Nat) : (s.busFailed tx n).ret = s.ret := rfl

/-! ### Where a transaction is never answered -/

@[simp] theorem State.busHung_cfg (s : State) (tx : Tx) (n : Nat) : (s.busHung tx n).cfg = s.cfg := rfl
@[simp] theorem State.busHung_enc (s : State) (tx : Tx) (n : Nat) : (s.busHung tx n).enc = s.enc := rfl
@[simp] theorem State.busHung_met (s : State) (tx : Tx) (n : Nat) : (s.busHung tx n).met = s.met := rfl
@[simp] theorem State.busHung_prevCounter (s : State) (tx : Tx) (n : Nat) : (s.busHung tx n).prevCounter = s.prevCounter := rfl
@[simp] theorem State.busHung_pos (s : State) (tx : Tx) (n : Nat) : (s.busHung tx n).pos = s.pos := rfl
@[simp] theorem State.busHung_out (s : State) (tx : Tx) (n : Nat) : (s.busHung tx n).out = s.out := rfl
@[simp] theorem State.busHung_target (s : State) (tx : Tx) (n : Nat) : (s.busHung tx n).target = s.target.deliver s.cfg s.env.busDraws (tx.bytes.take n) := rfl
@[simp] theorem State.busHung_events (s : State) (tx : Tx) (n : Nat) : (s.busHung tx n).events = s.events := rfl
@[simp] theorem State.busHung_inflight (s : State) (tx : Tx) (n : Nat) : (s.busHung tx n).inflight = some tx.bytes := rfl
@[simp] theorem State.busHung_clock (s : State) (tx : Tx) (n : Nat) : (s.busHung tx n).clock = s.clock := rfl
@[simp] theorem State.busHung_env (s : State) (tx : Tx) (n : Nat) : (s.busHung tx n).env = s.env.takeBus.2 := rfl
@[simp] theorem State.busHung_prog (s : State) (tx : Tx) (n : Nat) : (s.busHung tx n).prog = s.prog := rfl
@[simp] theorem State.busHung_ret (s : State) (tx : Tx) (n : Nat) : (s.busHung tx n).ret = s.ret := rfl

/-! ### What is read -/

@[simp] theorem State.samplePins_value (s : State) : s.samplePins.1 = s.env.takePins.1 := rfl
@[simp] theorem State.now_value (s : State) :
    s.now.1 = (s.clock + s.env.takeAdvance.1) % 2 ^ s.cfg.tsW := rfl

end Sys2Proof.Machine
end

