-- ==== Sys2Proof/Laws/Bus.lean ====
section
/-! SUPPORT. Laws of the bus: what one transaction, and a sequence of them, can do. -/

namespace Sys2Proof.Machine

/-! ### The frame of bus traffic -/

theorem BusOnly.refl (s : State) : BusOnly s s :=
  { cfg := rfl, enc := rfl, met := rfl, prevCounter := rfl, out := rfl, clock := rfl, prog := rfl
    pos := rfl, ret := rfl, pins := rfl, advances := rfl, pinDraws := rfl, clockDraws := rfl
    events := ⟨[], (List.append_nil _).symm⟩ }

theorem BusOnly.trans {s t u : State} (h : BusOnly s t) (h' : BusOnly t u) : BusOnly s u :=
  { cfg := h'.cfg.trans h.cfg, enc := h'.enc.trans h.enc, met := h'.met.trans h.met
    prevCounter := h'.prevCounter.trans h.prevCounter, out := h'.out.trans h.out
    clock := h'.clock.trans h.clock, prog := h'.prog.trans h.prog, pos := h'.pos.trans h.pos
    ret := h'.ret.trans h.ret, pins := h'.pins.trans h.pins, advances := h'.advances.trans h.advances
    pinDraws := h'.pinDraws.trans h.pinDraws, clockDraws := h'.clockDraws.trans h.clockDraws
    events := by
      obtain ⟨e, he⟩ := h.events
      obtain ⟨e', he'⟩ := h'.events
      exact ⟨e ++ e', by rw [he', he, List.append_assoc]⟩ }

theorem State.busOk_only (s : State) (tx : Tx) : BusOnly s (s.busOk tx) :=
  { cfg := rfl, enc := rfl, met := rfl, prevCounter := rfl, out := rfl, clock := rfl, prog := rfl
    pos := rfl, ret := rfl, pins := by simp, advances := by simp, pinDraws := by simp
    clockDraws := by simp, events := ⟨_, rfl⟩ }

theorem State.busFailed_only (s : State) (tx : Tx) (n : Nat) : BusOnly s (s.busFailed tx n) :=
  { cfg := rfl, enc := rfl, met := rfl, prevCounter := rfl, out := rfl, clock := rfl, prog := rfl
    pos := rfl, ret := rfl, pins := by simp, advances := by simp, pinDraws := by simp
    clockDraws := by simp, events := ⟨_, rfl⟩ }

theorem State.busHung_only (s : State) (tx : Tx) (n : Nat) : BusOnly s (s.busHung tx n) :=
  { cfg := rfl, enc := rfl, met := rfl, prevCounter := rfl, out := rfl, clock := rfl, prog := rfl
    pos := rfl, ret := rfl, pins := by simp, advances := by simp, pinDraws := by simp
    clockDraws := by simp, events := ⟨[], (List.append_nil _).symm⟩ }

/-! ### One transaction -/

/-- The three outcomes of a transaction. -/
theorem State.busWrite_cases (s : State) (k : Nat) (tx : Tx) :
    (s.env.takeBus.1 = .ok ∧ s.busWrite k tx = (s.busOk tx, .ok)) ∨
    (∃ n, s.env.takeBus.1 = .busError n ∧
      s.busWrite k tx = (s.busFailed tx n, .busFailure k tx.info)) ∨
    (∃ n, s.env.takeBus.1 = .stall n ∧ s.busWrite k tx = (s.busHung tx n, .noReturn)) := by
  unfold State.busWrite
  cases h : s.env.takeBus.1 with
  | ok => exact .inl ⟨rfl, rfl⟩
  | busError n => exact .inr (.inl ⟨n, rfl, rfl⟩)
  | stall n => exact .inr (.inr ⟨n, rfl, rfl⟩)

theorem State.busWrite_ok {s : State} (k : Nat) (tx : Tx) (h : s.env.takeBus.1 = .ok) :
    s.busWrite k tx = (s.busOk tx, .ok) := by
  unfold State.busWrite; rw [h]

theorem State.busWrite_only (s : State) (k : Nat) (tx : Tx) : BusOnly s (s.busWrite k tx).1 := by
  obtain ⟨-, h⟩ | ⟨n, -, h⟩ | ⟨n, -, h⟩ := s.busWrite_cases k tx <;> rw [h]
  · exact s.busOk_only tx
  · exact s.busFailed_only tx n
  · exact s.busHung_only tx n

/-- A transaction raises no ContractViolation. -/
theorem State.busWrite_no_violation (s : State) (k : Nat) (tx : Tx) (v : Violation) :
    (s.busWrite k tx).2 ≠ .contractViolation v := by
  obtain ⟨-, h⟩ | ⟨n, -, h⟩ | ⟨n, -, h⟩ := s.busWrite_cases k tx <;> rw [h] <;> simp

/-! ### Calls in sequence -/

/-- What a sequence of two calls can be: the first ended it, or it returned ok and the second follows. -/
theorem andThen_cases (r : State × Status) (f : State → State × Status) :
    (r.2 = .ok ∧ andThen r f = f r.1) ∨ (r.2 ≠ .ok ∧ andThen r f = r) := by
  obtain ⟨s, st⟩ := r
  cases st <;> simp [andThen]

@[simp] theorem andThen_ok (s : State) (f : State → State × Status) : andThen (s, .ok) f = f s := rfl

/-- A relation that the first call has, and the second has after an ok, the sequence has. -/
theorem andThen_rel {P : State → State → Prop} (htrans : ∀ {a b c}, P a b → P b c → P a c)
    {s : State} {r : State × Status} {f : State → State × Status} (hr : P s r.1)
    (hf : r.2 = .ok → P r.1 (f r.1).1) : P s (andThen r f).1 := by
  obtain ⟨h, e⟩ | ⟨-, e⟩ := andThen_cases r f <;> rw [e]
  · exact htrans hr (hf h)
  · exact hr

@[simp] theorem ignoreBusFailure_state (r : State × Status) : (ignoreBusFailure r).1 = r.1 := by
  obtain ⟨s, st⟩ := r; cases st <;> rfl

/-! ### Transactions in order -/

theorem runTxs_only (txs : List Tx) (k : Nat) (s : State) : BusOnly s (runTxs k txs s).1 := by
  induction txs generalizing k s with
  | nil => exact BusOnly.refl s
  | cons tx txs ih =>
    exact andThen_rel (P := BusOnly) BusOnly.trans (s.busWrite_only k tx) fun _ => ih _ _

theorem runTxs_no_violation (txs : List Tx) (k : Nat) (s : State) (v : Violation) :
    (runTxs k txs s).2 ≠ .contractViolation v := by
  induction txs generalizing k s with
  | nil => simp [runTxs]
  | cons tx txs ih =>
    simp only [runTxs]
    obtain ⟨-, e⟩ | ⟨-, e⟩ := andThen_cases (s.busWrite k tx) (runTxs (k + 1) txs) <;> rw [e]
    · exact ih _ _
    · exact s.busWrite_no_violation k tx v

/-- The state after transactions that all return ok. -/
def State.runOk (s : State) (txs : List Tx) : State := txs.foldl State.busOk s

theorem runTxs_ok (txs : List Tx) (k : Nat) (s : State) (h : Env.busOks txs.length s.env = true) :
    runTxs k txs s = (s.runOk txs, .ok) := by
  induction txs generalizing k s with
  | nil => rfl
  | cons tx txs ih =>
    simp only [List.length_cons, Env.busOks, Bool.and_eq_true, decide_eq_true_eq] at h
    rw [runTxs, s.busWrite_ok k tx h.1, andThen_ok]
    exact ih _ _ h.2

theorem State.runOk_only (txs : List Tx) (s : State) : BusOnly s (s.runOk txs) := by
  induction txs generalizing s with
  | nil => exact BusOnly.refl s
  | cons tx txs ih => exact (s.busOk_only tx).trans (ih _)

@[simp] theorem State.runOk_events (txs : List Tx) (s : State) :
    (s.runOk txs).events = s.events ++ okEvents s.cfg txs := by
  induction txs generalizing s with
  | nil => simp [State.runOk, okEvents]
  | cons tx txs ih =>
    show ((s.busOk tx).runOk txs).events = _
    rw [ih]; simp [okEvents]

@[simp] theorem State.runOk_inflight (txs : List Tx) (s : State) :
    (s.runOk txs).inflight = s.inflight := by
  induction txs generalizing s with
  | nil => rfl
  | cons tx txs ih => exact (ih (s.busOk tx)).trans (by simp)

@[simp] theorem State.runOk_env (txs : List Tx) (s : State) :
    (s.runOk txs).env = Env.afterBus txs.length s.env := by
  induction txs generalizing s with
  | nil => rfl
  | cons tx txs ih => exact (ih (s.busOk tx)).trans (by simp [Env.afterBus])

theorem State.runOk_append (txs txs' : List Tx) (s : State) :
    s.runOk (txs ++ txs') = (s.runOk txs).runOk txs' := by
  simp [State.runOk]

theorem Env.busOks_add (m n : Nat) (e : Env) :
    Env.busOks (m + n) e = (Env.busOks m e && Env.busOks n (Env.afterBus m e)) := by
  induction m generalizing e with
  | zero => simp [Env.busOks, Env.afterBus]
  | succ m ih =>
    rw [Nat.succ_add]
    simp [Env.busOks, Env.afterBus, ih, Bool.and_assoc]

/-- The first transaction of a sequence that does not return ok ends it: those before it completed, it is the last. -/
theorem runTxs_stops (txs : List Tx) (tx : Tx) (rest : List Tx) (k : Nat) (s : State)
    (h : Env.busOks txs.length s.env = true)
    (hbad : (Env.afterBus txs.length s.env).takeBus.1 ≠ .ok) :
    runTxs k (txs ++ tx :: rest) s = (s.runOk txs).busWrite (k + txs.length) tx := by
  induction txs generalizing k s with
  | nil =>
    simp only [List.nil_append, runTxs]
    obtain ⟨h', e⟩ | ⟨-, e⟩ := andThen_cases (s.busWrite k tx) (runTxs (k + 1) rest)
    · obtain ⟨a, -⟩ | ⟨n, -, w⟩ | ⟨n, -, w⟩ := s.busWrite_cases k tx
      · exact absurd a hbad
      · rw [w] at h'; simp at h'
      · rw [w] at h'; simp at h'
    · rw [e]; rfl
  | cons t txs ih =>
    simp only [List.length_cons, Env.busOks, Bool.and_eq_true, decide_eq_true_eq] at h
    rw [List.cons_append, runTxs, s.busWrite_ok k t h.1, andThen_ok, ih _ (s.busOk t) h.2 hbad]
    simp only [List.length_cons, State.runOk, List.foldl_cons]
    congr 1; omega

/-! ### How a call ends -/

/-- What the end of a called operation can be. -/
theorem State.leave_cases (r : State × Status) :
    (∃ st, (∀ v, st ≠ .contractViolation v) ∧ r.2 = st ∧
      State.leave r = { r.1 with ret := .status st }) ∨
    (∃ v, r.2 = .contractViolation v ∧ State.leave r = r.1.raise v) ∨
    (r.2 = .noReturn ∧ State.leave r = r.1) := by
  obtain ⟨s, st⟩ := r
  cases st with
  | ok => exact .inl ⟨.ok, by simp, rfl, rfl⟩
  | busFailure k i => exact .inl ⟨.busFailure k i, by simp, rfl, rfl⟩
  | contractViolation v => exact .inr (.inl ⟨v, rfl, rfl⟩)
  | noReturn => exact .inr (.inr ⟨rfl, rfl⟩)

@[simp] theorem State.leave_ok (s : State) : State.leave (s, .ok) = { s with ret := .status .ok } := rfl

/-- What the end of a call of the sequencer can be (R193, R246). -/
theorem State.proceed_cases (next : SeqPos) (r : State × Status) :
    (((r.2 = .ok ∨ ∃ k i, r.2 = .busFailure k i)) ∧
      State.proceed next r = { r.1 with pos := next }) ∨
    (∃ v, r.2 = .contractViolation v ∧ State.proceed next r = r.1.raise v) ∨
    (r.2 = .noReturn ∧ State.proceed next r = r.1) := by
  obtain ⟨s, st⟩ := r
  cases st with
  | ok => exact .inl ⟨.inl rfl, rfl⟩
  | busFailure k i => exact .inl ⟨.inr ⟨k, i, rfl⟩, rfl⟩
  | contractViolation v => exact .inr (.inl ⟨v, rfl, rfl⟩)
  | noReturn => exact .inr (.inr ⟨rfl, rfl⟩)

end Sys2Proof.Machine
end

