-- ==== Sys2Proof/Laws/Memory.lean ====
section
/-! SUPPORT. Laws of display RAM: what a read sees after a write, and that a write keeps the canonical form. -/

namespace Sys2Proof.Machine

@[simp] theorem Memory.read_nil (a : Nat) : Memory.read [] a = none := rfl

theorem Memory.read_write_same (m : Memory) (a : Nat) (v : Byte) :
    Memory.read (Memory.write m a v) a = some v := by
  induction m with
  | nil => simp [Memory.write, Memory.read]
  | cons cell m ih =>
    obtain ⟨k, b⟩ := cell
    simp only [Memory.write]
    split_ifs with h₁ h₂
    · simp [Memory.read]
    · simp [Memory.read]
    · have h : ¬ k = a := fun h => h₂ h.symm
      simp [Memory.read, h, ih]

theorem Memory.read_write_other (m : Memory) {a a' : Nat} (v : Byte) (h : a' ≠ a) :
    Memory.read (Memory.write m a v) a' = Memory.read m a' := by
  have h' : ¬ a = a' := fun e => h e.symm
  induction m with
  | nil => simp [Memory.write, Memory.read, h']
  | cons cell m ih =>
    obtain ⟨k, b⟩ := cell
    simp only [Memory.write]
    split_ifs with h₁ h₂
    · simp [Memory.read, h']
    · subst h₂; simp [Memory.read, h']
    · simp [Memory.read, ih]

/-- What any read sees after a write. -/
theorem Memory.read_write (m : Memory) (a a' : Nat) (v : Byte) :
    Memory.read (Memory.write m a v) a' = if a' = a then some v else Memory.read m a' := by
  split_ifs with h
  · subst h; exact Memory.read_write_same m _ v
  · exact Memory.read_write_other m v h

theorem Memory.above_iff (lo : Nat) (m : Memory) :
    Memory.above lo m = true ↔ ∀ cell ∈ m, lo < cell.1 := by
  simp [Memory.above]

theorem Memory.mem_write (m : Memory) (a : Nat) (v : Byte) {cell : Host.Cell}
    (h : cell ∈ Memory.write m a v) : cell = (a, v) ∨ cell ∈ m := by
  induction m with
  | nil => simpa [Memory.write] using h
  | cons c m ih =>
    obtain ⟨k, b⟩ := c
    simp only [Memory.write] at h
    split_ifs at h with h₁ h₂
    · simpa using h
    · rcases List.mem_cons.1 h with h | h
      · exact .inl h
      · exact .inr (List.mem_cons_of_mem _ h)
    · rcases List.mem_cons.1 h with h | h
      · exact .inr (h ▸ List.mem_cons_self)
      · exact (ih h).imp_right (List.mem_cons_of_mem _)

theorem Memory.above_write (m : Memory) {lo a : Nat} (v : Byte) (ha : lo < a)
    (h : Memory.above lo m = true) : Memory.above lo (Memory.write m a v) = true := by
  rw [Memory.above_iff] at h ⊢
  intro cell hc
  rcases Memory.mem_write m a v hc with rfl | hc
  · exact ha
  · exact h cell hc

theorem Memory.above_mono {lo lo' : Nat} (m : Memory) (hl : lo' ≤ lo) (h : Memory.above lo m = true) :
    Memory.above lo' m = true := by
  rw [Memory.above_iff] at h ⊢
  exact fun cell hc => lt_of_le_of_lt hl (h cell hc)

/-- A write keeps the canonical form. -/
theorem Memory.write_wf (m : Memory) (a : Nat) (v : Byte) (h : Memory.wf m = true) :
    Memory.wf (Memory.write m a v) = true := by
  induction m with
  | nil => rfl
  | cons cell m ih =>
    obtain ⟨k, b⟩ := cell
    simp only [Memory.wf, Bool.and_eq_true] at h
    simp only [Memory.write]
    split_ifs with h₁ h₂
    · simp only [Memory.wf, Bool.and_eq_true]
      refine ⟨?_, h.1, h.2⟩
      have := Memory.above_mono m h₁.le h.1
      rw [Memory.above_iff] at this ⊢
      intro cell hc
      rcases List.mem_cons.1 hc with rfl | hc
      · exact h₁
      · exact this cell hc
    · subst h₂; simp [Memory.wf, h.1, h.2]
    · simp only [Memory.wf, Bool.and_eq_true]
      exact ⟨Memory.above_write m v (by omega) h.1, ih h.2⟩

/-- The canonical form, by the list of addresses. -/
theorem Memory.wf_iff (m : Memory) : Memory.wf m = true ↔ (m.map Prod.fst).Pairwise (· < ·) := by
  induction m with
  | nil => simp [Memory.wf]
  | cons cell m ih => simp [Memory.wf, Memory.above_iff, ih]

/-- A write to an address that is listed keeps the list of addresses. -/
theorem Memory.write_addrs (m : Memory) {a : Nat} (v : Byte) (h : Memory.wf m = true)
    (ha : a ∈ m.map Prod.fst) : (Memory.write m a v).map Prod.fst = m.map Prod.fst := by
  induction m with
  | nil => simp at ha
  | cons cell m ih =>
    obtain ⟨k, b⟩ := cell
    simp only [Memory.wf, Bool.and_eq_true, Memory.above_iff] at h
    simp only [Memory.write]
    split_ifs with h₁ h₂
    · exfalso
      simp only [List.map_cons, List.mem_cons, List.mem_map] at ha
      obtain rfl | ⟨cell, hc, rfl⟩ := ha
      · omega
      · have := h.1 cell hc; omega
    · simp [h₂]
    · simp only [List.map_cons, List.mem_cons] at ha
      simp [ih h.2 (ha.resolve_left h₂)]

/-- An address that is listed holds a byte. -/
theorem Memory.read_some (m : Memory) {a : Nat} (ha : a ∈ m.map Prod.fst) :
    ∃ v, Memory.read m a = some v := by
  induction m with
  | nil => simp at ha
  | cons cell m ih =>
    obtain ⟨k, b⟩ := cell
    by_cases hk : k = a
    · exact ⟨b, by simp [Memory.read, hk]⟩
    · simp only [List.map_cons, List.mem_cons] at ha
      obtain ⟨v, hv⟩ := ih (ha.resolve_left fun e => hk e.symm)
      exact ⟨v, by simp [Memory.read, hk, hv]⟩

/-- Two canonical memories that read alike are equal. -/
theorem Memory.ext_of_read {m m' : Memory} (h : Memory.wf m = true) (h' : Memory.wf m' = true)
    (hr : ∀ a, Memory.read m a = Memory.read m' a) : m = m' := by
  have none_of_above : ∀ (m : Memory) (lo a : Nat), a ≤ lo → Memory.above lo m = true →
      Memory.read m a = none := by
    intro m
    induction m with
    | nil => intros; rfl
    | cons c m ih =>
      intro lo a ha hab
      simp only [Memory.above, List.all_cons, Bool.and_eq_true, decide_eq_true_eq] at hab
      simp only [Memory.read]
      rw [if_neg (by omega)]
      exact ih lo a ha hab.2
  induction m generalizing m' with
  | nil =>
    cases m' with
    | nil => rfl
    | cons c m' => simpa [Memory.read] using hr c.1
  | cons c m ih =>
    cases m' with
    | nil => simpa [Memory.read] using hr c.1
    | cons c' m' =>
      obtain ⟨k, b⟩ := c
      obtain ⟨k', b'⟩ := c'
      simp only [Memory.wf, Bool.and_eq_true] at h h'
      have hk : k = k' := by
        rcases lt_trichotomy k k' with hlt | heq | hlt
        · have := hr k
          simp only [Memory.read, if_true] at this
          rw [if_neg (by omega), none_of_above m' k' k hlt.le h'.1] at this
          exact absurd this (by simp)
        · exact heq
        · have := hr k'
          simp only [Memory.read, if_true] at this
          rw [if_neg (by omega), none_of_above m k k' hlt.le h.1] at this
          exact absurd this (by simp)
      subst hk
      have hb : b = b' := by simpa [Memory.read] using hr k
      subst hb
      congr 1
      refine ih h.2 h'.2 fun a => ?_
      by_cases ha : k = a
      · subst ha
        rw [none_of_above m k k le_rfl h.1, none_of_above m' k k le_rfl h'.1]
      · simpa [Memory.read, ha] using hr a

end Sys2Proof.Machine
end

