-- ==== Sys2Proof/Laws/Target.lean ====
section
/-! SUPPORT. Laws of the bus target: the form of display RAM is kept by everything a transaction can do; what a complete
command does at a target that listens; where the bytes of a data transaction go. -/

namespace Sys2Proof.Machine

/-! ### Display RAM keeps its form -/

/-- Display RAM with a byte at each address of the display and no other (R60). -/
def Target.ramOk (c : Cfg) (t : Target) : Prop := t.ram.map Prod.fst = List.range c.totalBufLen

theorem Target.ramOk_wf {c : Cfg} {t : Target} (h : t.ramOk c) : Memory.wf t.ram = true := by
  rw [Memory.wf_iff, show t.ram.map Prod.fst = _ from h]
  exact List.pairwise_lt_range

theorem Target.ramOk_of_ram {c : Cfg} {t t' : Target} (h : t.ramOk c) (e : t'.ram = t.ram) :
    t'.ramOk c := by
  unfold Target.ramOk at *; rw [e]; exact h

theorem Target.ramOk_drawn {c : Cfg} {t : Target} {d : Draw} (e : t.ram = c.drawnRam d) : t.ramOk c := by
  unfold Target.ramOk; rw [e]; simp [Cfg.drawnRam, Function.comp_def]

@[simp] theorem Target.unknown_ram (c : Cfg) (n : Nat) (why : TargetLoss) :
    (Target.unknown c n why).ram = c.drawnRam (.later n) := rfl
@[simp] theorem Target.unknown_lost (c : Cfg) (n : Nat) (why : TargetLoss) :
    (Target.unknown c n why).lost = some why := rfl
@[simp] theorem Target.powerOn_ram (c : Cfg) : (Target.powerOn c).ram = c.drawnRam .powerOn := rfl
@[simp] theorem Target.powerOn_lost (c : Cfg) : (Target.powerOn c).lost = none := rfl
@[simp] theorem Target.scramble_ram (c : Cfg) (n : Nat) (t : Target) :
    (t.scramble c n).ram = c.drawnRam (.later n) := rfl

theorem Target.unknown_ramOk (c : Cfg) (n : Nat) (why : TargetLoss) :
    (Target.unknown c n why).ramOk c := Target.ramOk_drawn rfl

@[simp] theorem Target.markCut_ram (role : Role) (t t' : Target) :
    (Target.markCut role t t').ram = t'.ram := by unfold Target.markCut; split <;> rfl
@[simp] theorem Target.markCut_lost (role : Role) (t t' : Target) :
    (Target.markCut role t t').lost = t'.lost := by unfold Target.markCut; split <;> rfl
@[simp] theorem Target.markCut_raw (t t' : Target) : Target.markCut .raw t t' = t' := rfl

/-- A command leaves RAM alone, or the target is no longer described. -/
theorem Target.effect_ram (c : Cfg) (n : Nat) (t : Target) (k : Cmd) (ps : List Byte) :
    (t.effect c n k ps).ram = t.ram ∨ ∃ why, t.effect c n k ps = Target.unknown c n why := by
  cases k <;> first
    | exact .inl rfl
    | (simp only [Target.effect, Target.setMode]; split <;> exact .inl rfl)
    | (simp only [Target.effect, Target.setColumns, Target.setPages]
       split
       · exact .inl rfl
       · exact .inr ⟨_, rfl⟩)

/-- A command byte leaves RAM alone, or the target is no longer described. -/
theorem Target.commandByte_ram (c : Cfg) (n : Nat) (t : Target) (b : Byte) :
    (t.commandByte c n b).ram = t.ram ∨
      ((t.commandByte c n b).lost ≠ none ∧
        (t.commandByte c n b).ram = c.drawnRam (.later n)) := by
  have of_effect : ∀ (u : Target) k ps, u.ram = t.ram → (u.effect c n k ps).ram = t.ram ∨
      ((u.effect c n k ps).lost ≠ none ∧ (u.effect c n k ps).ram = c.drawnRam (.later n)) := by
    intro u k ps hu
    obtain e | ⟨why, e⟩ := Target.effect_ram c n u k ps
    · exact .inl (e.trans hu)
    · rw [e]; exact .inr ⟨by simp, rfl⟩
  unfold Target.commandByte
  split
  · unfold Target.opcodeByte
    split
    · exact .inr ⟨by simp, rfl⟩
    · split
      · exact of_effect _ _ _ rfl
      · exact .inl rfl
  · split
    · exact .inr ⟨by simp, rfl⟩
    · unfold Target.paramByte
      split
      · exact of_effect { t with pending := none } _ _ rfl
      · exact .inl rfl

theorem Cfg.cellAddr_lt {c : Cfg} {page col : Nat} (hc : col < c.width) (hp : page < c.pages) :
    c.cellAddr page col < c.totalBufLen := by
  unfold Cfg.cellAddr Cfg.totalBufLen
  calc page * c.width + col < page * c.width + c.width := by omega
    _ = (page + 1) * c.width := by ring
    _ ≤ c.pages * c.width := Nat.mul_le_mul_right _ hp

@[simp] theorem Target.advance_ram (t : Target) : t.advance.ram = t.ram := by
  unfold Target.advance; split <;> rfl
@[simp] theorem Target.advance_lost (t : Target) : t.advance.lost = t.lost := by
  unfold Target.advance; split <;> rfl

theorem Target.pixelByte_ramOk {c : Cfg} {t : Target} (n : Nat) (v : Byte) (h : t.ramOk c) :
    (t.pixelByte c n v).ramOk c := by
  unfold Target.pixelByte
  split
  · rename_i hin
    unfold Target.ramOk
    rw [Target.advance_ram, Memory.write_addrs _ _ (Target.ramOk_wf h)]
    · exact h
    · rw [show t.ram.map Prod.fst = _ from h, List.mem_range]
      exact Cfg.cellAddr_lt hin.1 hin.2
  · exact Target.unknown_ramOk ..

theorem Target.pixelBytes_ramOk {c : Cfg} (n : Nat) (vs : List Byte) {t : Target} (h : t.ramOk c) :
    (Target.pixelBytes c n t vs).ramOk c := by
  induction vs generalizing t with
  | nil => exact h
  | cons v vs ih =>
    simp only [Target.pixelBytes]
    split
    · exact Target.pixelByte_ramOk n v h
    · exact ih (Target.pixelByte_ramOk n v h)

theorem Target.payload_ramOk {c : Cfg} (n : Nat) (vs : List Byte) {t : Target} (h : t.ramOk c) :
    (t.payload c n vs).ramOk c := by
  unfold Target.payload
  split_ifs
  · exact Target.unknown_ramOk ..
  · exact Target.unknown_ramOk ..
  · exact Target.ramOk_drawn rfl
  · exact Target.pixelBytes_ramOk n vs h

/-- Whatever arrives, display RAM keeps its form. -/
theorem Target.deliver_ramOk {c : Cfg} (n : Nat) (bytes : List Byte) {t : Target}
    (h : t.ramOk c) : (t.deliver c n bytes).ramOk c := by
  unfold Target.deliver
  split
  · exact h
  · split
    · exact Target.unknown_ramOk ..
    · split_ifs
      · exact Target.payload_ramOk n _ h
      · split
        · exact h
        · obtain e | ⟨-, e⟩ := Target.commandByte_ram c n t ‹_›
          · exact Target.ramOk_of_ram h e
          · exact Target.ramOk_drawn e
        · exact Target.unknown_ramOk ..
      · exact Target.unknown_ramOk ..

/-- RAM and loss after a failed transaction are as before it, or as after a prefix of it (R68). -/
theorem Target.deliverFailed_cases (c : Cfg) (n : Nat) (tx : Tx) (taken : Nat) (t : Target) :
    ((t.deliverFailed c n tx taken).ram = t.ram ∧ (t.deliverFailed c n tx taken).lost = t.lost) ∨
      ((t.deliverFailed c n tx taken).ram = (t.deliver c n (tx.bytes.take taken)).ram ∧
        (t.deliverFailed c n tx taken).lost = (t.deliver c n (tx.bytes.take taken)).lost) := by
  simp only [Target.deliverFailed, Target.markCut_ram, Target.markCut_lost, Target.deliverPrefix]
  cases c.failedTxn
  · exact .inl ⟨rfl, rfl⟩
  · exact .inr ⟨rfl, rfl⟩

theorem Target.deliverFailed_ramOk {c : Cfg} (n : Nat) (tx : Tx) (taken : Nat) {t : Target}
    (h : t.ramOk c) : (t.deliverFailed c n tx taken).ramOk c := by
  obtain ⟨e, -⟩ | ⟨e, -⟩ := Target.deliverFailed_cases c n tx taken t
  · exact Target.ramOk_of_ram h e
  · exact Target.ramOk_of_ram (Target.deliver_ramOk n _ h) e

/-- A target that is no longer described is never described again by what arrives. -/
theorem Target.deliver_lost {c : Cfg} (n : Nat) (bytes : List Byte) {t : Target}
    (h : t.lost ≠ none) : (t.deliver c n bytes).lost ≠ none := by
  obtain ⟨why, hw⟩ := Option.ne_none_iff_exists'.1 h
  unfold Target.deliver
  cases bytes with
  | nil => exact h
  | cons b bs => rw [hw]; simp

/-- A CMD transaction, or any first part of one, leaves RAM alone, or the target is no longer described. -/
theorem Target.deliver_cmd_ram {c : Cfg} (n : Nat) (role : Role) (b : Byte) (taken : Nat)
    (t : Target) (hc : c.ctrlCmd ≠ c.ctrlData) :
    (t.deliver c n ((c.cmdTx role b).bytes.take taken)).lost ≠ none ∨
      ((t.deliver c n ((c.cmdTx role b).bytes.take taken)).ram = t.ram) := by
  cases hl : t.lost with
  | some why =>
    cases taken with
    | zero => exact .inr rfl
    | succ m => left; simp [Cfg.cmdTx, Target.deliver, hl]
  | none =>
    match taken with
    | 0 => exact .inr rfl
    | 1 => right; simp [Cfg.cmdTx, Target.deliver, hl, hc]
    | m + 2 =>
      have e : t.deliver c n ((c.cmdTx role b).bytes.take (m + 2)) = t.commandByte c n b := by
        simp [Cfg.cmdTx, Target.deliver, hl, hc]
      rw [e]
      exact (Target.commandByte_ram c n t b).symm.imp_left And.left

/-! ### A complete command at a listening target -/

theorem Target.listening_iff (t : Target) :
    t.listening = true ↔ t.lost = none ∧ t.pending = none := by
  simp [Target.listening]

theorem Target.ready_iff (t : Target) :
    t.ready = true ↔
      t.lost = none ∧ t.pending = none ∧ t.modeHorizontal = true ∧ t.scrollActive = false := by
  simp [Target.ready, Target.listening, and_assoc]

theorem Target.ready_listening {t : Target} (h : t.ready = true) : t.listening = true := by
  rw [Target.ready_iff] at h; rw [Target.listening_iff]; exact ⟨h.1, h.2.1⟩

theorem Cmd.mem_all (k : Cmd) : k ∈ Cmd.all := by cases k <;> decide

/-- With pairwise different opcodes a target knows each command by its byte. -/
theorem Cfg.cmdOfOpcode_opcode {c : Cfg} (h : c.opcodesDistinct = true) (k : Cmd) :
    c.cmdOfOpcode (c.opcode k) = some k := by
  have inj : ∀ a ∈ Cmd.all, ∀ b ∈ Cmd.all, c.opcode a = c.opcode b → a = b := by
    simp only [Cfg.opcodesDistinct, decide_eq_true_eq] at h
    exact fun a ha b hb => List.inj_on_of_nodup_map h ha hb
  unfold Cfg.cmdOfOpcode
  cases hf : Cmd.all.find? (fun j => c.opcode j == c.opcode k) with
  | none =>
    have := List.find?_eq_none.1 hf k (Cmd.mem_all k)
    simp at this
  | some j =>
    have hj := List.find?_some hf
    rw [inj j (Cmd.mem_all j) k (Cmd.mem_all k) (by simpa using hj)]

/-- A CMD transaction delivers its command byte to a target that is described. -/
theorem Target.deliver_cmdTx {c : Cfg} (n : Nat) (role : Role) (b : Byte) {t : Target}
    (hc : c.ctrlCmd ≠ c.ctrlData) (hl : t.lost = none) :
    t.deliver c n (c.cmdTx role b).bytes = t.commandByte c n b := by
  simp [Cfg.cmdTx, Target.deliver, hl, hc]

/-- A DATA transaction delivers its payload to a target that is described. -/
theorem Target.deliver_dataTx {c : Cfg} (n : Nat) (vs : List Byte) {t : Target}
    (hl : t.lost = none) : t.deliver c n (c.dataTx vs).bytes = t.payload c n vs := by
  simp [Cfg.dataTx, Target.deliver, hl]

/-- Transactions that all arrive, the first at draw `n`. -/
def Target.deliverAll (c : Cfg) : Nat → List Tx → Target → Target
  | _, [], t => t
  | n, tx :: txs, t => Target.deliverAll c (n + 1) txs (t.deliver c n tx.bytes)

theorem Target.deliverAll_append (c : Cfg) (n : Nat) (txs txs' : List Tx) (t : Target) :
    Target.deliverAll c n (txs ++ txs') t
      = Target.deliverAll c (n + txs.length) txs' (Target.deliverAll c n txs t) := by
  induction txs generalizing n t with
  | nil => rfl
  | cons tx txs ih =>
    simp only [List.cons_append, Target.deliverAll, List.length_cons]
    rw [ih]; congr 1; omega

theorem State.runOk_target (txs : List Tx) (s : State) :
    (s.runOk txs).target = Target.deliverAll s.cfg s.env.busDraws txs s.target := by
  induction txs generalizing s with
  | nil => rfl
  | cons tx txs ih =>
    show ((s.busOk tx).runOk txs).target = _
    rw [ih]; simp [Target.deliverAll]

/-- MEM_MODE with the parameter init sends (R65). -/
@[simp] theorem Target.effect_memHoriz (c : Cfg) (n : Nat) (t : Target) :
    t.effect c n .memMode [c.cmd.memHoriz] = { t with modeHorizontal := true } := by
  simp [Target.effect, Target.setMode, paramAt]

/-- A byte at a target that is waiting for a parameter, unless an operation was cut there (R61). -/
theorem Target.commandByte_pending {c : Cfg} (n : Nat) (b : Byte) {t : Target} {p : Pending}
    (hp : t.pending = some p) (h : p.cut = false) :
    t.commandByte c n b = t.paramByte c n p b := by
  simp [Target.commandByte, hp, h]

/-- A byte at a target where an operation was cut (U6). -/
theorem Target.commandByte_cut {c : Cfg} (n : Nat) (b : Byte) {t : Target} {p : Pending}
    (hp : t.pending = some p) (h : p.cut = true) :
    t.commandByte c n b = Target.unknown c n .misparsed := by
  simp [Target.commandByte, hp, h]

/-- A known opcode at a target that listens. -/
theorem Target.commandByte_opcode {c : Cfg} (n : Nat) (k : Cmd) {t : Target}
    (hd : c.opcodesDistinct = true) (hp : t.pending = none) :
    t.commandByte c n (c.opcode k)
      = if k.params = 0 then t.effect c n k [] else { t with pending := some ⟨k, [], false⟩ } := by
  simp [Target.commandByte, hp, Target.opcodeByte, Cfg.cmdOfOpcode_opcode hd]

/-- A complete command takes effect at a target that listens (R61). -/
theorem Target.deliverAll_command {c : Cfg} (n : Nat) (k : Cmd) (ps : List Byte) {t : Target}
    (hc : c.ctrlCmd ≠ c.ctrlData) (hd : c.opcodesDistinct = true) (ht : t.listening = true)
    (hp : ps.length = k.params) :
    Target.deliverAll c n (c.commandTxs k ps) t = t.effect c (n + k.params) k ps := by
  rw [Target.listening_iff] at ht
  have hk : k.params ≤ 2 := by cases k <;> decide
  have hpend : { t with pending := none } = t := by
    have := ht.2; cases t; simp_all
  have h0 := Target.commandByte_opcode (c := c) n k hd ht.2
  have deliver : ∀ (u : Target) (m : Nat) (r : Role) (b : Byte), u.lost = none →
      u.deliver c m (c.cmdTx r b).bytes = u.commandByte c m b :=
    fun u m r b hl => Target.deliver_cmdTx m r b hc hl
  match ps, hp with
  | [], hp =>
    simp only [Cfg.commandTxs, List.map_nil, Target.deliverAll]
    rw [deliver _ _ _ _ ht.1, h0]
    simp at hp; simp [← hp]
  | [a], hp =>
    simp only [List.length_cons, List.length_nil] at hp
    simp only [Cfg.commandTxs, List.map_cons, List.map_nil, Target.deliverAll]
    rw [deliver t _ _ _ ht.1, h0, if_neg (by omega), deliver { t with pending := some ⟨k, [], false⟩ } _ _ _ ht.1,
      Target.commandByte_pending _ _ rfl rfl]
    simp only [Target.paramByte]
    rw [if_pos (by simp; omega)]
    simp only [hpend, List.nil_append]
    congr 1; omega
  | [a, b], hp =>
    simp only [List.length_cons, List.length_nil] at hp
    simp only [Cfg.commandTxs, List.map_cons, List.map_nil, Target.deliverAll]
    rw [deliver t _ _ _ ht.1, h0, if_neg (by omega), deliver { t with pending := some ⟨k, [], false⟩ } _ _ _ ht.1,
      Target.commandByte_pending _ _ rfl rfl]
    have h1 : ({ t with pending := some ⟨k, [], false⟩ } : Target).paramByte c (n + 1) ⟨k, [], false⟩ a
        = { t with pending := some ⟨k, [a], false⟩ } := by
      simp only [Target.paramByte]
      rw [if_neg (by simp; omega)]
      rfl
    rw [h1, deliver { t with pending := some ⟨k, [a], false⟩ } _ _ _ ht.1, Target.commandByte_pending _ _ rfl rfl]
    simp only [Target.paramByte]
    rw [if_pos (by simp; omega)]
    simp only [hpend, List.cons_append, List.nil_append]
    congr 1; omega
  | a :: b :: d :: ps, hp => simp at hp; omega

/-! ### Where pixel bytes go -/

/-- The key byte `k` of a payload goes to, when the pointer starts at the start of window `r` (R62). -/
def Rect.keyAt (c : Cfg) (r : Rect) (k : Nat) : Nat :=
  c.cellAddr (r.startPage + k / r.ncols % r.npages) (r.startCol + k % r.ncols)

/-- Display RAM after the payload `vs` whose first byte is byte `k`. -/
def fillRam (c : Cfg) (r : Rect) : Nat → List Byte → Memory → Memory
  | _, [], m => m
  | k, v :: vs, m => fillRam c r (k + 1) vs (Memory.write m (Rect.keyAt c r k) v)

/-- The target whose pointer is where byte `k` goes and whose RAM is `m`. -/
def Target.at (t : Target) (r : Rect) (k : Nat) (m : Memory) : Target :=
  { t with
    ram := m
    page := r.startPage + k / r.ncols % r.npages
    col := r.startCol + k % r.ncols }

theorem Target.advance_at {t : Target} {r : Rect} (k : Nat) (m : Memory)
    (hc : r.startCol ≤ r.endCol) (hp : r.startPage ≤ r.endPage)
    (h₁ : t.colStart = r.startCol) (h₂ : t.colEnd = r.endCol)
    (h₃ : t.pageStart = r.startPage) (h₄ : t.pageEnd = r.endPage) :
    (t.at r k m).advance = t.at r (k + 1) m := by
  have hn : 0 < r.ncols := by simp [Rect.ncols]
  have hm : 0 < r.npages := by simp [Rect.npages]
  have hk : k % r.ncols < r.ncols := Nat.mod_lt _ hn
  have hq : k / r.ncols % r.npages < r.npages := Nat.mod_lt _ hm
  unfold Target.advance Target.at
  simp only [h₁, h₂, h₃, h₄]
  by_cases hlast : k % r.ncols = r.ncols - 1
  · have hdiv : (k + 1) / r.ncols = k / r.ncols + 1 := by
      have := Nat.div_add_mod k r.ncols
      rw [show k + 1 = r.ncols * (k / r.ncols + 1) by
        rw [Nat.mul_add, Nat.mul_one]; omega]
      exact Nat.mul_div_cancel_left _ hn
    have hmod : (k + 1) % r.ncols = 0 := by
      have := Nat.div_add_mod k r.ncols
      rw [show k + 1 = r.ncols * (k / r.ncols + 1) by
        rw [Nat.mul_add, Nat.mul_one]; omega]
      exact Nat.mul_mod_right _ _
    rw [if_pos (by rw [hlast]; simp [Rect.ncols]; omega), hdiv, hmod]
    by_cases hlastp : k / r.ncols % r.npages = r.npages - 1
    · have : (k / r.ncols + 1) % r.npages = 0 := by
        rw [Nat.add_mod, hlastp]
        by_cases h1 : r.npages = 1
        · simp [h1]
        · rw [Nat.mod_eq_of_lt (a := 1) (by omega), show r.npages - 1 + 1 = r.npages by omega,
            Nat.mod_self]
      rw [if_pos (by rw [hlastp]; simp [Rect.npages]; omega), this]
      simp
    · have : (k / r.ncols + 1) % r.npages = k / r.ncols % r.npages + 1 := by
        rw [Nat.add_mod]
        by_cases h1 : r.npages = 1
        · omega
        · rw [Nat.mod_eq_of_lt (a := 1) (by omega), Nat.mod_eq_of_lt (by omega)]
      rw [if_neg (by simp [Rect.npages] at hlastp ⊢; omega), this]
      simp [Nat.add_assoc]
  · have hmod : (k + 1) % r.ncols = k % r.ncols + 1 := by
      rw [Nat.add_mod]
      by_cases h1 : r.ncols = 1
      · omega
      · rw [Nat.mod_eq_of_lt (a := 1) (by omega), Nat.mod_eq_of_lt (by omega)]
    have hdiv : (k + 1) / r.ncols = k / r.ncols := by
      have a := Nat.div_add_mod k r.ncols
      have b := Nat.div_add_mod (k + 1) r.ncols
      rw [hmod] at b
      have : r.ncols * ((k + 1) / r.ncols) = r.ncols * (k / r.ncols) := by omega
      exact Nat.eq_of_mul_eq_mul_left hn this
    rw [if_neg (by simp [Rect.ncols] at hlast ⊢; omega), hdiv, hmod]
    simp [Nat.add_assoc]

/-- A payload at a described target with window `r`, its first byte being byte `k`. -/
theorem Target.pixelBytes_at {c : Cfg} {t : Target} {r : Rect} (n : Nat) (vs : List Byte) (k : Nat)
    (m : Memory) (hc : r.startCol ≤ r.endCol) (hp : r.startPage ≤ r.endPage)
    (hw : r.endCol < c.width) (hg : r.endPage < c.pages) (hl : t.lost = none)
    (h₁ : t.colStart = r.startCol) (h₂ : t.colEnd = r.endCol)
    (h₃ : t.pageStart = r.startPage) (h₄ : t.pageEnd = r.endPage) :
    Target.pixelBytes c n (t.at r k m) vs = t.at r (k + vs.length) (fillRam c r k vs m) := by
  induction vs generalizing k m with
  | nil => rfl
  | cons v vs ih =>
    have hk : k % r.ncols < r.ncols := Nat.mod_lt _ (by simp [Rect.ncols])
    have hq : k / r.ncols % r.npages < r.npages := Nat.mod_lt _ (by simp [Rect.npages])
    have hb : (t.at r k m).pixelByte c n v
        = t.at r (k + 1) (Memory.write m (Rect.keyAt c r k) v) := by
      unfold Target.pixelByte
      rw [if_pos]
      · exact Target.advance_at k _ hc hp h₁ h₂ h₃ h₄
      · simp only [Target.at]
        simp only [Rect.ncols] at hk
        simp only [Rect.npages] at hq
        constructor
        · simp only [Rect.ncols]; omega
        · simp only [Rect.npages]; omega
    have hlost : (t.at r (k + 1) (Memory.write m (Rect.keyAt c r k) v)).lost = none := hl
    simp only [Target.pixelBytes, hb, hlost, Option.isSome_none, Bool.false_eq_true, if_false]
    rw [ih (k + 1)]
    simp only [fillRam, List.length_cons]
    congr 1; omega

/-- What display RAM holds after a payload: the last byte sent to a key, or what it held before. -/
theorem fillRam_other {c : Cfg} {r : Rect} (vs : List Byte) (k : Nat) (m : Memory) {a : Nat}
    (h : ∀ j, k ≤ j → j < k + vs.length → a ≠ Rect.keyAt c r j) :
    Memory.read (fillRam c r k vs m) a = Memory.read m a := by
  induction vs generalizing k m with
  | nil => rfl
  | cons v vs ih =>
    rw [fillRam, ih (k + 1) _ fun j h₁ h₂ => h j (by omega) (by simp; omega)]
    exact Memory.read_write_other m v (h k le_rfl (by simp))

theorem fillRam_last {c : Cfg} {r : Rect} (vs : List Byte) (k : Nat) (m : Memory) {j : Nat}
    (h₁ : k ≤ j) (h₂ : j < k + vs.length)
    (h : ∀ i, j < i → i < k + vs.length → Rect.keyAt c r j ≠ Rect.keyAt c r i) :
    Memory.read (fillRam c r k vs m) (Rect.keyAt c r j) = vs[j - k]? := by
  induction vs generalizing k m with
  | nil => simp at h₂; omega
  | cons v vs ih =>
    rw [fillRam]
    by_cases hj : j = k
    · subst hj
      rw [fillRam_other vs (j + 1) _ fun i h₁ h₂ => h i (by omega) (by simp; omega),
        Memory.read_write_same]
      simp
    · rw [ih (k + 1) _ (by omega) (by simp at h₂; omega) fun i h₁ h₂ => h i h₁ (by simp; omega)]
      rw [show j - k = (j - (k + 1)) + 1 by omega]
      simp

/-- Two display-RAM addresses with the same key are the same address. -/
theorem Cfg.cellAddr_inj {c : Cfg} {p q a b : Nat} (ha : a < c.width) (hb : b < c.width)
    (h : c.cellAddr p a = c.cellAddr q b) : p = q ∧ a = b := by
  unfold Cfg.cellAddr at h
  have hw : 0 < c.width := by omega
  have h₁ : (p * c.width + a) / c.width = p := by
    rw [Nat.mul_comm, Nat.mul_add_div hw, Nat.div_eq_of_lt ha]; rfl
  have h₂ : (q * c.width + b) / c.width = q := by
    rw [Nat.mul_comm, Nat.mul_add_div hw, Nat.div_eq_of_lt hb]; rfl
  have : p = q := by rw [← h₁, ← h₂, h]
  subst this
  exact ⟨rfl, by omega⟩

end Sys2Proof.Machine
end

