-- ==== Sys2Proof/Laws/Driver.lean ====
section
/-! SUPPORT. Laws of the operations that use the bus (DPD, GLY, the controller commands, boot): each is a sequence of bus
transactions, so what every transaction keeps, each of them keeps; and none of the block's own calls breaks render's checks. -/

namespace Sys2Proof.Machine

/-! ### Made of transactions -/

/-- A relation between states that holds of nothing done, of one transaction, and of one after another. -/
structure TxClosed (P : State → State → Prop) : Prop where
  refl : ∀ s, P s s
  trans : ∀ {s t u}, P s t → P t u → P s u
  write : ∀ (s : State) (k : Nat) (tx : Tx), P s (s.busWrite k tx).1

theorem runTxs_closed {P : State → State → Prop} (h : TxClosed P) (txs : List Tx) (k : Nat)
    (s : State) : P s (runTxs k txs s).1 := by
  induction txs generalizing k s with
  | nil => exact h.refl s
  | cons tx txs ih => exact andThen_rel (P := P) h.trans (h.write s k tx) fun _ => ih _ _

/-- What render can be: its first failing check, or its transactions. -/
theorem renderOp_cases (k : Nat) (buf : List Byte) (r : Rect) (s : State) :
    (∃ v, s.cfg.renderCheck r buf.length = some v ∧
      renderOp k buf r s = (s, .contractViolation v)) ∨
    (s.cfg.renderCheck r buf.length = none ∧
      renderOp k buf r s = runTxs k (s.cfg.renderTxs r buf) s) := by
  unfold renderOp
  cases h : s.cfg.renderCheck r buf.length with
  | some v => exact .inl ⟨v, rfl, rfl⟩
  | none => exact .inr ⟨rfl, rfl⟩

theorem renderOp_closed {P : State → State → Prop} (h : TxClosed P) (k : Nat) (buf : List Byte)
    (r : Rect) (s : State) : P s (renderOp k buf r s).1 := by
  obtain ⟨v, -, e⟩ | ⟨-, e⟩ := renderOp_cases k buf r s <;> rw [e]
  · exact h.refl s
  · exact runTxs_closed h _ _ _

theorem drawSlots_closed {P : State → State → Prop} (h : TxClosed P) (v n k : Nat) (s : State) :
    P s (drawSlots v n k s).1 := by
  induction k generalizing s with
  | zero => exact h.refl s
  | succ k ih => exact andThen_rel (P := P) h.trans (renderOp_closed h _ _ _ _) fun _ => ih _

theorem ignoreBusFailure_rel {P : State → State → Prop} {s : State} {r : State × Status}
    (h : P s r.1) : P s (ignoreBusFailure r).1 := by
  rw [ignoreBusFailure_state]; exact h

theorem bootOp_closed {P : State → State → Prop} (h : TxClosed P) (s : State) :
    P s (bootOp s).1 :=
  andThen_rel (P := P) h.trans (ignoreBusFailure_rel (runTxs_closed h _ _ _)) fun _ =>
    andThen_rel (P := P) h.trans (ignoreBusFailure_rel (renderOp_closed h _ _ _ _)) fun _ =>
      ignoreBusFailure_rel (drawSlots_closed h _ _ _ _)

theorem BusOnly.closed : TxClosed BusOnly := ⟨BusOnly.refl, BusOnly.trans, State.busWrite_only⟩

/-! ### What every bus operation keeps -/

theorem State.busWrite_target (s : State) (k : Nat) (tx : Tx) :
    (s.busWrite k tx).1.target = s.target.deliver s.cfg s.env.busDraws tx.bytes ∨
    (∃ n, (s.busWrite k tx).1.target = s.target.deliverFailed s.cfg s.env.busDraws tx n) ∨
    (∃ n, (s.busWrite k tx).1.target
      = s.target.deliver s.cfg s.env.busDraws (tx.bytes.take n)) := by
  obtain ⟨-, h⟩ | ⟨n, -, h⟩ | ⟨n, -, h⟩ := s.busWrite_cases k tx <;> rw [h]
  · exact .inl rfl
  · exact .inr (.inl ⟨n, rfl⟩)
  · exact .inr (.inr ⟨n, rfl⟩)

/-- Display RAM keeps its form. -/
theorem ramOk_closed :
    TxClosed fun s t => t.cfg = s.cfg ∧ (s.target.ramOk s.cfg → t.target.ramOk s.cfg) where
  refl _ := ⟨rfl, id⟩
  trans := by
    rintro s t u ⟨h₁, h₂⟩ ⟨h₃, h₄⟩
    exact ⟨h₃.trans h₁, fun h => by have := h₄ (h₁ ▸ h₂ h); rwa [h₁] at this⟩
  write s k tx := by
    refine ⟨(s.busWrite_only k tx).cfg, fun h => ?_⟩
    obtain e | ⟨n, e⟩ | ⟨n, e⟩ := s.busWrite_target k tx <;> rw [e]
    · exact Target.deliver_ramOk _ _ h
    · exact Target.deliverFailed_ramOk _ _ _ h
    · exact Target.deliver_ramOk _ _ h

/-- A target that is no longer described stays so. -/
theorem lost_closed : TxClosed fun s t => s.target.lost ≠ none → t.target.lost ≠ none where
  refl _ := id
  trans h h' := h' ∘ h
  write s k tx h := by
    obtain e | ⟨n, e⟩ | ⟨n, e⟩ := s.busWrite_target k tx <;> rw [e]
    · exact Target.deliver_lost _ _ h
    · obtain ⟨-, e⟩ | ⟨-, e⟩ := Target.deliverFailed_cases s.cfg s.env.busDraws tx n s.target <;> rw [e]
      · exact h
      · exact Target.deliver_lost _ _ h
    · exact Target.deliver_lost _ _ h

/-! ### Hangs -/

/-- A call either hangs, with a transaction in flight, or leaves none of its own in flight. -/
def Settled (s : State) (r : State × Status) : Prop :=
  (r.2 = .noReturn ∧ r.1.inflight ≠ none) ∨ (r.2 ≠ .noReturn ∧ r.1.inflight = s.inflight)

theorem State.busWrite_settled (s : State) (k : Nat) (tx : Tx) : Settled s (s.busWrite k tx) := by
  obtain ⟨-, h⟩ | ⟨n, -, h⟩ | ⟨n, -, h⟩ := s.busWrite_cases k tx <;> rw [h]
  · exact .inr ⟨by simp, by simp⟩
  · exact .inr ⟨by simp, by simp⟩
  · exact .inl ⟨rfl, by simp⟩

theorem andThen_settled {s : State} {r : State × Status} {f : State → State × Status}
    (hr : Settled s r) (hf : ∀ t, Settled t (f t)) : Settled s (andThen r f) := by
  obtain ⟨h, e⟩ | ⟨-, e⟩ := andThen_cases r f <;> rw [e]
  · obtain ⟨h', -⟩ | ⟨-, hi⟩ := hr
    · rw [h] at h'; simp at h'
    · obtain h | h := hf r.1
      · exact .inl h
      · exact .inr ⟨h.1, h.2.trans hi⟩
  · exact hr

theorem runTxs_settled (txs : List Tx) (k : Nat) (s : State) : Settled s (runTxs k txs s) := by
  induction txs generalizing k s with
  | nil => exact .inr ⟨by simp [runTxs], rfl⟩
  | cons tx txs ih => exact andThen_settled (s.busWrite_settled k tx) fun t => ih _ t

theorem renderOp_settled (k : Nat) (buf : List Byte) (r : Rect) (s : State) :
    Settled s (renderOp k buf r s) := by
  obtain ⟨v, -, e⟩ | ⟨-, e⟩ := renderOp_cases k buf r s <;> rw [e]
  · exact .inr ⟨by simp, rfl⟩
  · exact runTxs_settled _ _ _

theorem drawSlots_settled (v n k : Nat) (s : State) : Settled s (drawSlots v n k s) := by
  induction k generalizing s with
  | zero => exact .inr ⟨by simp [drawSlots], rfl⟩
  | succ k ih => exact andThen_settled (renderOp_settled _ _ _ _) fun t => ih t

theorem ignoreBusFailure_settled {s : State} {r : State × Status} (h : Settled s r) :
    Settled s (ignoreBusFailure r) := by
  obtain ⟨t, st⟩ := r
  cases st <;> simp_all [Settled, ignoreBusFailure]

theorem bootOp_settled (s : State) : Settled s (bootOp s) :=
  andThen_settled (ignoreBusFailure_settled (runTxs_settled _ _ _)) fun _ =>
    andThen_settled (ignoreBusFailure_settled (renderOp_settled _ _ _ _)) fun _ =>
      ignoreBusFailure_settled (drawSlots_settled _ _ _ _)

/-! ### A well-formed configuration -/

/-- The constraints of a well-formed configuration, as propositions. -/
structure Cfg.Facts (c : Cfg) : Prop where
  widthLow : 1 ≤ c.width
  widthHigh : c.width ≤ 256
  pagesLow : 1 ≤ c.pages
  pagesHigh : c.pages ≤ 256
  heightLow : 1 ≤ c.height
  heightHigh : c.height ≤ 256
  glyphLow : 1 ≤ c.glyphW
  digitsFit : 3 * c.glyphW + 2 ≤ c.width
  digitPage : c.digitPage < c.pages
  pageHeight : c.pageHeight = 8
  bpmMin : c.bpmMin = 1
  bpmMax : c.bpmMax = 300
  usPerMin : c.usPerMin = 60000000
  btnDebounceUs : c.btnDebounceUs = 50000
  pulseUs : c.pulseUs = 50000
  pollDelayMs : c.pollDelayMs = 1
  digits : c.digits = 3
  glyphCount : c.glyphs.length = 11
  glyphLength : ∀ t ∈ c.glyphs, t.length = c.glyphW
  controlBytes : c.ctrlCmd ≠ c.ctrlData
  initialLow : 1 ≤ c.initialBpm
  initialHigh : c.initialBpm ≤ 300
  tsW : 27 ≤ c.tsW
  cntW : 2 ≤ c.cntW

theorem Cfg.facts {c : Cfg} (h : c.wf = true) : Cfg.Facts c := by
  simp only [Cfg.wf, Cfg.geometryOk, Cfg.sourceValuesOk, Cfg.glyphsOk, Bool.and_eq_true,
    decide_eq_true_eq, List.all_eq_true] at h
  obtain ⟨⟨w1, w2, h1, h2, hm, g1, g2, dp⟩, ⟨ph, bmin, bmax, us, btn, pu, pd, dg, ng⟩, gl, -, cc, ib1, ib2,
    ts, cn⟩ := h
  have hp : c.pages ≤ 256 := le_trans (Nat.div_le_self _ _) h2
  rw [dg] at g2
  exact { widthLow := w1, widthHigh := w2, pagesLow := by omega, pagesHigh := hp, heightLow := h1
          heightHigh := h2, glyphLow := g1, digitsFit := by omega, digitPage := dp, pageHeight := ph
          bpmMin := bmin, bpmMax := bmax, usPerMin := us, btnDebounceUs := btn, pulseUs := pu
          pollDelayMs := pd, digits := dg, glyphCount := gl.1.trans ng, glyphLength := gl.2
          controlBytes := cc, initialLow := bmin ▸ ib1, initialHigh := bmax ▸ ib2, tsW := ts
          cntW := cn }

/-- Every tile a slot shows has GLYPH_W bytes. -/
theorem Cfg.slotTile_length {c : Cfg} (h : Cfg.Facts c) (v k : Nat) :
    (c.slotTile v k).length = c.glyphW := by
  have glyph : ∀ i, i < 11 → (c.glyph i).length = c.glyphW := fun i hi => by
    have hi' : i < c.glyphs.length := by rw [h.glyphCount]; exact hi
    unfold Cfg.glyph
    rw [List.getD_eq_getElem _ _ hi']
    exact h.glyphLength _ (List.getElem_mem hi')
  unfold Cfg.slotTile
  split
  · exact glyph 10 (by decide)
  · exact glyph _ (lt_trans (Nat.mod_lt _ (by decide)) (by decide))

/-- A slot that lies in the display passes render's checks (R153). -/
theorem Cfg.renderCheck_slot {c : Cfg} (h : Cfg.Facts c) (v k i : Nat)
    (hi : i * c.glyphW + i + c.glyphW ≤ c.width) :
    c.renderCheck (c.slotRect i) (c.slotTile v k).length = none := by
  have hg := h.glyphLow
  have hp := h.digitPage
  rw [Cfg.slotTile_length h]
  have h1 : (c.slotRect i).valid = true := by
    simp only [Cfg.slotRect, Rect.valid, le_refl, decide_true, Bool.and_true]; exact decide_eq_true (by omega)
  have h2 : c.inDisplay (c.slotRect i) = true := by
    simp only [Cfg.slotRect, Cfg.inDisplay, Bool.and_eq_true]
    exact ⟨decide_eq_true (by omega), decide_eq_true (by omega)⟩
  have h3 : c.glyphW = (c.slotRect i).bufferLength := by
    simp only [Cfg.slotRect, Rect.bufferLength, Rect.ncols, Rect.npages, Nat.sub_self, Nat.zero_add,
      Nat.mul_one]
    omega
  simp [Cfg.renderCheck, h1, h2, ← h3]

/-- clear passes render's checks (R140). -/
theorem Cfg.renderCheck_full {c : Cfg} (h : Cfg.Facts c) :
    c.renderCheck c.fullRect (List.replicate c.totalBufLen (0 : Byte)).length = none := by
  have hw := h.widthLow
  have hp := h.pagesLow
  have h3 : c.totalBufLen = c.fullRect.bufferLength := by
    simp only [Cfg.fullRect, Rect.bufferLength, Rect.ncols, Rect.npages, Cfg.totalBufLen, Nat.sub_zero]
    rw [Nat.sub_add_cancel hw, Nat.sub_add_cancel hp, Nat.mul_comm]
  have h1 : c.fullRect.valid = true := by simp [Cfg.fullRect, Rect.valid]
  have h2 : c.inDisplay c.fullRect = true := by simp [Cfg.fullRect, Cfg.inDisplay]
  simp [Cfg.renderCheck, h1, h2, ← h3]

/-- The slot `i` of `n` lies in the display when the whole field does. -/
theorem Cfg.slot_fits {c : Cfg} {n i : Nat} (hn : n * c.glyphW + (n - 1) ≤ c.width) (hi : i < n) :
    i * c.glyphW + i + c.glyphW ≤ c.width := by
  have : (i + 1) * c.glyphW ≤ n * c.glyphW := Nat.mul_le_mul_right _ hi
  rw [Nat.add_mul] at this
  omega

/-- A relation that bus operations have keeps the configuration. -/
theorem drawSlots_cfg (v n k : Nat) (s : State) : (drawSlots v n k s).1.cfg = s.cfg :=
  (drawSlots_closed BusOnly.closed v n k s).cfg

/-- The sequencer's own calls raise no ContractViolation (R212). -/
theorem renderOp_no_violation {k : Nat} {buf : List Byte} {r : Rect} {s : State}
    (h : s.cfg.renderCheck r buf.length = none) (v : Violation) :
    (renderOp k buf r s).2 ≠ .contractViolation v := by
  obtain ⟨w, hw, -⟩ | ⟨-, e⟩ := renderOp_cases k buf r s
  · rw [h] at hw; simp at hw
  · rw [e]; exact runTxs_no_violation _ _ _ v

theorem andThen_no_violation {r : State × Status} {f : State → State × Status} {v : Violation}
    (hr : r.2 ≠ .contractViolation v) (hf : (f r.1).2 ≠ .contractViolation v) :
    (andThen r f).2 ≠ .contractViolation v := by
  obtain ⟨-, e⟩ | ⟨-, e⟩ := andThen_cases r f <;> rw [e] <;> assumption

theorem drawSlots_no_violation {v n k : Nat} {s : State} (h : Cfg.Facts s.cfg)
    (hn : n * s.cfg.glyphW + (n - 1) ≤ s.cfg.width) (hk : k ≤ n) (w : Violation) :
    (drawSlots v n k s).2 ≠ .contractViolation w := by
  induction k generalizing s with
  | zero => simp [drawSlots]
  | succ k ih =>
    have hc := (renderOp_closed BusOnly.closed (7 * (n - (k + 1))) (s.cfg.slotTile v k)
      (s.cfg.slotRect (n - (k + 1))) s).cfg
    refine andThen_no_violation (renderOp_no_violation
      (Cfg.renderCheck_slot h v k _ (Cfg.slot_fits hn (by omega))) w) ?_
    exact ih (by rw [hc]; exact h) (by rw [hc]; exact hn) (by omega)

theorem clearOp_no_violation {s : State} (h : Cfg.Facts s.cfg) (w : Violation) :
    (clearOp s).2 ≠ .contractViolation w :=
  renderOp_no_violation (Cfg.renderCheck_full h) w

theorem ignoreBusFailure_no_violation {r : State × Status} {v : Violation}
    (h : r.2 ≠ .contractViolation v) : (ignoreBusFailure r).2 ≠ .contractViolation v := by
  obtain ⟨s, st⟩ := r
  cases st <;> simp_all [ignoreBusFailure]

theorem drawNumberOp_no_violation {v : Nat} {s : State} (h : Cfg.Facts s.cfg) (w : Violation) :
    (drawNumberOp v s.cfg.digits s).2 ≠ .contractViolation w := by
  unfold drawNumberOp
  refine drawSlots_no_violation h ?_ le_rfl w
  have := h.digitsFit
  rw [h.digits]; omega

theorem bootOp_no_violation {s : State} (h : Cfg.Facts s.cfg) (w : Violation) :
    (bootOp s).2 ≠ .contractViolation w := by
  have h₁ : (ignoreBusFailure (initOp s)).1.cfg = s.cfg := by
    rw [ignoreBusFailure_state]; exact (runTxs_closed BusOnly.closed _ _ _).cfg
  have h₂ : ∀ t : State, (ignoreBusFailure (clearOp t)).1.cfg = t.cfg := fun t => by
    rw [ignoreBusFailure_state]; exact (renderOp_closed BusOnly.closed _ _ _ _).cfg
  refine andThen_no_violation (ignoreBusFailure_no_violation (runTxs_no_violation _ _ _ w)) ?_
  refine andThen_no_violation (ignoreBusFailure_no_violation
    (clearOp_no_violation (by rw [h₁]; exact h) w)) ?_
  exact ignoreBusFailure_no_violation (drawNumberOp_no_violation (by rw [h₂, h₁]; exact h) w)

end Sys2Proof.Machine
end

