-- ==== Sys2Proof/Laws/Beat.lean ====
section
/-! SUPPORT. Laws of the encoder, of the four steps of a tick, and of the sequencer's step: what each can do, said once, so
that no proof unfolds them. -/

namespace Sys2Proof.Machine

/-! ### Numbers that wrap -/

/-- Elapsed time is the difference modulo 2^w (R76). -/
theorem elapsed_eq (w later earlier : Nat) :
    (elapsed w later earlier : Int) = ((later : Int) - earlier) % (2 ^ w : Nat) := by
  have h : earlier % 2 ^ w ≤ 2 ^ w := (Nat.mod_lt _ (Nat.two_pow_pos w)).le
  unfold elapsed
  rw [Int.natCast_mod, Nat.cast_add, Nat.cast_sub h, Int.natCast_mod]
  rw [show (later : Int) + (((2 ^ w : Nat) : Int) - (earlier : Int) % ((2 ^ w : Nat) : Int))
      = (later - (earlier : Int) % ((2 ^ w : Nat) : Int)) + ((2 ^ w : Nat) : Int) by ring,
    Int.add_emod_right, Int.sub_emod, Int.emod_emod, ← Int.sub_emod]

/-- A wrapped number is congruent to what was wrapped. -/
theorem wrapSigned_emod (w : Nat) (x : Int) :
    (wrapSigned w x - x) % (2 ^ w : Nat) = 0 := by
  unfold wrapSigned
  rw [Int.sub_emod, Int.bmod_emod, Int.sub_self, Int.zero_emod]

/-- A wrapped number is a CNT_W-bit signed number. -/
theorem wrapSigned_range {c : Cfg} (hw : 2 ≤ c.cntW) (x : Int) :
    inCounterRange c (wrapSigned c.cntW x) := by
  obtain ⟨k, hk⟩ : ∃ k, c.cntW = k + 1 := ⟨c.cntW - 1, by omega⟩
  unfold inCounterRange wrapSigned
  rw [hk, Nat.add_sub_cancel, pow_succ]
  have hp : (0 : Nat) < 2 ^ k := Nat.two_pow_pos k
  have h₁ := @Int.le_bmod x (2 ^ k * 2) (by omega)
  have h₂ := @Int.bmod_lt x (2 ^ k * 2) (by omega)
  omega

/-- In the counter's range a number is fixed by its residue. -/
theorem wrapSigned_unique {c : Cfg} (hw : 2 ≤ c.cntW) {x y : Int} (hx : inCounterRange c x)
    (h : (x - y) % (2 ^ c.cntW : Nat) = 0) : wrapSigned c.cntW y = x := by
  have hy := wrapSigned_range hw y
  have hm := wrapSigned_emod c.cntW y
  obtain ⟨k, hk⟩ : ∃ k, c.cntW = k + 1 := ⟨c.cntW - 1, by omega⟩
  unfold inCounterRange at hx hy
  simp only [hk, Nat.add_sub_cancel] at hx hy h hm ⊢
  have hp : (0 : Int) < (2 ^ k : Nat) := by exact_mod_cast Nat.two_pow_pos k
  obtain ⟨a, ha⟩ := Int.dvd_of_emod_eq_zero h
  obtain ⟨b, hb⟩ := Int.dvd_of_emod_eq_zero hm
  have hpow : ((2 ^ (k + 1) : Nat) : Int) = 2 * (2 ^ k : Nat) := by rw [pow_succ]; push_cast; ring
  rw [hpow] at ha hb
  have e : wrapSigned (k + 1) y - x = 2 * (2 ^ k : Nat) * (b - a) := by linear_combination hb - ha
  have : b - a = 0 := by
    by_contra hne
    rcases lt_or_gt_of_ne hne with hl | hl
    · have : 2 * ((2 ^ k : Nat) : Int) * (b - a) ≤ 2 * ((2 ^ k : Nat) : Int) * (-1) :=
        mul_le_mul_of_nonneg_left (by omega) (by omega)
      omega
    · have : 2 * ((2 ^ k : Nat) : Int) * 1 ≤ 2 * ((2 ^ k : Nat) : Int) * (b - a) :=
        mul_le_mul_of_nonneg_left (by omega) (by omega)
      omega
  rw [this, mul_zero] at e
  omega

theorem wrapSigned_zero (w : Nat) : wrapSigned w 0 = 0 := by simp [wrapSigned]

/-! ### poll -/

/-- The clock value a poll reads. -/
def State.pollTime (s : State) : Nat := (s.clock + s.env.takeAdvance.1) % 2 ^ s.cfg.tsW

theorem Env.takePins_takeAdvance (e : Env) :
    e.takePins.2.takeAdvance.1 = e.takeAdvance.1 :=
  (Env.takeAdvance_congr (e.takePins_advances) (e.takePins_clockDraws)).1

theorem State.samplePins_now_fst (s : State) : s.samplePins.2.now.1 = s.pollTime := by
  show (s.clock + s.env.takePins.2.takeAdvance.1) % _ = _
  rw [Env.takePins_takeAdvance]; rfl

theorem pollOp_press (s : State) :
    (pollOp s).1
      = pressed s.cfg s.env.takePins.1.btn s.pollTime s.enc.lastButtonPressTimestamp := by
  rw [← State.samplePins_now_fst]; rfl

theorem pollOp_enc (s : State) :
    (pollOp s).2.enc
      = Encoder.button s.env.takePins.1 s.pollTime
          (Encoder.quadrature s.cfg s.env.takePins.1 s.enc) := by
  rw [← State.samplePins_now_fst]; rfl

@[simp] theorem pollOp_cfg (s : State) : (pollOp s).2.cfg = s.cfg := rfl
@[simp] theorem pollOp_met (s : State) : (pollOp s).2.met = s.met := rfl
@[simp] theorem pollOp_prevCounter (s : State) : (pollOp s).2.prevCounter = s.prevCounter := rfl
@[simp] theorem pollOp_pos (s : State) : (pollOp s).2.pos = s.pos := rfl
@[simp] theorem pollOp_out (s : State) : (pollOp s).2.out = s.out := rfl
@[simp] theorem pollOp_target (s : State) : (pollOp s).2.target = s.target := rfl
@[simp] theorem pollOp_events (s : State) : (pollOp s).2.events = s.events := rfl
@[simp] theorem pollOp_inflight (s : State) : (pollOp s).2.inflight = s.inflight := rfl
@[simp] theorem pollOp_prog (s : State) : (pollOp s).2.prog = s.prog := rfl
@[simp] theorem pollOp_ret (s : State) : (pollOp s).2.ret = s.ret := rfl
theorem pollOp_env (s : State) : (pollOp s).2.env = s.env.takePins.2.takeAdvance.2 := rfl
@[simp] theorem pollOp_env_bus (s : State) : (pollOp s).2.env.bus = s.env.bus := by simp [pollOp_env]
@[simp] theorem pollOp_env_busDraws (s : State) :
    (pollOp s).2.env.busDraws = s.env.busDraws := by simp [pollOp_env]
theorem pollOp_clock (s : State) :
    (pollOp s).2.clock = s.clock + s.env.takeAdvance.1 + 1000 * s.cfg.pollDelayMs := by
  show s.clock + s.env.takePins.2.takeAdvance.1 + _ = _
  rw [Env.takePins_takeAdvance]

theorem Level.ne_high_iff (l : Level) : l ≠ .high ↔ l = .low := by cases l <;> decide

theorem detent_iff (last clk : Level) : detent last clk = true ↔ last = .low ∧ clk = .high := by
  cases last <;> cases clk <;> decide

@[simp] theorem Encoder.button_counter (p : PinSample) (n : Nat) (e : Encoder) :
    (Encoder.button p n e).counter = e.counter := by unfold Encoder.button; split <;> rfl
@[simp] theorem Encoder.button_lastClkLevel (p : PinSample) (n : Nat) (e : Encoder) :
    (Encoder.button p n e).lastClkLevel = e.lastClkLevel := by unfold Encoder.button; split <;> rfl
@[simp] theorem Encoder.button_lastDirection (p : PinSample) (n : Nat) (e : Encoder) :
    (Encoder.button p n e).lastDirection = e.lastDirection := by
  unfold Encoder.button; split <;> rfl
@[simp] theorem Encoder.quadrature_time (c : Cfg) (p : PinSample) (e : Encoder) :
    (Encoder.quadrature c p e).lastButtonPressTimestamp = e.lastButtonPressTimestamp := by
  unfold Encoder.quadrature; split <;> rfl
@[simp] theorem Encoder.quadrature_lastClkLevel (c : Cfg) (p : PinSample) (e : Encoder) :
    (Encoder.quadrature c p e).lastClkLevel = p.clk := by
  unfold Encoder.quadrature; split <;> rfl

/-- What the quadrature part can be: a detent, or nothing but the level. -/
theorem Encoder.quadrature_cases (c : Cfg) (p : PinSample) (e : Encoder) :
    (e.lastClkLevel = .low ∧ p.clk = .high ∧
      Encoder.quadrature c p e = { e with
        counter := wrapSigned c.cntW (e.counter + if p.data = .low then 1 else -1)
        lastDirection := if p.data = .low then .cw else .ccw
        lastClkLevel := .high }) ∨
    (¬ (e.lastClkLevel = .low ∧ p.clk = .high) ∧
      Encoder.quadrature c p e = { e with lastClkLevel := p.clk }) := by
  unfold Encoder.quadrature
  by_cases h : e.lastClkLevel = .low ∧ p.clk = .high
  · rw [if_pos ((detent_iff _ _).2 h)]
    obtain ⟨h₁, h₂⟩ := h
    refine .inl ⟨h₁, h₂, ?_⟩
    rw [h₂]
    cases p.data <;> rfl
  · rw [if_neg (by rw [detent_iff]; exact h)]
    exact .inr ⟨h, rfl⟩

/-! ### The steps of a tick -/

/-- Step 1 is a poll, and MET.enabled flipped by a press (R183). -/
theorem tickStep1_eq (s : State) :
    tickStep1 s = { (pollOp s).2 with
      met := { s.met with enabled := if (pollOp s).1 then !s.met.enabled else s.met.enabled } } := by
  unfold tickStep1
  cases h : (pollOp s).1 with
  | true => simp [h]
  | false => simp only [h]; rfl

/-- Step 2 without a change of the counter. -/
theorem tickStep2_still {s : State} (h : tempoDelta s.cfg s.enc.counter s.prevCounter = 0) :
    tickStep2 s = ({ s with prevCounter := s.enc.counter }, .ok) := by
  simp [tickStep2, h]

/-- The state step 2 refreshes the display in. -/
def State.retempoed (s : State) (delta : Int) : State :=
  { s with prevCounter := s.enc.counter, met := s.met.retempo s.cfg delta }

/-- Step 2 with a change. -/
theorem tickStep2_moved {s : State} (h : tempoDelta s.cfg s.enc.counter s.prevCounter ≠ 0) :
    tickStep2 s = drawNumberOp
      (s.met.bpmAfter s.cfg (tempoDelta s.cfg s.enc.counter s.prevCounter)).toNat s.cfg.digits
      (s.retempoed (tempoDelta s.cfg s.enc.counter s.prevCounter)) := by
  simp [tickStep2, h, State.retempoed]

/-- What step 2 keeps and sets, whatever the bus answers. -/
structure Seen (s : State) (m : Metronome) (t : State) : Prop where
  cfg : t.cfg = s.cfg
  enc : t.enc = s.enc
  met : t.met = m
  prevCounter : t.prevCounter = s.enc.counter
  pos : t.pos = s.pos
  out : t.out = s.out
  clock : t.clock = s.clock
  prog : t.prog = s.prog
  ret : t.ret = s.ret
  pins : t.env.pins = s.env.pins
  advances : t.env.advances = s.env.advances
  pinDraws : t.env.pinDraws = s.env.pinDraws
  clockDraws : t.env.clockDraws = s.env.clockDraws

/-- MET after step 2. -/
def State.metAfterStep2 (s : State) : Metronome :=
  if tempoDelta s.cfg s.enc.counter s.prevCounter = 0 then s.met
  else s.met.retempo s.cfg (tempoDelta s.cfg s.enc.counter s.prevCounter)

theorem tickStep2_seen (s : State) : Seen s s.metAfterStep2 (tickStep2 s).1 := by
  unfold State.metAfterStep2
  by_cases h : tempoDelta s.cfg s.enc.counter s.prevCounter = 0
  · rw [if_pos h, tickStep2_still h]
    exact ⟨rfl, rfl, rfl, rfl, rfl, rfl, rfl, rfl, rfl, rfl, rfl, rfl, rfl⟩
  · rw [if_neg h, tickStep2_moved h]
    have b := drawSlots_closed BusOnly.closed
      (s.met.bpmAfter s.cfg (tempoDelta s.cfg s.enc.counter s.prevCounter)).toNat s.cfg.digits
      s.cfg.digits (s.retempoed (tempoDelta s.cfg s.enc.counter s.prevCounter))
    exact ⟨b.cfg, b.enc, b.met, b.prevCounter, b.pos, b.out, b.clock, b.prog, b.ret, b.pins,
      b.advances, b.pinDraws, b.clockDraws⟩

theorem tickStep2_settled (s : State) : Settled s (tickStep2 s) := by
  by_cases h : tempoDelta s.cfg s.enc.counter s.prevCounter = 0
  · rw [tickStep2_still h]; exact .inr ⟨by simp, rfl⟩
  · rw [tickStep2_moved h]; exact drawSlots_settled _ _ _ _

theorem tickStep2_no_violation {s : State} (h : Cfg.Facts s.cfg) (v : Violation) :
    (tickStep2 s).2 ≠ .contractViolation v := by
  by_cases hd : tempoDelta s.cfg s.enc.counter s.prevCounter = 0
  · rw [tickStep2_still hd]; simp
  · rw [tickStep2_moved hd]
    exact drawNumberOp_no_violation
      (s := s.retempoed (tempoDelta s.cfg s.enc.counter s.prevCounter)) h v

/-- Step 3: a beat, or nothing but the clock read (R187). -/
theorem tickStep3_cases (s : State) :
    (beatDue s.cfg s.met s.now.1 = true ∧
      tickStep3 s = State.writeOutputs
        { s.now.2 with met := { s.met with pulseActive := true, lastBeatTimestamp := s.now.1 } }
        .high) ∨
    (beatDue s.cfg s.met s.now.1 = false ∧ tickStep3 s = s.now.2) := by
  cases h : beatDue s.cfg s.met s.now.1
  · exact .inr ⟨rfl, if_neg (by rw [h]; decide)⟩
  · exact .inl ⟨rfl, if_pos h⟩

/-- Step 4: the end of the pulse, or nothing but the clock read (R188). -/
theorem tickStep4_cases (s : State) :
    (pulseOver s.cfg s.met s.now.1 = true ∧
      tickStep4 s
        = State.writeOutputs { s.now.2 with met := { s.met with pulseActive := false } } .low) ∨
    (pulseOver s.cfg s.met s.now.1 = false ∧ tickStep4 s = s.now.2) := by
  cases h : pulseOver s.cfg s.met s.now.1
  · exact .inr ⟨rfl, if_neg (by rw [h]; decide)⟩
  · exact .inl ⟨rfl, if_pos h⟩

/-! ### tick -/

/-- A tick as far as its step 2. -/
def State.tickHalf (s : State) : State := seqS2 (seqS1 { s with pos := .s1 })

/-- A tick: its first half, and the second where the first came to its end. -/
theorem tickOp_cases (s : State) :
    (s.tickHalf.pos = .s3 ∧ tickOp s = seqS4 (seqS3 s.tickHalf)) ∨
    (s.tickHalf.pos ≠ .s3 ∧ tickOp s = s.tickHalf) := by
  unfold tickOp State.tickHalf
  by_cases h : (seqS2 (seqS1 { s with pos := .s1 })).pos = .s3
  · exact .inl ⟨h, by simp [h]⟩
  · exact .inr ⟨h, by simp [h]⟩

@[simp] theorem seqS4_pos (s : State) : (seqS4 s).pos = .s1 := rfl
@[simp] theorem seqS3_pos (s : State) : (seqS3 s).pos = .s4 := rfl
@[simp] theorem seqS1_pos (s : State) : (seqS1 s).pos = .s2 := rfl

end Sys2Proof.Machine
end

