-- ==== Sys2Proof/Laws/PerInstr.lean ====
section
/-! SUPPORT. PerInstr: statements about every instruction, one lemma for each constructor. TableHead: an instruction's
encoding begins with the bits of its row of the opcode table (30_encoding.md R98, R95). -/

namespace Sys2Proof.Laws.TableHead

/-- The bits of an instruction's row, as bytes: the label op[3:0] of R98, or the two bytes of a CMD word of R95. -/
def row : Instr → List Byte
  | .computeBufferLength _ => [0x00]
  | .sendCommand _ => [0x01]
  | .sendPixelBuffer _ => [0x02]
  | .init => [0x03]
  | .render _ _ => [0x04]
  | .clear => [0x05]
  | .drawNumber _ _ => [0x06]
  | .poll => [0x07]
  | .tick => [0x08]
  | .dispOff => [0x80, 0xAE]
  | .memMode _ => [0x80, 0x20]
  | .startLine => [0x80, 0x40]
  | .segRemap => [0x80, 0xA1]
  | .comDir => [0x80, 0xC8]
  | .muxRatio _ => [0x80, 0xA8]
  | .dispOffset _ => [0x80, 0xD3]
  | .comPins _ => [0x80, 0xDA]
  | .clkDiv _ => [0x80, 0xD5]
  | .precharge _ => [0x80, 0xD9]
  | .vcomh _ => [0x80, 0xDB]
  | .contrast _ => [0x80, 0x81]
  | .entireOnRam => [0x80, 0xA4]
  | .normal => [0x80, 0xA6]
  | .chargePump _ => [0x80, 0x8D]
  | .scrollOff => [0x80, 0x2E]
  | .dispOn => [0x80, 0xAF]
  | .colAddr _ _ => [0x80, 0x21]
  | .pageAddr _ _ => [0x80, 0x22]

/-- The encoding of an instruction begins with its row's bits; its operands follow. -/
def Statement (i : Instr) : Prop := ∃ operands : List Byte, encode i = row i ++ operands

theorem computeBufferLength (area : Area) : Statement (.computeBufferLength area) := ⟨_, rfl⟩
theorem sendCommand (b : Byte) : Statement (.sendCommand b) := ⟨_, rfl⟩
theorem sendPixelBuffer (buf : List Byte) : Statement (.sendPixelBuffer buf) := ⟨_, rfl⟩
theorem init : Statement .init := ⟨_, rfl⟩
theorem render (buf : List Byte) (area : Area) : Statement (.render buf area) := ⟨_, rfl⟩
theorem clear : Statement .clear := ⟨_, rfl⟩
theorem drawNumber (v : Int) (n : Nat) : Statement (.drawNumber v n) := ⟨_, rfl⟩
theorem poll : Statement .poll := ⟨_, rfl⟩
theorem tick : Statement .tick := ⟨_, rfl⟩
theorem dispOff : Statement .dispOff := ⟨_, rfl⟩
theorem memMode (p : Byte) : Statement (.memMode p) := ⟨_, rfl⟩
theorem startLine : Statement .startLine := ⟨_, rfl⟩
theorem segRemap : Statement .segRemap := ⟨_, rfl⟩
theorem comDir : Statement .comDir := ⟨_, rfl⟩
theorem muxRatio (p : Byte) : Statement (.muxRatio p) := ⟨_, rfl⟩
theorem dispOffset (p : Byte) : Statement (.dispOffset p) := ⟨_, rfl⟩
theorem comPins (p : Byte) : Statement (.comPins p) := ⟨_, rfl⟩
theorem clkDiv (p : Byte) : Statement (.clkDiv p) := ⟨_, rfl⟩
theorem precharge (p : Byte) : Statement (.precharge p) := ⟨_, rfl⟩
theorem vcomh (p : Byte) : Statement (.vcomh p) := ⟨_, rfl⟩
theorem contrast (p : Byte) : Statement (.contrast p) := ⟨_, rfl⟩
theorem entireOnRam : Statement .entireOnRam := ⟨_, rfl⟩
theorem normal : Statement .normal := ⟨_, rfl⟩
theorem chargePump (p : Byte) : Statement (.chargePump p) := ⟨_, rfl⟩
theorem scrollOff : Statement .scrollOff := ⟨_, rfl⟩
theorem dispOn : Statement .dispOn := ⟨_, rfl⟩
theorem colAddr (a b : Byte) : Statement (.colAddr a b) := ⟨_, rfl⟩
theorem pageAddr (a b : Byte) : Statement (.pageAddr a b) := ⟨_, rfl⟩

end Sys2Proof.Laws.TableHead
end

