-- ==== Sys2Proof/Laws/Step.lean ====
section
/-! SUPPORT. Laws of exec and of the machine's step: the shape every bus operation's meaning has, and what a step can be. -/

namespace Sys2Proof.Machine

/-! ### The meanings that use the bus -/

/-- A call made of transactions. -/
structure BusCall (s : State) (r : State × Status) : Prop where
  closed : ∀ {P : State → State → Prop}, TxClosed P → P s r.1
  settled : Settled s r

theorem BusCall.only {s : State} {r : State × Status} (h : BusCall s r) : BusOnly s r.1 :=
  h.closed BusOnly.closed

theorem runTxs_call (k : Nat) (txs : List Tx) (s : State) : BusCall s (runTxs k txs s) :=
  ⟨fun h => runTxs_closed h _ _ _, runTxs_settled _ _ _⟩

theorem busWrite_call (s : State) (k : Nat) (tx : Tx) : BusCall s (s.busWrite k tx) :=
  ⟨fun h => h.write _ _ _, s.busWrite_settled k tx⟩

theorem renderOp_call (k : Nat) (buf : List Byte) (r : Rect) (s : State) :
    BusCall s (renderOp k buf r s) :=
  ⟨fun h => renderOp_closed h _ _ _ _, renderOp_settled _ _ _ _⟩

theorem drawNumberOp_call (v n : Nat) (s : State) : BusCall s (drawNumberOp v n s) :=
  ⟨fun h => drawSlots_closed h _ _ _ _, drawSlots_settled _ _ _ _⟩

theorem bootOp_call (s : State) : BusCall s (bootOp s) :=
  ⟨fun h => bootOp_closed h s, bootOp_settled s⟩

/-- Every instruction that uses only the bus is one bus call, or refused for a negative number. -/
theorem exec_busCall {i : Instr} (h : usesBusOnly i = true) (s : State) :
    (∃ r, BusCall s r ∧ exec i s = .next (State.leave r)) ∨ exec i s = .refused .negativeValue := by
  cases i with
  | computeBufferLength a => simp [usesBusOnly] at h
  | poll => simp [usesBusOnly] at h
  | tick => simp [usesBusOnly] at h
  | sendCommand b => exact .inl ⟨_, busWrite_call _ _ _, rfl⟩
  | sendPixelBuffer b => exact .inl ⟨_, busWrite_call _ _ _, rfl⟩
  | render buf a => exact .inl ⟨_, renderOp_call _ _ _ _, rfl⟩
  | clear => exact .inl ⟨_, renderOp_call _ _ _ _, rfl⟩
  | drawNumber v n =>
    by_cases hv : v < 0
    · exact .inr (if_pos hv)
    · exact .inl ⟨_, drawNumberOp_call _ _ _, if_neg hv⟩
  | init => exact .inl ⟨_, runTxs_call _ _ _, rfl⟩
  | dispOff => exact .inl ⟨_, runTxs_call _ _ _, rfl⟩
  | memMode p => exact .inl ⟨_, runTxs_call _ _ _, rfl⟩
  | startLine => exact .inl ⟨_, runTxs_call _ _ _, rfl⟩
  | segRemap => exact .inl ⟨_, runTxs_call _ _ _, rfl⟩
  | comDir => exact .inl ⟨_, runTxs_call _ _ _, rfl⟩
  | muxRatio p => exact .inl ⟨_, runTxs_call _ _ _, rfl⟩
  | dispOffset p => exact .inl ⟨_, runTxs_call _ _ _, rfl⟩
  | comPins p => exact .inl ⟨_, runTxs_call _ _ _, rfl⟩
  | clkDiv p => exact .inl ⟨_, runTxs_call _ _ _, rfl⟩
  | precharge p => exact .inl ⟨_, runTxs_call _ _ _, rfl⟩
  | vcomh p => exact .inl ⟨_, runTxs_call _ _ _, rfl⟩
  | contrast p => exact .inl ⟨_, runTxs_call _ _ _, rfl⟩
  | entireOnRam => exact .inl ⟨_, runTxs_call _ _ _, rfl⟩
  | normal => exact .inl ⟨_, runTxs_call _ _ _, rfl⟩
  | chargePump p => exact .inl ⟨_, runTxs_call _ _ _, rfl⟩
  | scrollOff => exact .inl ⟨_, runTxs_call _ _ _, rfl⟩
  | dispOn => exact .inl ⟨_, runTxs_call _ _ _, rfl⟩
  | colAddr a b => exact .inl ⟨_, runTxs_call _ _ _, rfl⟩
  | pageAddr a b => exact .inl ⟨_, runTxs_call _ _ _, rfl⟩

/-! ### Fields a call's end keeps -/

@[simp] theorem State.leave_cfg (r : State × Status) : (State.leave r).cfg = r.1.cfg := by
  obtain ⟨s, st⟩ := r; cases st <;> rfl
@[simp] theorem State.leave_enc (r : State × Status) : (State.leave r).enc = r.1.enc := by
  obtain ⟨s, st⟩ := r; cases st <;> rfl
@[simp] theorem State.leave_met (r : State × Status) : (State.leave r).met = r.1.met := by
  obtain ⟨s, st⟩ := r; cases st <;> rfl
@[simp] theorem State.leave_prevCounter (r : State × Status) :
    (State.leave r).prevCounter = r.1.prevCounter := by
  obtain ⟨s, st⟩ := r; cases st <;> rfl
@[simp] theorem State.leave_out (r : State × Status) : (State.leave r).out = r.1.out := by
  obtain ⟨s, st⟩ := r; cases st <;> rfl
@[simp] theorem State.leave_target (r : State × Status) : (State.leave r).target = r.1.target := by
  obtain ⟨s, st⟩ := r; cases st <;> rfl
@[simp] theorem State.leave_events (r : State × Status) : (State.leave r).events = r.1.events := by
  obtain ⟨s, st⟩ := r; cases st <;> rfl
@[simp] theorem State.leave_inflight (r : State × Status) :
    (State.leave r).inflight = r.1.inflight := by
  obtain ⟨s, st⟩ := r; cases st <;> rfl
@[simp] theorem State.leave_clock (r : State × Status) : (State.leave r).clock = r.1.clock := by
  obtain ⟨s, st⟩ := r; cases st <;> rfl
@[simp] theorem State.leave_env (r : State × Status) : (State.leave r).env = r.1.env := by
  obtain ⟨s, st⟩ := r; cases st <;> rfl
@[simp] theorem State.leave_prog (r : State × Status) : (State.leave r).prog = r.1.prog := by
  obtain ⟨s, st⟩ := r; cases st <;> rfl

@[simp] theorem State.proceed_cfg (p : SeqPos) (r : State × Status) :
    (State.proceed p r).cfg = r.1.cfg := by obtain ⟨s, st⟩ := r; cases st <;> rfl
@[simp] theorem State.proceed_enc (p : SeqPos) (r : State × Status) :
    (State.proceed p r).enc = r.1.enc := by obtain ⟨s, st⟩ := r; cases st <;> rfl
@[simp] theorem State.proceed_met (p : SeqPos) (r : State × Status) :
    (State.proceed p r).met = r.1.met := by obtain ⟨s, st⟩ := r; cases st <;> rfl
@[simp] theorem State.proceed_prevCounter (p : SeqPos) (r : State × Status) :
    (State.proceed p r).prevCounter = r.1.prevCounter := by obtain ⟨s, st⟩ := r; cases st <;> rfl
@[simp] theorem State.proceed_out (p : SeqPos) (r : State × Status) :
    (State.proceed p r).out = r.1.out := by obtain ⟨s, st⟩ := r; cases st <;> rfl
@[simp] theorem State.proceed_target (p : SeqPos) (r : State × Status) :
    (State.proceed p r).target = r.1.target := by obtain ⟨s, st⟩ := r; cases st <;> rfl
@[simp] theorem State.proceed_events (p : SeqPos) (r : State × Status) :
    (State.proceed p r).events = r.1.events := by obtain ⟨s, st⟩ := r; cases st <;> rfl
@[simp] theorem State.proceed_inflight (p : SeqPos) (r : State × Status) :
    (State.proceed p r).inflight = r.1.inflight := by obtain ⟨s, st⟩ := r; cases st <;> rfl
@[simp] theorem State.proceed_clock (p : SeqPos) (r : State × Status) :
    (State.proceed p r).clock = r.1.clock := by obtain ⟨s, st⟩ := r; cases st <;> rfl
@[simp] theorem State.proceed_env (p : SeqPos) (r : State × Status) :
    (State.proceed p r).env = r.1.env := by obtain ⟨s, st⟩ := r; cases st <;> rfl
@[simp] theorem State.proceed_prog (p : SeqPos) (r : State × Status) :
    (State.proceed p r).prog = r.1.prog := by obtain ⟨s, st⟩ := r; cases st <;> rfl

/-- Where a call of the sequencer that cannot fault ends: at the next position unless it hangs. -/
theorem State.proceed_pos {p : SeqPos} {s : State} {r : State × Status}
    (hv : ∀ v, r.2 ≠ .contractViolation v) (hs : Settled s r) (hp : r.1.pos = s.pos) :
    ((State.proceed p r).pos = p ∧ r.1.inflight = s.inflight) ∨
      ((State.proceed p r).pos = s.pos ∧ r.1.inflight ≠ none) := by
  obtain ⟨h, e⟩ | ⟨v, h, -⟩ | ⟨h, e⟩ := State.proceed_cases p r
  · rw [e]
    refine .inl ⟨rfl, ?_⟩
    obtain ⟨h', -⟩ | ⟨-, h'⟩ := hs
    · rw [h'] at h; simp at h
    · exact h'
  · exact absurd h (hv v)
  · rw [e]
    obtain ⟨-, h'⟩ | ⟨h', -⟩ := hs
    · exact .inr ⟨hp, h'⟩
    · exact absurd h h'

/-! ### The step -/

theorem State.runnable_iff (s : State) :
    s.runnable = true ↔ s.cfg.wf = true ∧ s.inflight = none ∧ s.pos ≠ .fault := by
  simp [State.runnable, and_assoc]

/-- What a step can be. -/
theorem step_cases (s : State) :
    (s.cfg.wf = false ∧ step s = .refused .illFormedConfig) ∨
    (s.cfg.wf = true ∧ s.inflight ≠ none ∧ step s = .fault .busStalled) ∨
    (s.cfg.wf = true ∧ s.inflight = none ∧ s.pos = .fault ∧ step s = .fault .faulted) ∨
    (s.runnable = true ∧ s.prog = [] ∧ step s = .next s.ownStep) ∨
    (s.runnable = true ∧ s.prog ≠ [] ∧ ∃ i rest, decode s.prog = .ok (i, rest) ∧
      step s = exec i { s with prog := rest }) ∨
    (s.runnable = true ∧ s.prog ≠ [] ∧ ∃ why, decode s.prog = .error why ∧
      step s = .refused (.badEncoding why)) := by
  rw [State.runnable_iff]
  unfold step State.machineStep State.queuedStep
  cases hw : s.cfg.wf
  · simp
  cases hi : s.inflight with
  | some b => simp
  | none =>
    by_cases hp : s.pos = .fault
    · simp [hp]
    · cases hq : s.prog with
      | nil => simp [hp]
      | cons b bs =>
        cases hd : decode (b :: bs) with
        | ok x => obtain ⟨i, rest⟩ := x; simp [hp]
        | error why => simp [hp]

/-- A next state comes from the sequencer's own step or from a queued operation. -/
theorem step_next {s t : State} (h : step s = .next t) :
    s.runnable = true ∧ ((s.prog = [] ∧ t = s.ownStep) ∨
      ∃ i rest, decode s.prog = .ok (i, rest) ∧ exec i { s with prog := rest } = .next t) := by
  obtain ⟨-, e⟩ | ⟨-, -, e⟩ | ⟨-, -, -, e⟩ | ⟨hr, hp, e⟩ | ⟨hr, -, i, rest, hd, e⟩ | ⟨-, -, w, -, e⟩ :=
    step_cases s <;> rw [e] at h
  · simp at h
  · simp at h
  · simp at h
  · exact ⟨hr, .inl ⟨hp, by injection h with h; exact h.symm⟩⟩
  · exact ⟨hr, .inr ⟨i, rest, hd, h⟩⟩
  · simp at h

/-! ### The tempo -/

/-- The new tempo is clamped (R185). -/
theorem newBpm_eq {c : Cfg} (f : Cfg.Facts c) (b : Nat) (d : Int) :
    (newBpm c b d : Int) = max (c.bpmMin : Int) (min (c.bpmMax : Int) ((b : Int) + d)) := by
  unfold newBpm clampInt
  have := f.bpmMin; have := f.bpmMax
  split_ifs <;> omega

theorem bpmAfter_toNat {c : Cfg} (f : Cfg.Facts c) (m : Metronome) (d : Int) :
    (m.bpmAfter c d).toNat = newBpm c m.bpm.toNat d := by
  have := newBpm_eq f m.bpm.toNat d
  have := f.bpmMin; have := f.bpmMax
  unfold Metronome.bpmAfter
  rw [BitVec.toNat_ofNat, Nat.mod_eq_of_lt]
  omega

/-- The interval of a new tempo (R185). -/
theorem retempo_interval {c : Cfg} (f : Cfg.Facts c) (m : Metronome) (d : Int) :
    (m.retempo c d).beatIntervalUs.toNat = c.usPerMin / (m.retempo c d).bpm.toNat := by
  show (BitVec.ofNat 32 _).toNat = c.usPerMin / (m.bpmAfter c d).toNat
  unfold beatInterval
  have h1 : c.usPerMin / (m.bpmAfter c d).toNat ≤ c.usPerMin := Nat.div_le_self _ _
  have := f.usPerMin
  rw [BitVec.toNat_ofNat, Nat.mod_eq_of_lt]
  omega

/-- A delta in range that is congruent to the difference is the tempo delta (R184). -/
theorem tempoDelta_unique {s : State} (hw : 2 ≤ s.cfg.cntW) {delta : Int} (hd : inCounterRange s.cfg delta) {a b : Int} (h : (delta - (a - b)) % (2 ^ s.cfg.cntW : Nat) = 0) :
   tempoDelta s.cfg a b = delta := wrapSigned_unique hw hd h

/-! ### The half-way point of a tick -/

/-- A tick's first half ends before step 3, or hangs in step 2. -/
theorem tickHalf_pos {s : State} (f : Cfg.Facts s.cfg) : (s.tickHalf.pos = .s3 ∧ s.tickHalf.inflight = s.inflight) ∨ (s.tickHalf.pos = .s2 ∧ s.tickHalf.inflight ≠ none) := by
  unfold State.tickHalf seqS2
  generalize hu : seqS1 { s with pos := .s1 } = u
  have hc : u.cfg = s.cfg := by rw [← hu]; simp [seqS1, tickStep1_eq]
  have hp : u.pos = .s2 := by rw [← hu]; rfl
  have hi : u.inflight = s.inflight := by rw [← hu]; simp [seqS1, tickStep1_eq]
  have := State.proceed_pos (p := .s3) (r := tickStep2 u) (fun v => tickStep2_no_violation (by rw [hc]; exact f) v) (tickStep2_settled u) (tickStep2_seen u).pos
  simp only [State.proceed_inflight]
  rwa [hi, hp] at this

end Sys2Proof.Machine
end

