-- ==== Sys2Proof/Laws/Render.lean ====
section
/-! SUPPORT. Laws of complete and of cut operations: what init, render, draw_number, the boot and the controller commands put on
the bus and do to the target when every transaction returns ok, and where they stop when one does not. -/

namespace Sys2Proof.Machine

/-! ### Sequences that are cut -/

/-- A sequence of transactions cut in two. -/
theorem runTxs_append (xs ys : List Tx) (k : Nat) (s : State) :
   runTxs k (xs ++ ys) s = andThen (runTxs k xs s) (runTxs (k + xs.length) ys) := by
  induction xs generalizing k s with
  | nil => rfl
  | cons x xs ih =>
    simp only [List.cons_append, runTxs, List.length_cons]
    rcases h : s.busWrite k x with ⟨u, st⟩
    cases st
    · simp only [andThen_ok]; rw [ih]; congr 2; omega
    all_goals rfl

/-- A sequence of one transaction. -/
theorem runTxs_single (k : Nat) (tx : Tx) (s : State) : runTxs k [tx] s = s.busWrite k tx := by
  show (andThen (s.busWrite k tx) fun x => (x, Status.ok)) = _
  rcases s.busWrite k tx with ⟨u, st⟩
  cases st <;> rfl

/-- A sequence ends at its first command transaction that fails (R132, R137): those before it completed. -/
theorem runTxs_fails_at {s : State} (txs : List Tx) (k : Nat) (role : Role) (b : Byte) (n : Nat)
   (hk : k < txs.length) (htx : txs[k] = s.cfg.cmdTx role b) (hr : role ≠ .data) (h : Env.busOks k s.env = true)
   (hf : (Env.afterBus k s.env).takeBus.1 = .busError n) (j) :
   runTxs j txs s = (((s.runOk (txs.take k)).busFailed (s.cfg.cmdTx role b) n), .busFailure (j+k) b.toNat) := by
  have hs : txs = txs.take k ++ s.cfg.cmdTx role b :: txs.drop (k+1) := by
    rw [← htx, List.getElem_cons_drop, List.take_append_drop]
  have hl : (txs.take k).length = k := by simp; omega
  conv_lhs => rw [hs]
  rw [runTxs_stops _ _ _ _ _ (by rw [hl]; exact h) (by rw [hl, hf]; simp)]
  rw [hl]
  have : (s.runOk (txs.take k)).env.takeBus.1 = .busError n := by rw [State.runOk_env, hl, hf]
  unfold State.busWrite
  rw [this]
  simp [Tx.info, Cfg.cmdTx, hr]

/-- A bus that answers every transaction lets a sequence come to its end. -/
theorem runTxs_no_hang (txs : List Tx) (k : Nat) (s : State) (h : ∀ n, n < txs.length → ∀ taken, (Env.afterBus n s.env).takeBus.1 ≠ .stall taken) :
   (runTxs k txs s).2 ≠ .noReturn := by
  induction txs generalizing k s with
  | nil => simp [runTxs]
  | cons tx txs ih =>
    simp only [runTxs]
    obtain ⟨-, e⟩ | ⟨n, -, e⟩ | ⟨n, hn, e⟩ := s.busWrite_cases k tx
    · rw [e, andThen_ok]
      exact ih _ _ fun n hn => h (n+1) (by simp; omega)
    · rw [e]; simp [andThen]
    · exact absurd hn (h 0 (by simp) n)

/-- Environments that agree on the transport agree on every later answer. -/
theorem Env.afterBus_congr {e e' : Env} (hb : e.bus = e'.bus) (hd : e.busDraws = e'.busDraws) (n) :
   (Env.afterBus n e).takeBus.1 = (Env.afterBus n e').takeBus.1 := by
  induction n generalizing e e' with
  | zero => exact (Env.takeBus_congr hb hd).1
  | succ n ih => exact ih (Env.takeBus_congr hb hd).2 (by simp [hd])

/-- Fewer transactions than return ok return ok. -/
theorem Env.busOks_mono {m n : Nat} (h : m ≤ n) {e : Env} (ho : Env.busOks n e = true) : Env.busOks m e = true := by
  obtain ⟨k, rfl⟩ := Nat.exists_eq_add_of_le h
  rw [Env.busOks_add, Bool.and_eq_true] at ho; exact ho.1

/-- A call that only uses the bus and raises no ContractViolation leaves SEQ.pos. -/
theorem State.leave_pos {s : State} {r : State × Status} (b : BusOnly s r.1) (hv : ∀ v, r.2 ≠ .contractViolation v) : (State.leave r).pos = s.pos := by
  obtain ⟨st, h, -, e⟩ | ⟨v, h, e⟩ | ⟨-, e⟩ := State.leave_cases r
  · rw [e]; exact b.pos
  · exact absurd h (hv v)
  · rw [e]; exact b.pos

/-- The registers after a call whose transactions all completed. -/
theorem unchanged_ok (txs : List Tx) (s : State) : BlockUnchanged s (State.leave (s.runOk txs, .ok)) := by
  have b := State.runOk_only txs s
  exact ⟨b.cfg, b.enc, b.met, b.prevCounter, b.out, b.clock, b.prog⟩

/-- The registers after a call cut by a failed transaction. -/
theorem unchanged_failed (txs : List Tx) (s : State) (tx n st) : BlockUnchanged s (State.leave (((s.runOk txs).busFailed tx n), st)) := by
  have b := State.runOk_only txs s
  exact ⟨by simpa using b.cfg, by simpa using b.enc, by simpa using b.met, by simpa using b.prevCounter, by simpa using b.out, by simpa using b.clock, by simpa using b.prog⟩

/-- A called sequence of transactions whose number `j` is the first that fails: what it is, and what it leaves (R132, R137). -/
theorem runTxs_cut {s : State} (txs : List Tx) (j taken : Nat) (hj : j < txs.length)
    (h : Env.busOks j s.env = true) (hf : (Env.afterBus j s.env).takeBus.1 = .busError taken) :
    runTxs 0 txs s = ((s.runOk (txs.take j)).busFailed txs[j] taken, .busFailure j txs[j].info) ∧
      BlockUnchanged s (State.leave (runTxs 0 txs s)) ∧ (State.leave (runTxs 0 txs s)).pos = s.pos ∧
      (State.leave (runTxs 0 txs s)).inflight = s.inflight ∧
      (State.leave (runTxs 0 txs s)).ret = .status (.busFailure j txs[j].info) ∧
      (State.leave (runTxs 0 txs s)).events = s.events ++ cutEvents (okEvents s.cfg txs) j := by
  have hs : txs = txs.take j ++ txs[j] :: txs.drop (j + 1) := by
    rw [List.getElem_cons_drop, List.take_append_drop]
  have hl : (txs.take j).length = j := by simp; omega
  have e : runTxs 0 txs s
      = ((s.runOk (txs.take j)).busFailed txs[j] taken, .busFailure j txs[j].info) := by
    conv_lhs => rw [hs]
    rw [runTxs_stops _ _ _ _ _ (by rw [hl]; exact h) (by rw [hl, hf]; simp), hl, Nat.zero_add]
    have : (s.runOk (txs.take j)).env.takeBus.1 = .busError taken := by rw [State.runOk_env, hl, hf]
    unfold State.busWrite; rw [this]
  refine ⟨e, ?_⟩
  rw [e]
  refine ⟨unchanged_failed _ _ _ _ _, (State.runOk_only _ s).pos, by simp, rfl, ?_⟩
  rw [State.leave_events]
  simp only [State.busFailed_events, State.runOk_events, (State.runOk_only _ s).cfg, cutEvents,
    List.append_assoc]
  congr 1
  rw [List.drop_eq_getElem_cons (by simpa [okEvents] using hj)]
  simp [okEvents, Event.failed, List.map_take]

/-! ### How many answers a call takes -/

theorem Env.afterBus_add (m n : Nat) (e : Env) :
    Env.afterBus (m + n) e = Env.afterBus n (Env.afterBus m e) := by
  induction m generalizing e with
  | zero => simp [Env.afterBus]
  | succ m ih => rw [Nat.succ_add]; exact ih _

/-- A call that takes at most `n` of the transport's answers, and returns if none of these is a stall. -/
def EndsWithin (n : Nat) (s : State) (r : State × Status) : Prop :=
  (∀ i, i < n → ∀ taken, (Env.afterBus i s.env).takeBus.1 ≠ .stall taken) →
    r.2 ≠ .noReturn ∧ ∃ m, m ≤ n ∧ r.1.env = Env.afterBus m s.env

theorem EndsWithin.pure (n : Nat) (s : State) {st : Status} (h : st ≠ .noReturn) :
    EndsWithin n s (s, st) := fun _ => ⟨h, 0, by omega, rfl⟩

theorem EndsWithin.andThen {a b : Nat} {s : State} {r : State × Status} {f : State → State × Status}
    (h : EndsWithin a s r) (hf : EndsWithin b r.1 (f r.1)) :
    EndsWithin (a + b) s (Machine.andThen r f) := by
  intro hn
  obtain ⟨h₁, m, hm, he⟩ := h fun i hi => hn i (by omega)
  obtain ⟨-, e⟩ | ⟨-, e⟩ := andThen_cases r f <;> rw [e]
  · obtain ⟨g₁, m', hm', he'⟩ := hf fun i hi t => by
      rw [he, ← Env.afterBus_add]; exact hn _ (by omega) t
    exact ⟨g₁, m + m', by omega, by rw [he', he, Env.afterBus_add]⟩
  · exact ⟨h₁, m, by omega, he⟩

theorem EndsWithin.ignore {n : Nat} {s : State} {r : State × Status} (h : EndsWithin n s r) :
    EndsWithin n s (ignoreBusFailure r) := by
  intro hn
  obtain ⟨h₁, h₂⟩ := h hn
  refine ⟨?_, by rwa [ignoreBusFailure_state]⟩
  obtain ⟨u, st⟩ := r
  cases st <;> simp_all [ignoreBusFailure]

theorem State.busWrite_ends (s : State) (k : Nat) (tx : Tx) : EndsWithin 1 s (s.busWrite k tx) := by
  intro hn
  obtain ⟨-, e⟩ | ⟨n, -, e⟩ | ⟨n, a, -⟩ := s.busWrite_cases k tx
  · rw [e]; exact ⟨by simp, 1, le_rfl, by simp [Env.afterBus]⟩
  · rw [e]; exact ⟨by simp, 1, le_rfl, by simp [Env.afterBus]⟩
  · exact absurd a (hn 0 (by omega) n)

theorem runTxs_ends (txs : List Tx) (k : Nat) (s : State) : EndsWithin txs.length s (runTxs k txs s) := by
  induction txs generalizing k s with
  | nil => exact EndsWithin.pure _ s (by simp)
  | cons tx txs ih =>
    rw [List.length_cons, Nat.add_comm]
    exact (s.busWrite_ends k tx).andThen (ih _ _)

theorem renderOp_ends (k : Nat) (buf : List Byte) (r : Rect) (s : State) :
    EndsWithin 7 s (renderOp k buf r s) := by
  obtain ⟨v, -, e⟩ | ⟨-, e⟩ := renderOp_cases k buf r s <;> rw [e]
  · exact EndsWithin.pure _ s (by simp)
  · exact runTxs_ends (s.cfg.renderTxs r buf) k s

theorem drawSlots_ends (v n k : Nat) (s : State) : EndsWithin (7 * k) s (drawSlots v n k s) := by
  induction k generalizing s with
  | zero => exact EndsWithin.pure _ s (by simp)
  | succ k ih => rw [Nat.mul_succ, Nat.add_comm]; exact (renderOp_ends _ _ _ _).andThen (ih _)

/-- A boot takes at most 54 answers (R245). -/
theorem bootOp_ends {s : State} (f : Cfg.Facts s.cfg) : EndsWithin 54 s (bootOp s) := by
  refine (runTxs_ends s.cfg.initTxs 0 s).ignore.andThen (b := 28)
    ((renderOp_ends _ _ _ _).ignore.andThen (b := 21) (EndsWithin.ignore ?_))
  have h₁ : (ignoreBusFailure (initOp s)).1.cfg = s.cfg := by
    rw [ignoreBusFailure_state]; exact (runTxs_closed BusOnly.closed _ _ _).cfg
  have h₂ : ∀ t : State, (ignoreBusFailure (clearOp t)).1.cfg = t.cfg := fun t => by
    rw [ignoreBusFailure_state]; exact (renderOp_closed BusOnly.closed _ _ _ _).cfg
  have h₃ := drawSlots_ends s.cfg.initialBpm 3 3 (ignoreBusFailure (clearOp (ignoreBusFailure (initOp s)).1)).1
  show EndsWithin 21 _ (drawNumberOp (ignoreBusFailure (clearOp (ignoreBusFailure (initOp s)).1)).1.cfg.initialBpm
    (ignoreBusFailure (clearOp (ignoreBusFailure (initOp s)).1)).1.cfg.digits _)
  rw [h₂, h₁, f.digits]
  exact h₃

/-! ### An operation and the send_commands it expands to (R104) -/

/-- The state after completed transactions depends on their bytes alone. -/
theorem State.runOk_bytes {txs txs' : List Tx} (h : txs.map Tx.bytes = txs'.map Tx.bytes) (s : State) :
    s.runOk txs = s.runOk txs' := by
  induction txs generalizing txs' s with
  | nil => cases txs' <;> simp_all
  | cons tx txs ih =>
    cases txs' with
    | nil => simp at h
    | cons tx' txs' =>
      simp only [List.map_cons, List.cons.injEq] at h
      have e : s.busOk tx = s.busOk tx' := by simp only [State.busOk, h.1]
      show (s.busOk tx).runOk txs = (s.busOk tx').runOk txs'
      rw [e, ih h.2]

theorem State.runOk_ret (txs : List Tx) (s : State) (r : Ret) :
    ({ s with ret := r } : State).runOk txs = { s.runOk txs with ret := r } := by
  induction txs generalizing s with
  | nil => rfl
  | cons tx txs ih => exact ih (s.busOk tx)

/-- send_command of each of some bytes, on a bus that answers ok. -/
theorem sendEach_ok (bs : List Byte) {s : State} (hne : bs ≠ []) (h : Env.busOks bs.length s.env = true) :
    sendEach bs s = State.leave (s.runOk (bs.map (s.cfg.cmdTx .raw)), .ok) := by
  induction bs generalizing s with
  | nil => exact absurd rfl hne
  | cons b bs ih =>
    simp only [List.length_cons, Env.busOks, Bool.and_eq_true, decide_eq_true_eq] at h
    have e : exec (.sendCommand b) s = .next (State.leave (s.busOk (s.cfg.cmdTx .raw b), .ok)) := by
      simp only [exec, execSendCommand, sendCommandOp, s.busWrite_ok 0 _ h.1]
    simp only [sendEach, e]
    cases bs with
    | nil => rfl
    | cons b' bs =>
      rw [ih (by simp) (by simpa using h.2)]
      simp only [State.leave_ok, State.runOk_ret]
      rfl

/-- Transactions that carry these command bytes, whatever part they have in their operation. -/
theorem runOk_sendEach {bs : List Byte} {txs : List Tx} {s : State} (hne : bs ≠ [])
    (h : Env.busOks bs.length s.env = true) (e : txs.map Tx.bytes = bs.map fun b => [s.cfg.ctrlCmd, b]) :
    State.leave (s.runOk txs, .ok) = sendEach bs s := by
  rw [sendEach_ok bs hne h, s.runOk_bytes (txs' := bs.map (s.cfg.cmdTx .raw))]
  rw [e]; simp [Cfg.cmdTx, Function.comp_def]

/-! ### CMD transactions store nothing -/

/-- A CMD transaction leaves display RAM, or the target is no longer described. -/
theorem busWrite_cmd_ram {s : State} (hc : s.cfg.ctrlCmd ≠ s.cfg.ctrlData) (k role b) :
   (s.busWrite k (s.cfg.cmdTx role b)).1.target.lost ≠ none ∨ (s.busWrite k (s.cfg.cmdTx role b)).1.target.ram = s.target.ram := by
      obtain e | ⟨n, e⟩ | ⟨n, e⟩ := s.busWrite_target k (s.cfg.cmdTx role b) <;> rw [e]
      · exact Target.deliver_cmd_ram s.env.busDraws role b 2 s.target hc
      · obtain ⟨e, e'⟩ | ⟨e, e'⟩ := Target.deliverFailed_cases s.cfg s.env.busDraws (s.cfg.cmdTx role b) n s.target <;>
          rw [e, e']
        · exact .inr rfl
        · exact Target.deliver_cmd_ram s.env.busDraws role b n s.target hc
      · exact Target.deliver_cmd_ram s.env.busDraws role b n s.target hc

/-- So does a sequence of them. -/
theorem runTxs_cmd_ram {s : State} (hc : s.cfg.ctrlCmd ≠ s.cfg.ctrlData) (txs : List Tx) (k : Nat)
   (h : ∀ tx ∈ txs, ∃ role b, tx = s.cfg.cmdTx role b) :
   (runTxs k txs s).1.target.lost ≠ none ∨ (runTxs k txs s).1.target.ram = s.target.ram := by
  induction txs generalizing k s with
  | nil => exact .inr rfl
  | cons tx txs ih =>
    obtain ⟨role, b, rfl⟩ := h tx (by simp)
    simp only [runTxs]
    have hb := busWrite_cmd_ram hc k role b
    have hcfg := (s.busWrite_only k (s.cfg.cmdTx role b)).cfg
    obtain ⟨-, e⟩ | ⟨-, e⟩ := andThen_cases (s.busWrite k (s.cfg.cmdTx role b)) (runTxs (k+1) txs) <;> rw [e]
    · rcases hb with hb | hb
      · exact .inl (runTxs_closed lost_closed _ _ _ hb)
      · have := @ih (s.busWrite k (s.cfg.cmdTx role b)).1 (by rw [hcfg]; exact hc) (k+1) (by rw [hcfg]; exact fun tx h' => h tx (by simp [h']))
        rwa [hb] at this
    · exact hb

/-! ### init and the controller commands -/

theorem Cfg.initTxs_events (c : Cfg) : okEvents c c.initTxs = c.seqInit.map (cmdEvent c true) := by
  rfl

theorem Cfg.initTxs_length (c : Cfg) : c.initTxs.length = 26 := rfl

/-- The transaction that carries byte `k` of SEQ_INIT. -/
theorem Cfg.initTxs_get (c : Cfg) (k : Nat) (b : Byte) (hk : c.seqInit[k]? = some b) :
   ∃ (h : k < c.initTxs.length) (role : Role), role ≠ .data ∧ c.initTxs[k] = c.cmdTx role b := by
  have hlen : k < 26 := by
    by_contra h
    rw [List.getElem?_eq_none (by show 26 ≤ k; omega)] at hk; simp at hk
  refine ⟨hlen, ?_⟩
  interval_cases k <;> (have := Option.some.inj hk; subst this) <;> first | exact ⟨.opcode, by decide, rfl⟩ | exact ⟨.param, by decide, rfl⟩

/-- Commands other than the windows, one after another, at a target that waits for an opcode. -/
theorem deliverAll_commands {c : Cfg} (n : Nat) {t : Target} (hc : c.ctrlCmd ≠ c.ctrlData) (hd : c.opcodesDistinct = true) (ht : t.listening = true)
   (l : List (Cmd × List Byte)) (hl : ∀ x ∈ l, (x.2.length = x.1.params ∧ x.1 ≠ .colAddr ∧ x.1 ≠ .pageAddr) ∧
      (x.1 ≠ .memMode ∨ x.2 = [c.cmd.memHoriz])) :
   Target.deliverAll c n (l.flatMap fun x => c.commandTxs x.1 x.2) t = l.foldl (fun t x => t.effect c 0 x.1 x.2) t := by
  induction l generalizing n t with
  | nil => rfl
  | cons x l ih =>
    have hx := hl x (by simp)
    rw [List.flatMap_cons, Target.deliverAll_append, Target.deliverAll_command n x.1 x.2 hc hd ht hx.1.1]
    have he : t.effect c (n + x.1.params) x.1 x.2 = t.effect c 0 x.1 x.2 := by
      obtain ⟨k, ps⟩ := x
      cases k <;> first | rfl | simp at hx
    rw [he, ih _ _ fun y hy => hl y (by simp [hy])]
    · rfl
    · rw [Target.listening_iff] at ht ⊢
      obtain ⟨k, ps⟩ := x
      cases k
      case memMode => simp at hx; simpa [hx.2] using ht
      all_goals first | exact ht | simp at hx

/-- The target after init, from one that waits for an opcode or for the parameter of a one-parameter command that takes init's
first byte (R61): the rest of init reaches it as sent. -/
theorem initTxs_ready {c : Cfg} (n : Nat) {t : Target} (hc : c.ctrlCmd ≠ c.ctrlData)
    (hd : c.opcodesDistinct = true) (hl : t.lost = none)
    (hp : ∀ p, t.pending = some p → p.cut = false ∧ p.cmd ≠ .colAddr ∧ p.cmd ≠ .pageAddr ∧
      (p.cmd = .memMode → p.params = [] ∧ c.cmd.dispOff = c.cmd.memHoriz)) :
    (Target.deliverAll c n c.initTxs t).ready = true ∧
      (Target.deliverAll c n c.initTxs t).displayOn = true := by
  rw [show c.initTxs = c.cmdTx .opcode (c.opcode .dispOff)
    :: ((c.initScript.drop 1).flatMap fun x => c.commandTxs x.1 x.2) from rfl, Target.deliverAll]
  have h₁ : (t.deliver c n (c.cmdTx .opcode (c.opcode .dispOff)).bytes).listening = true := by
    rw [Target.deliver_cmdTx _ _ _ hc hl]
    cases h : t.pending with
    | none =>
      rw [Target.commandByte_opcode n .dispOff hd h, Target.listening_iff]
      exact ⟨hl, h⟩
    | some p =>
      obtain ⟨hcut, hcol, hpage, hmode⟩ := hp p h
      rw [Target.commandByte_pending _ _ h hcut, Target.listening_iff]
      obtain ⟨k, ps, cut⟩ := p
      unfold Target.paramByte
      rw [if_pos (by cases k <;> simp [Cmd.params] at hcol hpage ⊢)]
      cases k
      case memMode =>
        obtain ⟨rfl, e⟩ := hmode rfl
        simp [Cfg.opcode, e, hl]
      all_goals first | exact ⟨hl, rfl⟩ | exact absurd rfl hcol | exact absurd rfl hpage
  generalize t.deliver c n (c.cmdTx .opcode (c.opcode .dispOff)).bytes = u at h₁ ⊢
  rw [deliverAll_commands (c := c) (n + 1) hc hd h₁ (c.initScript.drop 1) (by simp [Cfg.initScript, Cmd.params])]
  rw [Target.listening_iff] at h₁
  simp [Cfg.initScript, Target.effect, Target.setMode, Target.record, paramAt, Target.ready_iff, h₁]

/-- A controller command on a bus that answers ok. -/
theorem commandOp_ok {s : State} (k : Cmd) (ps : List Byte) (h : Env.busOks (1 + ps.length) s.env = true) :
   commandOp k ps s = (s.runOk (s.cfg.commandTxs k ps), .ok) := by
  unfold commandOp
  refine runTxs_ok _ _ _ ?_
  simpa [Cfg.commandTxs, Nat.add_comm] using h

theorem commandTxs_events (c : Cfg) (k : Cmd) (ps : List Byte) : okEvents c (c.commandTxs k ps) = (c.opcode k :: ps).map (cmdEvent c true) := by
  simp [okEvents, Cfg.commandTxs, cmdEvent, Cfg.cmdTx, Function.comp_def]

/-- A controller command is its opcode and its parameters, sent in order (R95, R96). -/
theorem exec_command (i : Instr) {s : State} (h : commandBytes s.cfg i ≠ []) :
    ∃ k ps, exec i s = .next (State.leave (runTxs 0 (s.cfg.commandTxs k ps) s)) ∧
      commandBytes s.cfg i = s.cfg.opcode k :: ps ∧ ps.length = k.params := by
  cases i <;> first | exact ⟨_, _, rfl, rfl, rfl⟩ | exact absurd rfl h

/-! ### render -/

/-- render passes its checks exactly when the area is valid, inside the display, and as long as the buffer (R136). -/
theorem Cfg.renderCheck_iff (c : Cfg) (r : Rect) (n : Nat) : c.renderCheck r n = none ↔
   (r.startCol ≤ r.endCol ∧ r.startPage ≤ r.endPage) ∧ (r.endCol ≤ c.width - 1 ∧ r.endPage ≤ c.pages - 1) ∧ n = r.bufferLength := by
  unfold Cfg.renderCheck
  have h1 : r.valid = true ↔ r.startCol ≤ r.endCol ∧ r.startPage ≤ r.endPage := by
    simp only [Rect.valid, Bool.and_eq_true, decide_eq_true_eq]
  have h2 : c.inDisplay r = true ↔ r.endCol ≤ c.width - 1 ∧ r.endPage ≤ c.pages - 1 := by
    simp only [Cfg.inDisplay, Bool.and_eq_true, decide_eq_true_eq]
  rw [← h1, ← h2]
  split_ifs <;> simp_all

/-- A render that passes its checks, on a bus that answers ok. -/
theorem renderOp_ok {s : State} {buf} {r : Rect} (hv : s.cfg.renderCheck r buf.length = none) (h : Env.busOks 7 s.env = true) (k) :
   renderOp k buf r s = (s.runOk (s.cfg.renderTxs r buf), .ok) := by
  unfold renderOp; rw [hv]
  exact runTxs_ok _ _ _ h

theorem Cfg.renderTxs_events (c : Cfg) (r : Rect) (buf) : okEvents c (c.renderTxs r buf) = renderEvents c r buf := rfl

/-- The target after a complete render: the area is its window, the pointer at the area's start, RAM filled. -/
theorem render_target {s : State} {buf} {r : Rect} (hc : s.cfg.ctrlCmd ≠ s.cfg.ctrlData) (hd : s.cfg.opcodesDistinct = true)
   (w1 : 1 ≤ s.cfg.width) (w2 : s.cfg.width ≤ 256) (g1 : 1 ≤ s.cfg.pages) (g2 : s.cfg.pages ≤ 256)
   (hv : s.cfg.renderCheck r buf.length = none) (ht : s.target.ready = true) :
   (s.runOk (s.cfg.renderTxs r buf)).target =
     { s.target with ram := fillRam s.cfg r 0 buf s.target.ram, colStart := r.startCol, colEnd := r.endCol, pageStart := r.startPage, pageEnd := r.endPage, col := r.startCol, page := r.startPage } := by
  rw [Cfg.renderCheck_iff] at hv
  obtain ⟨⟨v1, v2⟩, ⟨v3, v4⟩, v5⟩ := hv
  have b8 : ∀ x, x ≤ 255 → (BitVec.ofNat 8 x).toNat = x := by intro x h; simp; omega
  have ht' := (Target.ready_iff _).1 ht
  obtain ⟨hl, hp, hm, hs⟩ := ht'
  rw [State.runOk_target]
  unfold Cfg.renderTxs
  rw [Target.deliverAll_append, Target.deliverAll_append, Target.deliverAll_command _ _ _ hc hd (Target.ready_listening ht) rfl]
  have e1 : ∀ n, s.target.effect s.cfg n .colAddr [BitVec.ofNat 8 r.startCol, BitVec.ofNat 8 r.endCol] = { s.target with colStart := r.startCol, colEnd := r.endCol, col := r.startCol } := by
    intro n
    simp only [Target.effect, Target.setColumns, paramAt, List.getD_cons_zero, List.getD_cons_succ]
    rw [b8 r.startCol (by omega), b8 r.endCol (by omega), if_pos ⟨v1, v3⟩]
  rw [e1, Target.deliverAll_command _ _ _ hc hd (by rw [Target.listening_iff]; exact ⟨hl, hp⟩) rfl]
  have e2 : ∀ (t : Target) n, t.effect s.cfg n .pageAddr [BitVec.ofNat 8 r.startPage, BitVec.ofNat 8 r.endPage] = { t with pageStart := r.startPage, pageEnd := r.endPage, page := r.startPage } := by
    intro t n
    simp only [Target.effect, Target.setPages, paramAt, List.getD_cons_zero, List.getD_cons_succ]
    rw [b8 r.startPage (by omega), b8 r.endPage (by omega), if_pos ⟨v2, v4⟩]
  rw [e2]
  generalize hT : ({ s.target with colStart := r.startCol, colEnd := r.endCol, pageStart := r.startPage, pageEnd := r.endPage, col := r.startCol, page := r.startPage } : Target) = T
  have hTl : T.lost = none := by rw [← hT]; exact hl
  generalize s.env.busDraws + _ = N
  show T.deliver s.cfg N (s.cfg.dataTx buf).bytes = _
  rw [Target.deliver_dataTx _ _ hTl]
  have this : T = T.at r 0 s.target.ram := by
    rw [← hT]; simp [Target.at]
  have e3 : T.payload s.cfg N buf = Target.pixelBytes s.cfg N T buf := by
    rw [← hT]; simp [Target.payload, hp, hm, hs]
  have hn : 0 < r.ncols := by simp [Rect.ncols]
  have hm : 0 < r.npages := by simp [Rect.npages]
  have e4 : Target.pixelBytes s.cfg N T buf = T.at r (0 + buf.length) (fillRam s.cfg r 0 buf s.target.ram) := by
    conv_lhs => rw [this]
    exact Target.pixelBytes_at _ _ _ _ v1 v2 (by omega) (by omega) hTl (by rw [← hT]) (by rw [← hT]) (by rw [← hT]) (by rw [← hT])
  rw [e3, e4, ← hT]
  simp only [Target.at, Nat.zero_add, v5, Rect.bufferLength, Nat.mul_mod_right, Nat.mul_div_cancel_left _ hn, Nat.mod_self, Nat.add_zero]

/-- Display RAM after a complete render: the buffer inside the area, nothing outside (R54, R62). -/
theorem render_ram {s : State} {buf} {r : Rect} (w1 : 1 ≤ s.cfg.width) (g1 : 1 ≤ s.cfg.pages)
   (hv : s.cfg.renderCheck r buf.length = none) (t : Target) (m : Memory) (hm : s.target.ram = m) (ht : t.ram = fillRam s.cfg r 0 buf m) :
   (∀ k, k < buf.length → t.ramAt s.cfg (r.startPage + k / r.ncols) (r.startCol + k % r.ncols) = buf[k]?) ∧
   (∀ page col, ¬ r.has page col → t.ramAt s.cfg page col = s.target.ramAt s.cfg page col) := by
  rw [Cfg.renderCheck_iff] at hv
  obtain ⟨⟨v1, v2⟩, ⟨v3, v4⟩, v5⟩ := hv
  have hnc : 0 < r.ncols := by simp [Rect.ncols]
  have hnp : 0 < r.npages := by simp [Rect.npages]
  have inb : ∀ k, k < buf.length → k / r.ncols < r.npages ∧ r.startPage + k / r.ncols < s.cfg.pages ∧ r.startCol + k % r.ncols < s.cfg.width := by
    intro k hk
    have h1 : k / r.ncols < r.npages := by
      rw [Nat.div_lt_iff_lt_mul hnc, Nat.mul_comm]; rw [v5] at hk; exact hk
    have := Nat.mod_lt k hnc
    simp only [Rect.ncols, Rect.npages] at *
    omega
  have key : ∀ k, k < buf.length → Rect.keyAt s.cfg r k = s.cfg.cellAddr (r.startPage + k / r.ncols) (r.startCol + k % r.ncols) := by
    intro k hk; unfold Rect.keyAt; rw [Nat.mod_eq_of_lt (inb k hk).1]
  constructor
  · intro k hk
    unfold Target.ramAt
    rw [if_pos ⟨(inb k hk).2.2, (inb k hk).2.1⟩, ht, ← key k hk, fillRam_last buf 0 _ (Nat.zero_le _) (by omega), Nat.sub_zero]
    intro i hi hi2 heq
    rw [key k hk, key i (by omega)] at heq
    obtain ⟨q1, q2⟩ := Cfg.cellAddr_inj (inb k hk).2.2 (inb i (by omega)).2.2 heq
    have dk := Nat.div_add_mod k r.ncols
    have di := Nat.div_add_mod i r.ncols
    rw [show k / r.ncols = i / r.ncols by omega] at dk
    omega
  · intro page col hout
    unfold Target.ramAt
    split_ifs with hb
    · rw [ht, hm]
      refine fillRam_other _ _ _ fun j _ hj heq => ?_
      rw [key j (by omega)] at heq
      obtain ⟨q1, q2⟩ := Cfg.cellAddr_inj hb.1 (inb j (by omega)).2.2 heq
      apply hout
      have := Nat.mod_lt j hnc
      have := (inb j (by omega)).1
      generalize j / r.ncols = x at *
      generalize j % r.ncols = y at *
      simp only [Rect.has, Rect.ncols, Rect.npages] at *
      omega
    · rfl

/-- Display RAM after a complete clear (R140). -/
theorem clear_target {s : State} (hw : s.cfg.wf = true) (hd : s.cfg.opcodesDistinct = true) (ht : s.target.ready = true) (t : Target)
   (e : t = (s.runOk (s.cfg.renderTxs s.cfg.fullRect (List.replicate s.cfg.totalBufLen 0))).target) : t.ready = true ∧
   ∀ page col, page < s.cfg.pages → col < s.cfg.width → t.ramAt s.cfg page col = some 0 := by
  have f := Cfg.facts hw
  have hv := Cfg.renderCheck_full f
  have hvs := (Cfg.renderCheck_iff _ _ _).1 hv
  have T := render_target f.controlBytes hd f.widthLow f.widthHigh f.pagesLow f.pagesHigh hv ht
  rw [← e] at T
  refine ⟨by rw [T, Target.ready_iff]; exact (Target.ready_iff _).1 ht, fun page col hp hcl => ?_⟩
  have r := (render_ram f.widthLow f.pagesLow hv t _ rfl (by rw [T])).1 (page * s.cfg.width + col) (by
    rw [List.length_replicate]; exact Cfg.cellAddr_lt hcl hp)
  have hn : s.cfg.fullRect.ncols = s.cfg.width := by have := f.widthLow; simp [Cfg.fullRect, Rect.ncols]; omega
  rw [hn] at r
  have w := f.widthLow
  rw [show (page * s.cfg.width + col) / s.cfg.width = page by rw [Nat.mul_comm, Nat.mul_add_div w, Nat.div_eq_of_lt hcl]; rfl,
     show (page * s.cfg.width + col) % s.cfg.width = col by rw [Nat.mul_comm, Nat.mul_add_mod, Nat.mod_eq_of_lt hcl]] at r
  simp only [Cfg.fullRect, Nat.zero_add] at r
  rw [r, List.getElem?_replicate, if_pos]
  exact Cfg.cellAddr_lt hcl hp

/-! ### draw_number -/

/-- The transactions of the last `k` slots. -/
def Cfg.slotTxs (c : Cfg) (v n : Nat) : Nat → List Tx
  | 0 => []
  | k+1 => c.renderTxs (c.slotRect (n - (k+1))) (c.slotTile v k) ++ Cfg.slotTxs c v n k

theorem Cfg.slotTxs_length (c v n k) : (Cfg.slotTxs c v n k).length = 7 * k := by
  induction k with
  | zero => rfl
  | succ k ih => simp only [Cfg.slotTxs, List.length_append, ih]; show 7 + _ = _; omega

/-- Where the slots fit, drawing them is sending their transactions (R151, R153). -/
theorem drawSlots_txs {v n : Nat} {s : State} (f : Cfg.Facts s.cfg) (hn : n * s.cfg.glyphW + (n - 1) ≤ s.cfg.width) (k : Nat) (hk : k ≤ n) :
   drawSlots v n k s = runTxs (7 * (n - k)) (Cfg.slotTxs s.cfg v n k) s := by
  induction k generalizing s with
  | zero => rfl
  | succ k ih =>
    have hv := Cfg.renderCheck_slot f v k (n - (k+1)) (Cfg.slot_fits hn (by omega))
    rw [Cfg.slotTxs, runTxs_append]
    simp only [drawSlots]
    have e : renderOp (7 * (n - (k+1))) (s.cfg.slotTile v k) (s.cfg.slotRect (n - (k+1))) s = runTxs (7 * (n - (k+1))) (s.cfg.renderTxs (s.cfg.slotRect (n - (k+1))) (s.cfg.slotTile v k)) s := by
      unfold renderOp; rw [hv]
    rw [e]
    have hcfg := (runTxs_only (s.cfg.renderTxs (s.cfg.slotRect (n - (k+1))) (s.cfg.slotTile v k)) (7 * (n - (k+1))) s).cfg
    rcases h : runTxs (7 * (n - (k+1))) (s.cfg.renderTxs (s.cfg.slotRect (n - (k+1))) (s.cfg.slotTile v k)) s with ⟨u, st⟩
    rw [h] at hcfg
    simp only at hcfg
    cases st
    · simp only [andThen_ok]
      rw [ih (s := u) (by rw [hcfg]; exact f) (by rw [hcfg]; exact hn) (by omega), hcfg]
      congr 1
      show 7 * (n - k) = 7 * (n - (k+1)) + 7; omega
    all_goals rfl

theorem exec_drawNumber (v n : Nat) (s : State) : exec (.drawNumber v n) s = .next (State.leave (drawNumberOp v n s)) := by
  show (if ((v:Nat):Int) < 0 then Host.Outcome.refused .negativeValue else Host.Outcome.next (State.leave (drawNumberOp (v:Int).toNat n s))) = _
  rw [if_neg (by omega)]; rfl

theorem slotTxs_events (c : Cfg) (v n k : Nat) (hk : k ≤ n) : okEvents c (Cfg.slotTxs c v n k) = (List.range' (n - k) k).flatMap fun i =>
   renderEvents c (c.slotRect i) (c.slotTile v (n - 1 - i)) := by
  induction k with
  | zero => rfl
  | succ k ih =>
    rw [List.range'_succ, List.flatMap_cons, show n - (k+1) + 1 = n - k by omega, ← ih (by omega)]
    rw [show n - 1 - (n - (k+1)) = k by omega, ← Cfg.renderTxs_events]
    simp [Cfg.slotTxs, okEvents]

/-- The tile of slot `i` (R152). -/
theorem Cfg.slotTile_eq (c : Cfg) (v n i : Nat) (hi : i < n) : c.slotTile v (n-1-i) = (if v < 10 ^ (n - 1 - i) ∧ i ≠ n - 1 then c.glyph 10
           else c.glyph (v / 10 ^ (n - 1 - i) % 10)) := by
  unfold Cfg.slotTile blankAt digitAt
  have : n - 1 - i ≠ 0 ↔ i ≠ n - 1 := by omega
  simp only [Bool.and_eq_true, decide_eq_true_eq, this]

/-- The target after the last `k` slots. -/
theorem slotTxs_target {v n : Nat} (k : Nat) {s : State} (hk : k ≤ n) (hw : s.cfg.wf = true) (hd : s.cfg.opcodesDistinct = true)
    (hn : n * s.cfg.glyphW + (n - 1) ≤ s.cfg.width) (ht : s.target.ready = true) (hok : Env.busOks (7*k) s.env = true) :
    (s.runOk (Cfg.slotTxs s.cfg v n k)).target.ready = true ∧
    (s.runOk (Cfg.slotTxs s.cfg v n k)).target.displayOn = s.target.displayOn ∧
    (∀ i j, n - k ≤ i → i < n → j < s.cfg.glyphW → (s.runOk (Cfg.slotTxs s.cfg v n k)).target.ramAt s.cfg s.cfg.digitPage (i * (s.cfg.glyphW + 1) + j)
          = (s.cfg.slotTile v (n-1-i))[j]?) ∧
    (∀ page col, (∀ i j, n - k ≤ i → i < n → j < s.cfg.glyphW → ¬ (page = s.cfg.digitPage ∧ col = i * (s.cfg.glyphW + 1) + j)) →
        (s.runOk (Cfg.slotTxs s.cfg v n k)).target.ramAt s.cfg page col = s.target.ramAt s.cfg page col) := by
  have f := Cfg.facts hw
  induction k generalizing s with
  | zero => exact ⟨ht, rfl, fun i j h1 h2 => by omega, fun _ _ _ => rfl⟩
  | succ k ih =>
    have hv := Cfg.renderCheck_slot f v k (n - (k+1)) (Cfg.slot_fits hn (by omega))
    rw [Cfg.slotTxs, State.runOk_append]
    generalize hu : s.runOk (s.cfg.renderTxs (s.cfg.slotRect (n - (k+1))) (s.cfg.slotTile v k)) = u
    have hcfg : u.cfg = s.cfg := by rw [← hu]; exact (State.runOk_only _ s).cfg
    have T := render_target f.controlBytes hd f.widthLow f.widthHigh f.pagesLow f.pagesHigh hv ht
    rw [hu] at T
    have R := render_ram f.widthLow f.pagesLow hv u.target _ rfl (by rw [T])
    have hr : u.target.ready = true := by rw [T, Target.ready_iff]; exact (Target.ready_iff _).1 ht
    have hdo : u.target.displayOn = s.target.displayOn := by rw [T]
    rw [show 7 * (k+1) = 7 + 7 * k by omega, Env.busOks_add, Bool.and_eq_true] at hok
    have henv : Env.busOks (7*k) u.env = true := by rw [← hu, State.runOk_env]; exact hok.2
    have I := @ih u (by omega) (by rw [hcfg]; exact hw) (by rw [hcfg]; exact hd) (by rw [hcfg]; exact hn) hr henv (by rw [hcfg]; exact f)
    rw [hcfg] at I
    have hg := f.glyphLow
    have hnc : (s.cfg.slotRect (n - (k+1))).ncols = s.cfg.glyphW := by
      simp only [Cfg.slotRect, Rect.ncols]; omega
    refine ⟨I.1, I.2.1.trans hdo, fun i j h1 h2 hj => ?_, fun page col ho => ?_⟩
    · rcases Nat.lt_or_ge i (n - k) with hlt | hge
      · have hi : i = n - (k+1) := by omega
        rw [I.2.2.2]
        · have := R.1 j (by rw [Cfg.slotTile_length f]; exact hj)
          rw [hnc, Nat.div_eq_of_lt hj, Nat.mod_eq_of_lt hj] at this
          rw [show n - 1 - i = k by omega, ← this]
          simp only [Cfg.slotRect, Nat.add_zero]
          rw [hi, Nat.mul_add, Nat.mul_one]
        · rintro i' j' h1' h2' hj' ⟨-, e⟩
          have : i' = i + (i' - i) := by omega
          have hge : (i+1) * (s.cfg.glyphW + 1) ≤ i' * (s.cfg.glyphW + 1) := Nat.mul_le_mul_right _ (by omega)
          rw [Nat.add_mul] at hge
          omega
      · exact I.2.2.1 i j hge h2 hj
    · rw [I.2.2.2 page col fun i j h1 h2 hj => ho i j (by omega) h2 hj]
      apply R.2
      intro hin
      apply ho (n - (k+1)) (col - (n - (k+1)) * (s.cfg.glyphW + 1)) le_rfl (by omega)
      · simp only [Rect.has, Cfg.slotRect] at hin
        rw [Nat.mul_add, Nat.mul_one]; omega
      · simp only [Rect.has, Cfg.slotRect] at hin
        rw [Nat.mul_add, Nat.mul_one]; omega

/-- The slots before slot `m` fit and are drawn. -/
theorem drawSlots_part {v n : Nat} (m : Nat) : ∀ {s : State} (_f : Cfg.Facts s.cfg) (_hm : m * s.cfg.glyphW + (m-1) ≤ s.cfg.width) (j k) (_ : n = j + k) (_hj : j ≤ m) (_ : m ≤ n)
   (_ : Env.busOks (7 * (m - j)) s.env = true), ∃ txs, txs.length = 7 * (m - j) ∧ drawSlots v n k s = drawSlots v n (n - m) (s.runOk txs) := by
  intro s f hm j k hn hj hmn h
  induction k generalizing s j with
  | zero => exact ⟨[], by simp; omega, by rw [show n - m = 0 by omega]; rfl⟩
  | succ k ih =>
    rcases Nat.lt_or_ge j m with hlt | hge
    · have hv := Cfg.renderCheck_slot f v k (n - (k+1)) (Cfg.slot_fits hm (by omega))
      rw [show 7 * (m - j) = 7 + 7 * (m - (j+1)) by omega, Env.busOks_add, Bool.and_eq_true] at h
      have hcfg := (State.runOk_only (s.cfg.renderTxs (s.cfg.slotRect (n - (k+1))) (s.cfg.slotTile v k)) s).cfg
      obtain ⟨txs, hl, e⟩ := ih (s := s.runOk (s.cfg.renderTxs (s.cfg.slotRect (n - (k+1))) (s.cfg.slotTile v k))) (by rw [hcfg]; exact f) (by rw [hcfg]; exact hm) (j+1) (by omega) (by omega) (by rw [State.runOk_env]; exact h.2)
      refine ⟨s.cfg.renderTxs (s.cfg.slotRect (n - (k+1))) (s.cfg.slotTile v k) ++ txs, ?_, ?_⟩
      · rw [List.length_append, hl]; show 7 + _ = _; omega
      · rw [drawSlots, renderOp_ok hv h.1, andThen_ok, e, State.runOk_append]
    · exact ⟨[], by simp; omega, by rw [show n - m = k + 1 by omega]; rfl⟩

/-! ### Boot -/

/-- The transactions of a boot (R245). -/
def Cfg.bootTxs (c : Cfg) : List Tx := c.initTxs ++ (c.renderTxs c.fullRect (List.replicate c.totalBufLen 0) ++ Cfg.slotTxs c c.initialBpm c.digits c.digits)

/-- A boot on a bus that never fails. -/
theorem bootOp_ok {s : State} (hw : s.cfg.wf = true) (h : Env.busOks 54 s.env = true) : bootOp s = (s.runOk (Cfg.bootTxs s.cfg), .ok) := by
  have f := Cfg.facts hw
  rw [show 54 = 26 + (7 + 7 * 3) from rfl, Env.busOks_add, Env.busOks_add, Bool.and_eq_true, Bool.and_eq_true] at h
  unfold bootOp
  have e1 : initOp s = (s.runOk s.cfg.initTxs, .ok) := runTxs_ok s.cfg.initTxs 0 s h.1
  generalize hu : s.runOk s.cfg.initTxs = u at e1
  have hc : u.cfg = s.cfg := by rw [← hu]; exact (State.runOk_only _ s).cfg
  have he : u.env = Env.afterBus 26 s.env := by rw [← hu, State.runOk_env]; rfl
  have e2 : clearOp u = (u.runOk (u.cfg.renderTxs u.cfg.fullRect (List.replicate u.cfg.totalBufLen 0)), .ok) := renderOp_ok (Cfg.renderCheck_full (by rw [hc]; exact f)) (by rw [he]; exact h.2.1) 0
  generalize hu2 : u.runOk (u.cfg.renderTxs u.cfg.fullRect (List.replicate u.cfg.totalBufLen 0)) = w at e2
  have hc2 : w.cfg = s.cfg := by rw [← hu2]; exact (State.runOk_only _ u).cfg.trans hc
  have he2 : w.env = Env.afterBus 7 (Env.afterBus 26 s.env) := by rw [← hu2, State.runOk_env, he]; rfl
  have hfit : w.cfg.digits * w.cfg.glyphW + (w.cfg.digits - 1) ≤ w.cfg.width := by
    rw [hc2, f.digits]; have := f.digitsFit; omega
  have e3 : drawNumberOp w.cfg.initialBpm w.cfg.digits w = (w.runOk (Cfg.slotTxs s.cfg s.cfg.initialBpm s.cfg.digits s.cfg.digits), .ok) := by
    rw [drawNumberOp, drawSlots_txs (by rw [hc2]; exact f) hfit _ le_rfl, runTxs_ok, hc2]
    rw [Cfg.slotTxs_length, he2, hc2, f.digits]; exact h.2.2
  rw [e1]
  simp only [ignoreBusFailure, andThen_ok]
  rw [e2]
  simp only [andThen_ok]
  rw [e3]
  simp only
  rw [Cfg.bootTxs, State.runOk_append, State.runOk_append, hu, ← hu2, hc]

end Sys2Proof.Machine
end

