-- ==== Sys2Proof/Laws/Twins.lean ====
section
/-! SUPPORT. Laws of two runs: states that agree on what an operation reads agree on what it does. -/

namespace Sys2Proof.Machine

/-! ### States alike to a bus operation (R34) -/

/-- Agreement on the configuration and the transport. -/
structure Alike (s s' : State) : Prop where
  cfg : s.cfg = s'.cfg
  bus : s.env.bus = s'.env.bus
  draws : s.env.busDraws = s'.env.busDraws

/-- Two calls that returned the same status or hang in the same transaction, added the same traffic, and left the states
alike. -/
structure AlikeCall (s s' : State) (r r' : State × Status) : Prop where
  status : r.2 = r'.2
  inflight : (r.2 ≠ .noReturn ∧ r.1.inflight = s.inflight ∧ r'.1.inflight = s'.inflight) ∨
    (r.2 = .noReturn ∧ ∃ bytes, r.1.inflight = some bytes ∧ r'.1.inflight = some bytes)
  alike : Alike r.1 r'.1
  traffic : ∃ tr, r.1.events = s.events ++ tr ∧ r'.1.events = s'.events ++ tr

theorem AlikeCall.pure {s s' : State} (h : Alike s s') {st : Status} (hst : st ≠ .noReturn) :
    AlikeCall s s' (s, st) (s', st) :=
  ⟨rfl, .inl ⟨hst, rfl, rfl⟩, h, [], by simp, by simp⟩

theorem alike_write {s s' : State} (h : Alike s s') (k tx) : AlikeCall s s' (s.busWrite k tx) (s'.busWrite k tx) := by
  have e := Env.takeBus_congr h.bus h.draws
  have hc := h.cfg
  have hd := h.draws
  obtain ⟨a, b⟩ | ⟨n, a, b⟩ | ⟨n, a, b⟩ := s.busWrite_cases k tx
  all_goals
    obtain ⟨a', b'⟩ | ⟨n', a', b'⟩ | ⟨n', a', b'⟩ := s'.busWrite_cases k tx
    all_goals
      first
      | (exfalso; rw [e.1, a'] at a; simp at a; done)
      | (rw [b, b']
         rw [e.1, a'] at a
         refine ⟨rfl, ?_, ⟨by simp [hc], by simp [e.2], by simp [hd]⟩, ?_⟩
         · simp
         · simp [hc])

theorem alike_andThen {s s' : State} {r r'} {f f'} (h : AlikeCall s s' r r')
   (hf : ∀ u u', Alike u u' → AlikeCall u u' (f u) (f' u')) : AlikeCall s s' (andThen r f) (andThen r' f') := by
  obtain ⟨t, st⟩ := r; obtain ⟨t', st'⟩ := r'
  obtain ⟨h1, hi, h2, tr, h3, h4⟩ := h
  simp only at h1 hi h2 h3 h4
  subst h1
  cases st
  · obtain ⟨g1, gi, g2, tr', g3, g4⟩ := hf t t' h2
    simp only [ne_eq, reduceCtorEq, not_false_eq_true, true_and, false_and, or_false] at hi
    rw [hi.1, hi.2] at gi
    exact ⟨g1, gi, g2, tr ++ tr', by rw [andThen_ok, g3, h3, List.append_assoc], by rw [andThen_ok, g4, h4, List.append_assoc]⟩
  all_goals exact ⟨rfl, hi, h2, tr, h3, h4⟩

theorem alike_runTxs {s s' : State} (h : Alike s s') (k txs) : AlikeCall s s' (runTxs k txs s) (runTxs k txs s') := by
  induction txs generalizing k s s' with
  | nil => exact AlikeCall.pure h (by simp)
  | cons tx txs ih => exact alike_andThen (alike_write h k tx) fun u u' hu => ih hu _

theorem alike_render {s s' : State} (h : Alike s s') (k buf r) : AlikeCall s s' (renderOp k buf r s) (renderOp k buf r s') := by
  unfold renderOp
  rw [h.cfg]
  split
  · exact AlikeCall.pure h (by simp)
  · exact alike_runTxs h _ _

theorem alike_draw {s s' : State} (h : Alike s s') (v n k) : AlikeCall s s' (drawSlots v n k s) (drawSlots v n k s') := by
  induction k generalizing s s' with
  | zero => exact AlikeCall.pure h (by simp)
  | succ k ih =>
    unfold drawSlots
    rw [h.cfg]
    exact alike_andThen (alike_render h _ _ _) fun u u' hu => ih hu

/-! ### States alike to the display -/

/-- Agreement on the configuration, the environment, the events and the target. -/
structure SameDisplay (s s' : State) : Prop where
  cfg : s.cfg = s'.cfg
  env : s.env = s'.env
  events : s.events = s'.events
  target : s.target = s'.target

theorem sameDisplay_write {s s' : State} (h : SameDisplay s s') (k tx) : SameDisplay (s.busWrite k tx).1 (s'.busWrite k tx).1 ∧ (s.busWrite k tx).2 = (s'.busWrite k tx).2 := by
  obtain ⟨h1,h2,h3,h4⟩ := h
  unfold State.busWrite
  rw [h2]
  cases s'.env.takeBus.1 <;> simp only <;> refine ⟨⟨?_,?_,?_,?_⟩, ?_⟩ <;> simp [h1,h2,h3,h4]

theorem sameDisplay_andThen {r r' : State × Status} {f f'} (h : SameDisplay r.1 r'.1 ∧ r.2 = r'.2)
   (hf : ∀ u u', SameDisplay u u' → SameDisplay (f u).1 (f' u').1 ∧ (f u).2 = (f' u').2) : SameDisplay (andThen r f).1 (andThen r' f').1 ∧ (andThen r f).2 = (andThen r' f').2 := by
  obtain ⟨t, st⟩ := r; obtain ⟨t', st'⟩ := r'
  obtain ⟨h1, h2⟩ := h
  simp only at h1 h2
  subst h2
  cases st
  · exact hf t t' h1
  all_goals exact ⟨h1, rfl⟩

theorem sameDisplay_runTxs {s s' : State} (h : SameDisplay s s') (k txs) : SameDisplay (runTxs k txs s).1 (runTxs k txs s').1 ∧ (runTxs k txs s).2 = (runTxs k txs s').2 := by
  induction txs generalizing k s s' with
  | nil => exact ⟨h, rfl⟩
  | cons tx txs ih => exact sameDisplay_andThen (sameDisplay_write h k tx) fun u u' hu => ih hu _

theorem sameDisplay_draw {s s' : State} (h : SameDisplay s s') (v n k) : SameDisplay (drawSlots v n k s).1 (drawSlots v n k s').1 ∧ (drawSlots v n k s).2 = (drawSlots v n k s').2 := by
  induction k generalizing s s' with
  | zero => exact ⟨h, rfl⟩
  | succ k ih =>
    unfold drawSlots
    rw [h.cfg]
    refine sameDisplay_andThen ?_ fun u u' hu => ih hu
    unfold renderOp
    rw [h.cfg]
    split
    · exact ⟨h, rfl⟩
    · exact sameDisplay_runTxs h _ _

/-! ### States alike to the beat (R193) -/

/-- Agreement on everything but the display side: registers, pins, clock, and the pin and clock answers. -/
structure SameBeat (s s' : State) : Prop where
  cfg : s.cfg = s'.cfg
  enc : s.enc = s'.enc
  met : s.met = s'.met
  prev : s.prevCounter = s'.prevCounter
  out : s.out = s'.out
  clock : s.clock = s'.clock
  pins : s.env.pins = s'.env.pins
  pinD : s.env.pinDraws = s'.env.pinDraws
  adv : s.env.advances = s'.env.advances
  clkD : s.env.clockDraws = s'.env.clockDraws

end Sys2Proof.Machine
end

