-- ==== Sys2Proof/Tests/Slice0.lean ====
section
/-! SUPPORT. Tests: the checks of WellFormed, decodings of words written out from the tables of 30_encoding.md R95 and R98, one
step on the vectors of 95_test_vectors.md, and for every obligation with hypotheses a state and operands that meet them. -/

namespace Sys2Proof.Tests

open Sys2Proof Sys2Proof.Machine

/-! ### Helpers -/

/-- CFG_EX of 95_test_vectors.md: the defaults, with glyph bytes (d << 4) | k and a blank tile of zeros. -/
def exCfg : Cfg :=
  { Cfg.default with
    glyphs := ((List.range 10).map fun d => (List.range 8).map fun k => BitVec.ofNat 8 (16 * d + k))
      ++ [List.replicate 8 0] }

/-- A small configuration: one page of eight columns, tiles one column wide. -/
def smallCfg : Cfg :=
  { Cfg.default with
    width := 8, height := 8, glyphW := 1
    glyphs := ((List.range 10).map fun d => [BitVec.ofNat 8 (16 * d + 1)]) ++ [[0]] }

/-- A target that takes commands and data, its windows the one byte at page 0, column 0. -/
def exTarget (c : Cfg) : Target :=
  { Target.powerOn c with
    colStart := 0, colEnd := 0, pageStart := 0, pageEnd := 0, col := 0, page := 0
    displayOn := false, scrollActive := false, modeHorizontal := true, pending := none }

/-- The reset state of a configuration with the encoder's level low, `exTarget`, the clock at 0, `n` bus answers ok, and the
pin samples and clock advances given. -/
def start (c : Cfg) (n : Nat) (pins : List PinSample) (advances : List Nat) : State :=
  { State.resetWith c with
    enc := { (State.resetWith c).enc with lastClkLevel := .low }
    target := exTarget c
    clock := 0
    env := { (State.resetWith c).env with
      bus := List.replicate n .ok, pins := pins, advances := advances } }

/-- `s` with these bus answers. -/
def withBus (s : State) (l : List BusAnswer) : State := { s with env := { s.env with bus := l } }

/-- `s` at this position of the sequencer. -/
def atPos (s : State) (p : SeqPos) : State := { s with pos := p }

/-- `n` answers ok, then a bus_error with nothing taken. -/
def failsAt (n : Nat) : List BusAnswer := List.replicate n .ok ++ [.busError 0]

/-- A field of the next state an instruction answers. -/
def look {α : Type} (i : Instr) (s : State) (f : State → α) : Option α :=
  match exec i s with
  | .next t => some (f t)
  | _ => none

/-- C:xx of R103 under the defaults. -/
def cmdOk (b : Byte) : Event := .bus 0x3C [0x80, b] true

/-- Three pin levels. -/
def sample (clk data btn : Level) : PinSample := { clk := clk, data := data, btn := btn }

/-- The knob at rest, the button up. -/
def rest : PinSample := sample .low .low .high

/-! ### WellFormed -/

theorem test_wf_negative_number : (Instr.drawNumber (-1) 3).wellFormed = false := by decide
theorem test_wf_number_too_large : (Instr.drawNumber 4294967296 3).wellFormed = false := by decide
theorem test_wf_digits_too_many : (Instr.drawNumber 7 4294967296).wellFormed = false := by decide
theorem test_wf_buffer_too_long (buf : List Byte) (h : buf.length = fieldLimit) :
    (Instr.sendPixelBuffer buf).wellFormed = false := by
  show bufferFits buf = false
  unfold bufferFits
  exact decide_eq_false (by omega)
theorem test_wf_render_too_long (buf : List Byte) (h : buf.length = fieldLimit) (a : Area) :
    (Instr.render buf a).wellFormed = false := by
  show bufferFits buf = false
  unfold bufferFits
  exact decide_eq_false (by omega)

/-! ### Decoding: words from the tables of R98 and R95 -/

theorem test_decode_compute_buffer_length :
    decode [0b00000000, 10, 11, 1, 2] = .ok (.computeBufferLength ⟨10, 11, 1, 2⟩, []) := by rfl
theorem test_decode_send_command : decode [0b00000001, 0xAE] = .ok (.sendCommand 0xAE, []) := by rfl
theorem test_decode_send_pixel_buffer :
    decode [0b00000010, 0, 0, 0, 3, 1, 2, 3, 9] = .ok (.sendPixelBuffer [1, 2, 3], [9]) := by
  decide
theorem test_decode_init : decode [0b00000011] = .ok (.init, []) := by rfl
theorem test_decode_render :
    decode [0b00000100, 10, 11, 1, 2, 0, 0, 0, 4, 0x41, 0x42, 0x43, 0x44]
      = .ok (.render [0x41, 0x42, 0x43, 0x44] ⟨10, 11, 1, 2⟩, []) := by decide
theorem test_decode_clear : decode [0b00000101] = .ok (.clear, []) := by rfl
theorem test_decode_draw_number :
    decode [0b00000110, 0, 0, 1, 44, 0, 0, 0, 3] = .ok (.drawNumber 300 3, []) := by rfl
theorem test_decode_poll : decode [0b00000111] = .ok (.poll, []) := by rfl
theorem test_decode_tick : decode [0b00001000] = .ok (.tick, []) := by rfl
theorem test_decode_disp_off : decodeTableWord 16 0b1000000010101110 = some .dispOff := by rfl
theorem test_decode_mem_mode : decode [0b10000000, 0b00100000, 1] = .ok (.memMode 1, []) := by rfl
theorem test_decode_start_line : decodeTableWord 16 0b1000000001000000 = some .startLine := by rfl
theorem test_decode_seg_remap : decodeTableWord 16 0b1000000010100001 = some .segRemap := by rfl
theorem test_decode_com_dir : decodeTableWord 16 0b1000000011001000 = some .comDir := by rfl
theorem test_decode_mux_ratio :
    decode [0b10000000, 0b10101000, 0x1F] = .ok (.muxRatio 0x1F, []) := by rfl
theorem test_decode_disp_offset :
    decode [0b10000000, 0b11010011, 5] = .ok (.dispOffset 5, []) := by rfl
theorem test_decode_com_pins : decode [0b10000000, 0b11011010, 2] = .ok (.comPins 2, []) := by rfl
theorem test_decode_clk_div :
    decode [0b10000000, 0b11010101, 0x80] = .ok (.clkDiv 0x80, []) := by rfl
theorem test_decode_precharge :
    decode [0b10000000, 0b11011001, 0xF1] = .ok (.precharge 0xF1, []) := by rfl
theorem test_decode_vcomh : decode [0b10000000, 0b11011011, 0x30] = .ok (.vcomh 0x30, []) := by rfl
theorem test_decode_contrast :
    decode [0b10000000, 0b10000001, 0xFF] = .ok (.contrast 0xFF, []) := by rfl
theorem test_decode_entire_on_ram :
    decodeTableWord 16 0b1000000010100100 = some .entireOnRam := by rfl
theorem test_decode_normal : decodeTableWord 16 0b1000000010100110 = some .normal := by rfl
theorem test_decode_charge_pump :
    decode [0b10000000, 0b10001101, 0x14] = .ok (.chargePump 0x14, []) := by rfl
theorem test_decode_scroll_off : decodeTableWord 16 0b1000000000101110 = some .scrollOff := by rfl
theorem test_decode_disp_on : decodeTableWord 16 0b1000000010101111 = some .dispOn := by rfl
theorem test_decode_col_addr :
    decode [0b10000000, 0b00100001, 10, 11] = .ok (.colAddr 10 11, []) := by rfl
theorem test_decode_page_addr :
    decode [0b10000000, 0b00100010, 1, 2] = .ok (.pageAddr 1 2, []) := by rfl
theorem test_decode_reserved :
    decode [0b00001001] = .error (.reservedLabel 9) ∧ decode [0x40, 1] = .error (.unknownFormat 0x40) ∧
      decode [0x80, 0xAD] = .error (.unknownCommand 0xAD) ∧ decode [0b00000001] = .error .truncated ∧
      decode [] = .error .empty := ⟨rfl, rfl, rfl, rfl, rfl⟩

/-- What the host asks of the first step after reset, for a label row and a CMD row. -/
theorem test_first_step :
    (∃ t, step (State.reset.withFetchWord 8 0b0111) = .next t) ∧
    (∃ t, step (State.reset.withFetchWord 16 0b1000000010101110) = .next t) := ⟨⟨_, rfl⟩, ⟨_, rfl⟩⟩

/-! ### Configurations -/

theorem test_cfg_defaults : Cfg.default.wf = true ∧ exCfg.wf = true ∧ smallCfg.wf = true := by decide
theorem test_cfg_checks :
    { exCfg with width := 257 }.wf = false ∧ { exCfg with height := 36 }.wf = false ∧
    { exCfg with glyphW := 43 }.wf = false ∧ { exCfg with digitPage := 4 }.wf = false ∧
    { exCfg with clkPin := 1 }.wf = false ∧ { exCfg with initialBpm := 0 }.wf = false ∧
    { exCfg with initialBpm := 301 }.wf = false ∧ { exCfg with tsW := 26 }.wf = false ∧
    { exCfg with cntW := 1 }.wf = false ∧ { exCfg with ctrlData := 0x80 }.wf = false ∧
    { exCfg with glyphs := [] }.wf = false ∧ { exCfg with bpmMax := 299 }.wf = false := by decide

/-! ### compute_buffer_length: V-A7, V-A8, V-A9, V-A11 -/

theorem test_buffer_length :
    look (.computeBufferLength ⟨10, 11, 1, 2⟩) (start exCfg 0 [] []) State.ret = some (.length 4) ∧
    look (.computeBufferLength ⟨0, 255, 0, 0⟩) (start exCfg 0 [] []) State.ret = some (.length 256) ∧
    look (.computeBufferLength ⟨0, 255, 0, 255⟩) (start exCfg 0 [] []) State.ret = some (.length 65536) := by
  decide
theorem test_buffer_length_invalid :
    look (.computeBufferLength ⟨3, 2, 0, 0⟩) (start exCfg 0 [] []) State.pos = some .fault := by decide

/-! ### send_command, send_pixel_buffer: V-C4, V-C5, V-D1, V-D2 -/

theorem test_send_command :
    look (.sendCommand 0x80) (start exCfg 1 [] []) (fun t => (t.events, t.ret))
      = some ([cmdOk 0x80], .status .ok) := by decide
theorem test_send_command_fails :
    look (.sendCommand 0x7F) (withBus (start exCfg 0 [] []) [.busError 2, .ok])
      (fun t => (t.events, t.ret, t.env.bus))
      = some ([.bus 0x3C [0x80, 0x7F] false], .status (.busFailure 0 0x7F), [.ok]) := by decide
theorem test_send_pixel_buffer :
    look (.sendPixelBuffer [1, 2, 3]) (start exCfg 1 [] []) State.events
      = some [.bus 0x3C [0x40, 1, 2, 3] true] := by decide
theorem test_send_pixel_buffer_empty :
    look (.sendPixelBuffer []) (start exCfg 1 [] []) (fun t => (t.events, t.ret))
      = some ([.bus 0x3C [0x40] true], .status .ok) := by decide

/-! ### init: V-I1, V-I3 -/

theorem test_init :
    look .init (start exCfg 26 [] []) State.events
      = some ([0xAE, 0x20, 0x00, 0x40, 0xA1, 0xC8, 0xA8, 0x1F, 0xD3, 0x00, 0xDA, 0x02, 0xD5,
        0x80, 0xD9, 0xF1, 0xDB, 0x30, 0x81, 0xFF, 0xA4, 0xA6, 0x8D, 0x14, 0x2E, 0xAF].map cmdOk) := by
  decide
theorem test_init_fails :
    look .init (withBus (start exCfg 0 [] []) (failsAt 7)) (fun t => (t.events, t.ret))
      = some ([0xAE, 0x20, 0x00, 0x40, 0xA1, 0xC8, 0xA8].map cmdOk ++ [.bus 0x3C [0x80, 0x1F] false],
        .status (.busFailure 7 0x1F)) := by decide

/-! ### render: V-R1, V-R8; V-R3, V-R5, V-R6, V-R7 -/

theorem test_render :
    look (.render [0x41, 0x42, 0x43, 0x44] ⟨10, 11, 1, 2⟩) (start exCfg 7 [] [])
      (fun t => (t.events, t.target.ramAt exCfg 1 11, t.target.ramAt exCfg 2 10, t.target.page,
        t.target.col))
      = some ([0x21, 0x0A, 0x0B, 0x22, 0x01, 0x02].map cmdOk ++
          [.bus 0x3C [0x40, 0x41, 0x42, 0x43, 0x44] true], some 0x42, some 0x43, 1, 10) := by decide +kernel
theorem test_render_rejects :
    look (.render [1, 2, 3] ⟨10, 11, 1, 2⟩) (start exCfg 7 [] []) State.ret
      = some (.status (.contractViolation .lengthMismatch)) ∧
    look (.render (List.replicate 11 0) ⟨120, 130, 0, 0⟩) (start exCfg 7 [] []) State.ret
      = some (.status (.contractViolation .areaOutsideDisplay)) ∧
    look (.render [] ⟨5, 4, 0, 0⟩) (start exCfg 7 [] []) (fun t => (t.ret, t.events))
      = some (.status (.contractViolation .invalidArea), []) := by decide

/-! ### clear: V-L1's stream on the small display, V-L4 -/

theorem test_clear :
    look .clear (start smallCfg 7 [] []) (fun t => (t.events, t.target.ramAt smallCfg 0 7))
      = some ([0x21, 0x00, 0x07, 0x22, 0x00, 0x00].map cmdOk ++
          [.bus 0x3C [0x40, 0, 0, 0, 0, 0, 0, 0, 0] true], some 0) := by decide
theorem test_clear_fails :
    look .clear (withBus (start smallCfg 0 [] []) (failsAt 1)) (fun t => (t.events, t.ret))
      = some ([cmdOk 0x21, .bus 0x3C [0x80, 0x00] false], .status (.busFailure 1 0)) := by decide

/-! ### draw_number: V-N12, V-N9 -/

theorem test_draw_number :
    look (.drawNumber 7 3) (start exCfg 21 [] []) State.events
      = some ([0x21, 0x00, 0x07, 0x22, 0x00, 0x00].map cmdOk ++
          [.bus 0x3C [0x40, 0, 0, 0, 0, 0, 0, 0, 0] true] ++
          [0x21, 0x09, 0x10, 0x22, 0x00, 0x00].map cmdOk ++
          [.bus 0x3C [0x40, 0, 0, 0, 0, 0, 0, 0, 0] true] ++
          [0x21, 0x12, 0x19, 0x22, 0x00, 0x00].map cmdOk ++
          [.bus 0x3C [0x40, 0x70, 0x71, 0x72, 0x73, 0x74, 0x75, 0x76, 0x77] true]) := by decide
theorem test_draw_number_high_digits :
    look (.drawNumber 1034 3) (start smallCfg 21 [] [])
      (fun t => [0, 2, 4].map (t.target.ramAt smallCfg 0))
      = some [some 0x01, some 0x31, some 0x41] := by decide

/-! ### poll: V-Q2 with V-B2, V-Q10 -/

theorem test_poll :
    look .poll (start exCfg 0 [sample .high .high .low] [1000000]) (fun t => (t.enc, t.ret, t.clock))
      = some ({ counter := -1, lastClkLevel := .high, lastDirection := .ccw
                lastButtonPressTimestamp := 1000000 }, .press true, 1001000) := by decide
theorem test_poll_wraps :
    look .poll { start exCfg 0 [sample .high .low .high] [0] with
        enc := { (start exCfg 0 [] []).enc with counter := 2147483647 } } (fun t => t.enc.counter)
      = some (-2147483648) := by decide

/-! ### tick: V-T1 with a failing bus (V-T1, R193), V-P7 -/

theorem test_tick_retempo :
    look .tick { withBus (start smallCfg 0 [sample .high .low .high] [0, 0, 0]) (failsAt 0) with
        met := { (start smallCfg 0 [] []).met with enabled := false } }
      (fun t => (t.met.bpm, t.met.beatIntervalUs, t.prevCounter, t.pos, t.events))
      = some (61, 983606, 1, .s1, [.bus 0x3C [0x80, 0x21] false]) := by decide
theorem test_tick_beats :
    look .tick { start smallCfg 0 [rest] [5999000, 0, 50001] with
        met := { (start smallCfg 0 [] []).met with lastBeatTimestamp := 5000000 } }
      (fun t => (t.met.lastBeatTimestamp, t.met.pulseActive, t.out, t.events))
      = some (6000000, false, { led := .low, sol := .low },
        [.pin 3 .high, .pin 4 .high, .pin 3 .low, .pin 4 .low]) := by decide

/-! ### The controller commands, at the target (R63 to R67) -/

theorem test_flag_commands :
    look .dispOn (start exCfg 1 [] []) (fun t => (t.events, t.target.displayOn)) = some ([cmdOk 0xAF], true) ∧
    look .dispOff (start exCfg 1 [] []) (fun t => (t.events, t.target.displayOn)) = some ([cmdOk 0xAE], false) ∧
    look .scrollOff (start exCfg 1 [] []) (fun t => (t.events, t.target.scrollActive))
      = some ([cmdOk 0x2E], false) ∧
    look (.memMode 2) (start exCfg 2 [] []) (fun t => (t.events, t.target.modeHorizontal, t.target.lost))
      = some ([cmdOk 0x20, cmdOk 2], false, some .reservedParameter) := by decide

/-- `s` with the target waiting for a parameter. -/
def waiting (s : State) (p : Pending) : State := { s with target := { s.target with pending := some p } }

/-- C:21 C:2E C:40 (R96): the opcodes of SCROLL_OFF and START_LINE in the positions of COL_ADDR's parameters. -/
theorem test_by_position :
    look (.sendCommand 0x21) (start exCfg 1 [] []) (fun t => t.target.pending) = some (some ⟨.colAddr, [], false⟩) ∧
    look .scrollOff (waiting (start exCfg 1 [] []) ⟨.colAddr, [], false⟩) (fun t => t.target.pending)
      = some (some ⟨.colAddr, [0x2E], false⟩) ∧
    look .startLine (waiting (start exCfg 1 [] []) ⟨.colAddr, [0x2E], false⟩)
      (fun t => (t.target.pending, t.target.colStart, t.target.colEnd, t.target.lost))
      = some (none, 46, 64, none) := by decide
/-- U6: an operation cut after its opcode, and the opcode after it. -/
theorem test_cut :
    look (.contrast 6) (withBus (start { exCfg with failedTxn := .none } 0 [] []) (failsAt 1))
      (fun t => t.target.pending) = some (some ⟨.contrast, [], true⟩) ∧
    look .dispOn (waiting (start exCfg 1 [] []) ⟨.contrast, [], true⟩) (fun t => t.target.lost)
      = some (some .misparsed) ∧
    look (.sendCommand 6) (waiting (start exCfg 1 [] []) ⟨.contrast, [], true⟩) (fun t => t.target.lost)
      = some (some .misparsed) := by decide
/-- C:20 C:AE, the second byte by send_command, then by DISP_OFF: MEM_MODE's parameter by position in both (R96, U15). -/
theorem test_mode_by_position :
    ([.sendCommand 0xAE, .dispOff].map fun i => look i (waiting (start exCfg 1 [] []) ⟨.memMode, [], false⟩)
      fun t => (t.target.pending, t.target.modeHorizontal, t.target.lost))
      = List.replicate 2 (some (none, false, some .reservedParameter)) := by decide
theorem test_window_commands :
    look (.colAddr 10 127) (start exCfg 3 [] [])
      (fun t => (t.events, t.target.colStart, t.target.colEnd, t.target.col))
      = some ([cmdOk 0x21, cmdOk 10, cmdOk 127], 10, 127, 10) ∧
    look (.pageAddr 1 3) (start exCfg 3 [] [])
      (fun t => (t.events, t.target.pageStart, t.target.pageEnd, t.target.page))
      = some ([cmdOk 0x22, cmdOk 1, cmdOk 3], 1, 3, 1) ∧
    look (.colAddr 0 128) (start exCfg 3 [] []) (fun t => t.target.lost) = some (some .windowOutOfRange) := by
  decide
theorem test_plain_settings :
    ([.startLine, .segRemap, .comDir, .entireOnRam, .normal].map fun i =>
        (look i (start exCfg 1 [] []) fun t => (t.events, t.target.received)))
      = [some ([cmdOk 0x40], [(.startLine, [])]), some ([cmdOk 0xA1], [(.segRemap, [])]),
         some ([cmdOk 0xC8], [(.comDir, [])]), some ([cmdOk 0xA4], [(.entireOnRam, [])]),
         some ([cmdOk 0xA6], [(.normal, [])])] := by decide
theorem test_parameter_settings :
    ([.muxRatio 31, .dispOffset 1, .comPins 2, .clkDiv 3, .precharge 4, .vcomh 5, .contrast 6,
        .chargePump 7].map fun i =>
        (look i (start exCfg 2 [] []) fun t => (t.events, t.target.received)))
      = [some ([cmdOk 0xA8, cmdOk 31], [(.muxRatio, [31])]),
         some ([cmdOk 0xD3, cmdOk 1], [(.dispOffset, [1])]),
         some ([cmdOk 0xDA, cmdOk 2], [(.comPins, [2])]),
         some ([cmdOk 0xD5, cmdOk 3], [(.clkDiv, [3])]),
         some ([cmdOk 0xD9, cmdOk 4], [(.precharge, [4])]),
         some ([cmdOk 0xDB, cmdOk 5], [(.vcomh, [5])]),
         some ([cmdOk 0x81, cmdOk 6], [(.contrast, [6])]),
         some ([cmdOk 0x8D, cmdOk 7], [(.chargePump, [7])])] := by decide
theorem test_image_bits :
    Target.pixel exCfg { exTarget exCfg with ram := [(128, 0b00000100)] } 0 10 = some true ∧
    Target.pixel exCfg { exTarget exCfg with ram := [(128, 0b00000100)] } 0 9 = some false := by decide

/-! ### Witnesses: for each obligation with hypotheses, a state and operands that meet all of them -/

/-- The range of a counter, as a decidable proposition. -/
theorem inRange {c : Cfg} {x : Int}
    (h : -((2 ^ (c.cntW - 1) : Nat) : Int) ≤ x ∧ x < ((2 ^ (c.cntW - 1) : Nat) : Int)) :
    inCounterRange c x := h

/-- The invariants hold of every `start` of the small configuration. -/
theorem inv_start (n : Nat) (pins : List PinSample) (advances : List Nat) :
    Inv (start smallCfg n pins advances) :=
  have base : Inv (start smallCfg 0 [] []) :=
    { cfgWf := by decide, bpmLow := by decide, bpmHigh := by decide, interval := by decide
      outputsEqual := rfl, outputsPulse := by decide
      counterRange := inRange (by decide), prevRange := inRange (by decide)
      buttonTimeRange := by decide, beatTimeRange := by decide, ramWf := by decide, ramAddrs := by decide }
  { base with }

theorem witness_DecodeReadsEncodedInstruction :
    (Instr.drawNumber 4294967295 4294967295).wellFormed = true ∧
    (Instr.render [1] ⟨0, 0, 0, 0⟩).wellFormed = true := by decide
theorem witness_ReservedEncodingsRefused :
    ({ start exCfg 0 [] [] with prog := [9] }.runnable = true ∧ 9 ≤ (9 : Byte).toNat ∧ (9 : Byte).toNat < 16) ∧
    (9 ≤ (15 : Byte).toNat ∧ (15 : Byte).toNat < 16) ∧
    ({ start exCfg 0 [] [] with prog := [16] }.runnable = true ∧ 16 ≤ (16 : Byte).toNat ∧
      (16 : Byte).toNat ≠ 0x80) ∧
    (16 ≤ (255 : Byte).toNat ∧ (255 : Byte).toNat ≠ 0x80) ∧
    ({ start exCfg 0 [] [] with prog := [0x80, 0] }.runnable = true ∧ (0x80 : Byte).toNat = 0x80 ∧
      ∀ k ∈ Cmd.all, k.tableOpcode ≠ 0) := by decide
theorem witness_StepRunsDecodedInstruction :
    ({ start exCfg 0 [] [] with prog := [7] }.runnable = true ∧ decode [7] = .ok (.poll, [])) ∧
    ((start exCfg 0 [] []).runnable = true ∧ (start exCfg 0 [] []).prog = []) := by decide
theorem witness_IllFormedConfigurationRefused :
    (start { exCfg with cntW := 1 } 0 [] []).cfg.wf = false := by decide
theorem witness_StoppedBlockTakesNoStep :
    (start exCfg 0 [] []).cfg.wf = true ∧
    { start exCfg 0 [] [] with inflight := some [0x80, 0] }.inflight = some [0x80, 0] ∧
    (atPos (start exCfg 0 [] []) .fault).inflight = none ∧
    (atPos (start exCfg 0 [] []) .fault).pos = .fault := by decide
theorem witness_ResetValues :
    { exCfg with initialBpm := 1 }.wf = true ∧ { exCfg with initialBpm := 300 }.wf = true := by decide
theorem witness_ResetMeetsInvariants : smallCfg.wf = true := by decide
theorem witness_StepKeepsInvariants :
    ∃ s t, Inv s ∧ step s = .next t := ⟨start smallCfg 54 [] [], _, inv_start _ _ _, rfl⟩
theorem witness_OwnRunSeesTheCounter :
    ∃ s t, s.prog = [] ∧ CounterSeen s ∧ step s = .next t :=
  ⟨start smallCfg 54 [] [], _, rfl, fun _ => rfl, rfl⟩
theorem witness_OwnRunNeverFaults :
    Inv (start smallCfg 54 [] []) ∧ (start smallCfg 54 [] []).runnable = true ∧
    (start smallCfg 54 [] []).prog = [] := ⟨inv_start _ _ _, by decide, rfl⟩
theorem witness_ConfigurationNeverWritten :
    (∃ t, exec .tick (start smallCfg 0 [rest] [0, 0, 0]) = .next t) ∧
    (∃ t, step (start smallCfg 54 [] []) = .next t) := ⟨⟨_, rfl⟩, ⟨_, rfl⟩⟩
theorem witness_OneWriterForEachRegister :
    (∃ t, exec .init (start smallCfg 26 [] []) = .next t ∧ Instr.init ≠ .poll ∧ Instr.init ≠ .tick) ∧
    (∃ t, exec .poll (start smallCfg 0 [rest] [0]) = .next t ∧ Instr.poll ≠ .tick) :=
  ⟨⟨_, rfl, by decide, by decide⟩, ⟨_, rfl, by decide⟩⟩
theorem witness_BusOperationsLeaveTheBlockAlone :
    (∃ t, usesBusOnly .clear = true ∧ exec .clear (start smallCfg 7 [] []) = .next t ∧
      t.pos = (start smallCfg 7 [] []).pos) ∧
    (∃ t, usesBusOnly (.drawNumber 7 5) = true ∧ exec (.drawNumber 7 5) (start smallCfg 35 [] []) = .next t ∧
      t.pos = .fault) := ⟨⟨_, rfl, rfl, by decide⟩, ⟨_, rfl, rfl, by decide⟩⟩
theorem witness_CommandsStoreNothing :
    ∃ t, usesBusOnly (.colAddr 0 7) = true ∧ smallCfg.ctrlCmd ≠ smallCfg.ctrlData ∧
      exec (.colAddr 0 7) (start smallCfg 3 [] []) = .next t ∧ t.target.lost = none :=
  ⟨_, rfl, by decide, rfl, by decide⟩
theorem witness_ClockMovesForward :
    (∃ t, step (start smallCfg 54 [] []) = .next t) ∧
    (∃ t, exec .tick (start smallCfg 0 [rest] [0, 0, 0]) = .next t) := ⟨⟨_, rfl⟩, ⟨_, rfl⟩⟩
theorem witness_BufferLengthOfValidArea :
    (255 : Byte).toNat ≤ (255 : Byte).toNat ∧ (0 : Byte).toNat ≤ (255 : Byte).toNat := by decide
theorem witness_BufferLengthOfInvalidArea :
    (2 : Byte).toNat < (3 : Byte).toNat ∧ (0 : Byte).toNat < (1 : Byte).toNat := by decide
theorem witness_SendCommandTransmitsOnce :
    (start exCfg 1 [] []).env.takeBus.1 = .ok ∧
    (withBus (start exCfg 0 [] []) [.busError 1]).env.takeBus.1 = .busError 1 ∧
    (withBus (start exCfg 0 [] []) [.stall 0]).env.takeBus.1 = .stall 0 ∧
    (start exCfg 1 [] []).cfg.wf = true := by decide
theorem witness_SendPixelBufferTransmitsOnce :
    (start exCfg 1 [] []).env.takeBus.1 = .ok ∧
    (withBus (start exCfg 0 [] []) [.busError 4]).env.takeBus.1 = .busError 4 ∧
    (withBus (start exCfg 0 [] []) [.stall 2]).env.takeBus.1 = .stall 2 := by decide

/-- A rectangle of two columns on page 0, and a target whose window and pointer it is. -/
def twoColumns : Rect := { startCol := 6, endCol := 7, startPage := 0, endPage := 0 }

/-- The state of `start` with the window of `twoColumns`. -/
def windowed : State :=
  { start smallCfg 1 [] [] with target := { exTarget smallCfg with colStart := 6, colEnd := 7, col := 7 } }

theorem witness_PixelDataFillsTheWindow :
    windowed.env.takeBus.1 = .ok ∧ windowed.cfg.ctrlCmd ≠ windowed.cfg.ctrlData ∧
    windowed.target.ready = true ∧ twoColumns.startCol ≤ twoColumns.endCol ∧
    twoColumns.endCol < windowed.cfg.width ∧ twoColumns.startPage ≤ twoColumns.endPage ∧
    twoColumns.endPage < windowed.cfg.pages ∧ windowed.target.colStart = twoColumns.startCol ∧
    windowed.target.colEnd = twoColumns.endCol ∧ windowed.target.pageStart = twoColumns.startPage ∧
    windowed.target.pageEnd = twoColumns.endPage ∧
    -- the pointer one byte into the window
    windowed.target.col = twoColumns.startCol + 1 % twoColumns.ncols ∧
    windowed.target.page = twoColumns.startPage + 1 / twoColumns.ncols % twoColumns.npages ∧
    -- byte 1 of a payload of three is the first that is not written over, byte 0 is; page 0, column 5 is outside
    3 ≤ 1 + twoColumns.ncols * twoColumns.npages ∧ ¬ 3 ≤ 0 + twoColumns.ncols * twoColumns.npages ∧
    (∀ k, k < 3 → ¬ (0 = twoColumns.startPage + (1 + k) / twoColumns.ncols % twoColumns.npages ∧
      5 = twoColumns.startCol + (1 + k) % twoColumns.ncols)) := by decide
theorem witness_ScrollingWriteForgetsRam :
    (start smallCfg 1 [] []).env.takeBus.1 = .ok ∧ { exTarget smallCfg with scrollActive := true }.listening = true ∧
    { exTarget smallCfg with scrollActive := true }.modeHorizontal = true ∧
    { exTarget smallCfg with scrollActive := true }.scrollActive = true := by decide
theorem witness_InitSendsItsSequence : Env.busOks 26 (start exCfg 26 [] []).env = true := by decide
theorem witness_InitStopsAtFirstFailure :
    (∀ k ∈ [0, 7, 25], Env.busOks k (withBus (start exCfg 0 [] []) (failsAt k)).env = true ∧
      (Env.afterBus k (withBus (start exCfg 0 [] []) (failsAt k)).env).takeBus.1 = .busError 0) ∧
    exCfg.seqInit[0]? = some 0xAE ∧ exCfg.seqInit[7]? = some 0x1F ∧ exCfg.seqInit[25]? = some 0xAF := by
  decide
theorem witness_DriverHoldsNoState :
    (∃ s s' t t', usesBusOnly (.render [1] ⟨0, 0, 0, 0⟩) = true ∧ s.cfg = s'.cfg ∧ s.env.bus = s'.env.bus ∧
      s.env.busDraws = s'.env.busDraws ∧ exec (.render [1] ⟨0, 0, 0, 0⟩) s = .next t ∧ exec (.render [1] ⟨0, 0, 0, 0⟩) s' = .next t' ∧
      s.ret ≠ s'.ret) ∧ Env.busOks 52 (start exCfg 52 [] []).env = true :=
  ⟨⟨start smallCfg 7 [] [], { start smallCfg 7 [] [] with ret := .press true }, _, _, rfl, rfl, rfl, rfl,
    rfl, rfl, by decide⟩, by decide⟩
theorem witness_InitConfiguresTheTarget :
    Env.busOks 26 (start exCfg 26 [] []).env = true ∧ exCfg.ctrlCmd ≠ exCfg.ctrlData ∧
    exCfg.opcodesDistinct = true ∧ (exTarget exCfg).listening = true := by decide
theorem witness_RenderRejectsBadOperands :
    -- the first check at its boundary, then the second with the first met, then the third, then none
    (4 : Byte).toNat < (5 : Byte).toNat ∧ exCfg.width - 1 < (128 : Byte).toNat ∧
    exCfg.pages - 1 < (4 : Byte).toNat ∧ exCfg.renderCheck ⟨127, 127, 3, 3⟩ 2 = some .lengthMismatch ∧
    exCfg.renderCheck ⟨127, 127, 3, 3⟩ 1 = none := by decide
theorem witness_RenderSendsWindowsThenPixels :
    exCfg.renderCheck (Area.rect ⟨10, 11, 1, 2⟩) [0x41, 0x42, 0x43, 0x44].length = none ∧
    Env.busOks 7 (start exCfg 7 [] []).env = true := by decide
theorem witness_RenderFillsItsArea :
    exCfg.wf = true ∧ exCfg.opcodesDistinct = true ∧
    exCfg.renderCheck (Area.rect ⟨10, 11, 1, 2⟩) [0x41, 0x42, 0x43, 0x44].length = none ∧
    Env.busOks 7 (start exCfg 7 [] []).env = true ∧ (exTarget exCfg).ready = true := by decide
theorem witness_RenderStopsAtFirstFailure :
    (∀ j ∈ [0, 5, 6], exCfg.renderCheck (Area.rect ⟨127, 127, 3, 3⟩) [0xEE].length = none ∧
      exCfg.ctrlCmd ≠ exCfg.ctrlData ∧ j < 7 ∧
      Env.busOks j (withBus (start exCfg 0 [] []) (failsAt j)).env = true ∧
      (Env.afterBus j (withBus (start exCfg 0 [] []) (failsAt j)).env).takeBus.1 = .busError 0) ∧
    look (.render [0xEE] ⟨127, 127, 3, 3⟩) (withBus (start exCfg 0 [] []) (failsAt 5))
      (fun t => t.target.lost) = some none := by decide
theorem witness_RenderTwiceSameRam :
    ∃ s t u, Inv s ∧ s.cfg.opcodesDistinct = true ∧
      s.cfg.renderCheck (Area.rect ⟨0, 1, 0, 0⟩) [0x41, 0x42].length = none ∧
      Env.busOks 14 s.env = true ∧ s.target.ready = true ∧
      exec (.render [0x41, 0x42] ⟨0, 1, 0, 0⟩) s = .next t ∧
      exec (.render [0x41, 0x42] ⟨0, 1, 0, 0⟩) t = .next u :=
  ⟨start smallCfg 14 [] [], _, _, inv_start _ _ _, by decide, by decide, by decide, by decide, rfl, rfl⟩
theorem witness_ClearZeroesTheDisplay :
    exCfg.wf = true ∧ Env.busOks 7 (start exCfg 7 [] []).env = true ∧ exCfg.opcodesDistinct = true ∧
    (exTarget exCfg).ready = true ∧ 3 < exCfg.pages ∧ 127 < exCfg.width ∧
    (∀ j ∈ [0, 6], j < 7 ∧ Env.busOks j (withBus (start exCfg 0 [] []) (failsAt j)).env = true ∧
      (Env.afterBus j (withBus (start exCfg 0 [] []) (failsAt j)).env).takeBus.1 = .busError 0) := by decide
theorem witness_DrawNumberRendersItsSlots :
    exCfg.wf = true ∧ 14 * exCfg.glyphW + (14 - 1) ≤ exCfg.width ∧
    Env.busOks (7 * 14) (start exCfg 98 [] []).env = true ∧ (7 < 10 ^ (3 - 1 - 1) ∧ 1 ≠ 3 - 1) ∧
    ¬ (10 < 10 ^ (3 - 1 - 1) ∧ 1 ≠ 3 - 1) := by decide
theorem witness_DrawNumberShowsItsDigits :
    exCfg.wf = true ∧ exCfg.opcodesDistinct = true ∧ 3 * exCfg.glyphW + (3 - 1) ≤ exCfg.width ∧
    Env.busOks (7 * 3) (start exCfg 21 [] []).env = true ∧ (exTarget exCfg).ready = true ∧ 7 < exCfg.glyphW := by
  decide
theorem witness_DrawNumberTooWideFaults :
    exCfg.wf = true ∧ 14 < 16 ∧ 14 * exCfg.glyphW + (14 - 1) ≤ exCfg.width ∧
    exCfg.width < (14 + 1) * exCfg.glyphW + 14 ∧
    Env.busOks (7 * 14) (start exCfg 98 [] []).env = true := by decide
theorem witness_DrawNumberStopsAtFirstFailure :
    ∀ j ∈ [0, 9, 20], exCfg.wf = true ∧ 3 * exCfg.glyphW + (3 - 1) ≤ exCfg.width ∧ j < 7 * 3 ∧
      Env.busOks j (withBus (start exCfg 0 [] []) (failsAt j)).env = true ∧
      (Env.afterBus j (withBus (start exCfg 0 [] []) (failsAt j)).env).takeBus.1 = .busError 0 := by decide
theorem witness_NegativeNumberRefused : (-1 : Int) < 0 := by decide

/-- A rising edge with data low and the button low, the clock at `t`. -/
def pressing (t : Nat) : State := start smallCfg 0 [sample .high .low .low] [t]

theorem witness_PollDecodesQuadrature :
    (inCounterRange exCfg 2147483647 ∧ inCounterRange exCfg (-2147483648)) ∧ 2 ≤ exCfg.cntW ∧
    ((pressing 0).enc.lastClkLevel = .low ∧ (pressing 0).env.takePins.1.clk = .high ∧
      (pressing 0).env.takePins.1.data = .low) ∧
    (start exCfg 0 [sample .high .high .high] [0]).env.takePins.1.data = .high ∧
    (start exCfg 0 [rest] [0]).env.takePins.1.clk = .low :=
  ⟨⟨inRange (by decide), inRange (by decide)⟩, by decide⟩
theorem witness_PollFiltersTheButton :
    -- 50,000 does not exceed the debounce time, 50,001 does (V-B6, V-B7); a high sample
    ((pressing 50000).env.takePins.1.btn = .low ∧
      50000 = ((pressing 50000).clock + (pressing 50000).env.takeAdvance.1) % 2 ^ (pressing 50000).cfg.tsW) ∧
    ((pressing 50001).env.takePins.1.btn = .low ∧
      50001 = ((pressing 50001).clock + (pressing 50001).env.takeAdvance.1) % 2 ^ (pressing 50001).cfg.tsW) ∧
    (start smallCfg 0 [rest] [7]).env.takePins.1.btn ≠ .low := by decide
theorem witness_PollTouchesOnlyEnc :
    ¬ ((start smallCfg 0 [rest] [0]).enc.lastClkLevel = .low ∧
      (start smallCfg 0 [rest] [0]).env.takePins.1.clk = .high) := by decide
theorem witness_CounterCountsDetents :
    (start smallCfg 0 [sample .high .low .high, rest] []).env.pins = [sample .high .low .high] ++ [rest] ∧
    inCounterRange smallCfg (start smallCfg 0 [] []).enc.counter ∧ 2 ≤ smallCfg.cntW ∧
    risingEdges .low [sample .high .low .high] = 1 ∧ risingEdges .low [rest] = 0 :=
  ⟨rfl, inRange (by decide), by decide⟩
theorem witness_NoTwoDetentsInARow :
    ∃ s t u, exec .poll s = .next t ∧ exec .poll t = .next u ∧
      (t.enc.counter ≠ s.enc.counter ∨ t.enc.lastDirection ≠ s.enc.lastDirection) :=
  ⟨start smallCfg 0 [sample .high .low .high, rest] [0, 0], _, _, rfl, rfl, by decide⟩
theorem witness_HeldButtonReportsOnce :
    (∀ k ≤ 1, (pollTimes k (start smallCfg 0 [sample .low .low .low, sample .low .low .low]
      [60000, 49000])).env.takePins.1.btn = .low) ∧
    (∀ k ≤ 1, 0 < k → 1000 * smallCfg.pollDelayMs +
      (pollTimes k (start smallCfg 0 [sample .low .low .low, sample .low .low .low]
        [60000, 49000])).env.takeAdvance.1 ≤ smallCfg.btnDebounceUs) ∧
    smallCfg.btnDebounceUs < 2 ^ smallCfg.tsW := by decide
theorem witness_TickStepOnePolls :
    (atPos (start smallCfg 0 [rest] [0]) .s1).runnable = true ∧
    (atPos (start smallCfg 0 [rest] [0]) .s1).prog = [] ∧
    (atPos (start smallCfg 0 [rest] [0]) .s1).pos = .s1 := by decide

/-- A tick at its step 2, the counter seen `prev` and the counter 0. -/
def atStepTwo (prev : Int) : State :=
  { atPos (start smallCfg 21 [] []) .s2 with prevCounter := prev }

theorem inv_atStepTwo (prev : Int) (h : inCounterRange smallCfg prev) : Inv (atStepTwo prev) :=
  { inv_start 21 [] [] with prevRange := h }

theorem witness_TickStepTwoSetsTheTempo :
    -- no change, one up, one down
    (∀ d ∈ [0, 1, -1], Inv (atStepTwo (-d)) ∧ (atStepTwo (-d)).runnable = true ∧ (atStepTwo (-d)).prog = [] ∧
      (atStepTwo (-d)).pos = .s2 ∧ inCounterRange smallCfg d ∧
      (d - ((atStepTwo (-d)).enc.counter - (atStepTwo (-d)).prevCounter)) % (2 ^ smallCfg.cntW : Nat) = 0 ∧
      Env.busOks (7 * smallCfg.digits) (atStepTwo (-d)).env = true) := by
  intro d hd
  simp only [List.mem_cons, List.not_mem_nil, or_false] at hd
  obtain rfl | rfl | rfl := hd <;>
    exact ⟨inv_atStepTwo _ (inRange (by decide)), by decide, rfl, rfl, inRange (by decide), by decide,
      by decide⟩
theorem witness_TickStepThreeBeats :
    -- exactly one interval after the last beat, and one microsecond before
    (∀ t3 ∈ [1000000, 999999], (atPos (start smallCfg 0 [] [t3]) .s3).runnable = true ∧
      (atPos (start smallCfg 0 [] [t3]) .s3).prog = [] ∧ (atPos (start smallCfg 0 [] [t3]) .s3).pos = .s3 ∧
      t3 = ((start smallCfg 0 [] [t3]).clock + (start smallCfg 0 [] [t3]).env.takeAdvance.1)
        % 2 ^ smallCfg.tsW) ∧
    (start smallCfg 0 [] []).met.enabled = true ∧
    (start smallCfg 0 [] []).met.beatIntervalUs.toNat = 1000000 := by decide
theorem witness_TickStepFourEndsThePulse :
    (∀ t4 ∈ [50000, 50001], (atPos (start smallCfg 0 [] [t4]) .s4).runnable = true ∧
      (atPos (start smallCfg 0 [] [t4]) .s4).prog = [] ∧ (atPos (start smallCfg 0 [] [t4]) .s4).pos = .s4 ∧
      t4 = ((start smallCfg 0 [] [t4]).clock + (start smallCfg 0 [] [t4]).env.takeAdvance.1)
        % 2 ^ smallCfg.tsW) := by decide
theorem witness_TickIsFourSteps :
    (∃ t, (atPos (start smallCfg 0 [rest] [0, 0, 0]) .s1).runnable = true ∧
      exec .tick (atPos (start smallCfg 0 [rest] [0, 0, 0]) .s1) = .next t ∧ t.pos = .s1) ∧
    (∃ t, exec .tick (withBus (atPos (start smallCfg 0 [sample .high .low .high] [0]) .s1) [.stall 0])
      = .next t ∧ t.pos ≠ .s1) := ⟨⟨_, by decide, rfl, by decide⟩, ⟨_, rfl, by decide⟩⟩
theorem witness_TickCompletes :
    ∃ s, Inv s ∧ s.inflight = none ∧
      (∀ n, n < 7 * s.cfg.digits → ∀ taken, (Env.afterBus n s.env).takeBus.1 ≠ .stall taken) := by
  refine ⟨start smallCfg 21 [sample .high .low .low] [0, 0, 0], inv_start _ _ _, rfl, ?_⟩
  intro n hn taken
  have : ∀ n < 21, (Env.afterBus n (start smallCfg 21 [sample .high .low .low] [0, 0, 0]).env).takeBus.1
      = .ok := by decide
  rw [this n hn]; simp
theorem witness_DisplayFailureKeepsTheBeat :
    ∃ t t', exec .tick (start smallCfg 21 [sample .high .low .high] [0, 0, 0]) = .next t ∧
      exec .tick (withBus (start smallCfg 21 [sample .high .low .high] [0, 0, 0]) (failsAt 3)) = .next t' ∧
      t.pos = .s1 ∧ t'.pos = .s1 := ⟨_, _, rfl, rfl, by decide, by decide⟩

/-- A muted block: the button is pressed at clock 999,000, and step 3 reads the clock one interval after the last beat. -/
def muted : State :=
  { start smallCfg 0 [sample .low .low .low] [999000, 0, 0] with
    met := { (start smallCfg 0 [] []).met with enabled := false } }

theorem witness_NoBeatWhileIdle :
    ∃ t, exec .tick { muted with env := { muted.env with pins := [rest] } } = .next t ∧ t.met.enabled = false :=
  ⟨_, rfl, by decide⟩
theorem witness_UnmuteBeatsAtOnce :
    Inv muted ∧ muted.met.enabled = false ∧ ∃ u, exec .poll muted = .next u ∧ u.ret = .press true ∧
      u.enc.counter = muted.prevCounter ∧
      1000000 = (u.clock + u.env.takeAdvance.1) % 2 ^ muted.cfg.tsW ∧
      (muted.met.beatIntervalUs.toNat : Int)
        ≤ (((1000000 : Nat) : Int) - muted.met.lastBeatTimestamp) % (2 ^ muted.cfg.tsW : Nat) :=
  ⟨{ inv_start 0 [sample .low .low .low] [999000, 0, 0] with }, rfl, _, rfl, by decide, by decide, by decide,
    by decide⟩
theorem witness_BootReachesTheLoop :
    (start smallCfg 54 [] []).runnable = true ∧ (start smallCfg 54 [] []).prog = [] ∧
    (start smallCfg 54 [] []).pos = .boot ∧ (start smallCfg 54 [] []).ownStep.inflight = none ∧
    (withBus (start smallCfg 0 [] []) [.stall 0]).ownStep.inflight ≠ none ∧
    (∀ n, n < 54 → ∀ taken, (Env.afterBus n (start smallCfg 54 [] []).env).takeBus.1 ≠ .stall taken) := by
  have ok : ∀ n < 54, (Env.afterBus n (start smallCfg 54 [] []).env).takeBus.1 = .ok := by decide
  exact ⟨by decide, rfl, rfl, by decide, by decide, fun n hn taken => by rw [ok n hn]; simp⟩
theorem witness_BootShowsTheTempo :
    (start smallCfg 54 [] []).runnable = true ∧ (start smallCfg 54 [] []).prog = [] ∧
    (start smallCfg 54 [] []).pos = .boot ∧ Env.busOks 54 (start smallCfg 54 [] []).env = true ∧
    smallCfg.opcodesDistinct = true ∧ (start smallCfg 54 [] []).target.lost = none ∧
    -- no command waiting, and one waiting
    (start smallCfg 54 [] []).target.pending = none ∧
    (waiting (start smallCfg 54 [] []) ⟨.contrast, [], false⟩).target.pending = some ⟨.contrast, [], false⟩ := by decide
theorem witness_CommandsSendOpcodeThenParameters :
    Env.busOks 1 (start exCfg 3 [] []).env = true ∧ Env.busOks 2 (start exCfg 3 [] []).env = true ∧
    Env.busOks 3 (start exCfg 3 [] []).env = true ∧
    (∀ j ∈ [0, 2], Env.busOks j (withBus (start exCfg 0 [] []) (failsAt j)).env = true ∧
      (Env.afterBus j (withBus (start exCfg 0 [] []) (failsAt j)).env).takeBus.1 = .busError 0) ∧
    (commandBytes exCfg (.colAddr 5 6))[0]? = some 0x21 ∧ (commandBytes exCfg (.colAddr 5 6))[2]? = some 6 := by decide
theorem witness_SettingsAreRecorded :
    settingOf (.contrast 6) = some (.contrast, [6]) ∧
    Env.busOks (1 + 1) (start exCfg 2 [] []).env = true ∧ exCfg.ctrlCmd ≠ exCfg.ctrlData ∧
    exCfg.opcodesDistinct = true ∧ (exTarget exCfg).listening = true := by decide
theorem witness_FlagCommandsSetTheirFlag :
    Env.busOks 2 (start exCfg 2 [] []).env = true ∧ exCfg.ctrlCmd ≠ exCfg.ctrlData ∧
    exCfg.opcodesDistinct = true ∧ (exTarget exCfg).listening = true := by decide
theorem witness_WindowCommandsSetTheWindow :
    Env.busOks 3 (start exCfg 3 [] []).env = true ∧ exCfg.ctrlCmd ≠ exCfg.ctrlData ∧
    exCfg.opcodesDistinct = true ∧ (exTarget exCfg).listening = true ∧
    -- both sides of each bound: 127 is a column, 128 is not; 3 is a page, 4 is not
    ((127 : Byte).toNat ≤ exCfg.width - 1 ∧ ¬ (128 : Byte).toNat ≤ exCfg.width - 1) ∧
    ((3 : Byte).toNat ≤ exCfg.pages - 1 ∧ ¬ (4 : Byte).toNat ≤ exCfg.pages - 1) := by decide
theorem witness_SendCommandAtTheTarget :
    (exTarget exCfg).lost = none ∧ (exTarget exCfg).pending = none ∧ exCfg.ctrlCmd ≠ exCfg.ctrlData ∧
    -- under any_prefix, one byte taken and both
    exCfg.failedTxn = .anyPrefix ∧
    (∀ taken ∈ [1, 2], (withBus (start exCfg 0 [] []) [.busError taken]).env.takeBus.1 = .busError taken) ∧
    ((withBus (start { exCfg with failedTxn := .none } 0 [] []) [.busError 2]).env.takeBus.1 = .busError 2 ∧
      (start { exCfg with failedTxn := .none } 0 [] []).cfg.failedTxn = .none) ∧
    ((start exCfg 1 [] []).env.takeBus.1 = .ok ∧ ∀ k ∈ Cmd.all, exCfg.opcode k ≠ 0xAD) := by decide
theorem witness_CommandBytesReadByPosition :
    (exTarget exCfg).lost = none ∧ exCfg.ctrlCmd ≠ exCfg.ctrlData ∧ exCfg.opcodesDistinct = true ∧
    (start exCfg 1 [] []).env.takeBus.1 = .ok ∧
    -- in opcode position, and cut after it
    ((exTarget exCfg).pending = none ∧ exCfg.opcode .colAddr = 0x21 ∧ 0 < Cmd.colAddr.params) ∧
    (commandBytes exCfg (.colAddr 5 6) = [0x21, 5, 6] ∧
      (start { exCfg with failedTxn := .none } 0 [] []).cfg.failedTxn = .none ∧
      (withBus (start exCfg 0 [] []) (failsAt 1)).env.takeBus.2.takeBus.1 = .busError 0) ∧
    -- in parameter position: the first of two, the only one, MEM_MODE's, the last of each window's; after a cut
    (∀ p ∈ [⟨.colAddr, [], false⟩, ⟨.contrast, [], false⟩, ⟨.memMode, [], false⟩, ⟨.colAddr, [46], false⟩,
        ⟨.pageAddr, [1], false⟩, ⟨.contrast, [], true⟩],
      (waiting (start exCfg 1 [] []) p).target.pending = some p) ∧
    (([] : List Byte).length + 1 < Cmd.colAddr.params ∧ Cmd.contrast.params = 1 ∧ Cmd.contrast ≠ .memMode) ∧
    ((46 : Byte).toNat ≤ (127 : Byte).toNat ∧ (127 : Byte).toNat ≤ exCfg.width - 1 ∧
      (1 : Byte).toNat ≤ (3 : Byte).toNat ∧ (3 : Byte).toNat ≤ exCfg.pages - 1) ∧
    commandBytes exCfg .scrollOff = [0x2E] := by decide

end Sys2Proof.Tests
end

section
/-! Proofs for 00_scope.md: no operation and no step writes the configuration (R8). -/

namespace Sys2Proof.Machine

/-! ### What an instruction that has a next state can be -/

/-- A next state is the end of one bus call, or that of one of the three operations which are not bus calls. -/
theorem exec_next_cases {i : Instr} {s t : State} (h : exec i s = .next t) :
    (usesBusOnly i = true ∧ ∃ r, BusCall s r ∧ t = State.leave r) ∨
    (∃ a, i = .computeBufferLength a ∧ a.rect.valid = true ∧
      t = { s with ret := .length a.rect.bufferLength }) ∨
    (∃ a, i = .computeBufferLength a ∧ a.rect.valid = false ∧ t = s.raise .invalidArea) ∨
    (i = .poll ∧ t = { (pollOp s).2 with ret := .press (pollOp s).1 }) ∨
    (i = .tick ∧ t = tickOp s) := by
  by_cases hb : usesBusOnly i = true
  · obtain ⟨r, hr, e⟩ | e := exec_busCall hb s <;> rw [e] at h
    · exact .inl ⟨hb, r, hr, (Host.Outcome.next.inj h).symm⟩
    · cases h
  · cases i with
    | computeBufferLength a =>
      cases hv : a.rect.valid with
      | true =>
        have e : exec (.computeBufferLength a) s = .next { s with ret := .length a.rect.bufferLength } :=
          if_pos hv
        rw [e] at h
        exact .inr (.inl ⟨a, rfl, hv, (Host.Outcome.next.inj h).symm⟩)
      | false =>
        have e : exec (.computeBufferLength a) s = .next (s.raise .invalidArea) :=
          if_neg (by rw [hv]; decide)
        rw [e] at h
        exact .inr (.inr (.inl ⟨a, rfl, hv, (Host.Outcome.next.inj h).symm⟩))
    | poll => exact .inr (.inr (.inr (.inl ⟨rfl, (Host.Outcome.next.inj h).symm⟩)))
    | tick => exact .inr (.inr (.inr (.inr ⟨rfl, (Host.Outcome.next.inj h).symm⟩)))
    | _ => exact absurd rfl hb

/-! ### The configuration after each step of the sequencer -/

@[simp] theorem seqS1_cfg (s : State) : (seqS1 s).cfg = s.cfg := by
  simp [seqS1, tickStep1_eq]

@[simp] theorem seqS2_cfg (s : State) : (seqS2 s).cfg = s.cfg := by
  simp [seqS2, (tickStep2_seen s).cfg]

@[simp] theorem seqS3_cfg (s : State) : (seqS3 s).cfg = s.cfg := by
  obtain ⟨-, e⟩ | ⟨-, e⟩ := tickStep3_cases s <;> simp [seqS3, e]

@[simp] theorem seqS4_cfg (s : State) : (seqS4 s).cfg = s.cfg := by
  obtain ⟨-, e⟩ | ⟨-, e⟩ := tickStep4_cases s <;> simp [seqS4, e]

@[simp] theorem seqBoot_cfg (s : State) : (seqBoot s).cfg = s.cfg := by
  simp [seqBoot, (bootOp_call s).only.cfg]

@[simp] theorem State.tickHalf_cfg (s : State) : s.tickHalf.cfg = s.cfg := by
  simp [State.tickHalf]

@[simp] theorem tickOp_cfg (s : State) : (tickOp s).cfg = s.cfg := by
  obtain ⟨-, e⟩ | ⟨-, e⟩ := tickOp_cases s <;> simp [e]

@[simp] theorem State.ownStep_cfg (s : State) : s.ownStep.cfg = s.cfg := by
  unfold State.ownStep
  split
  · exact seqBoot_cfg s
  · exact seqS1_cfg s
  · exact seqS2_cfg s
  · exact seqS3_cfg s
  · exact seqS4_cfg s
  · rfl

/-! ### The configuration after any operation and any step -/

theorem exec_cfg {i : Instr} {s t : State} (h : exec i s = .next t) : t.cfg = s.cfg := by
  obtain ⟨-, r, hr, rfl⟩ | ⟨a, -, -, rfl⟩ | ⟨a, -, -, rfl⟩ | ⟨-, rfl⟩ | ⟨-, rfl⟩ := exec_next_cases h
  · exact (State.leave_cfg r).trans hr.only.cfg
  · rfl
  · exact s.raise_cfg _
  · exact pollOp_cfg s
  · exact tickOp_cfg s

theorem step_cfg {s t : State} (h : step s = .next t) : t.cfg = s.cfg := by
  obtain ⟨-, ⟨-, rfl⟩ | ⟨i, rest, -, he⟩⟩ := step_next h
  · exact s.ownStep_cfg
  · exact exec_cfg (s := { s with prog := rest }) he

/-- Settles O12: an operation's next state is the end of a bus call, a length, a raise, a poll or a tick, and a step
performs one operation or the sequencer's own step; none of them writes the configuration. -/
theorem configurationNeverWritten : Obligations.ConfigurationNeverWritten :=
  ⟨fun _ _ _ => exec_cfg, fun _ _ => step_cfg⟩

end Sys2Proof.Machine
end

section
/-! Proofs for 10_state.md: the driver holds no state (R34). -/

namespace Sys2Proof.Machine

/-! ### Operations that read nothing but CFG and the transport -/

/-- An operation made of transactions, which states that agree on the configuration and the transport cannot tell apart. -/
structure DriverCall (f : State → State × Status) : Prop where
  call : ∀ s, BusCall s (f s)
  alike : ∀ {s s'}, Alike s s' → AlikeCall s s' (f s) (f s')

theorem sendCommandOp_driver (b : Byte) : DriverCall (sendCommandOp b) where
  call s := busWrite_call s _ _
  alike h := by
    unfold sendCommandOp
    rw [h.cfg]
    exact alike_write h _ _

theorem sendPixelBufferOp_driver (buf : List Byte) : DriverCall (sendPixelBufferOp buf) where
  call s := busWrite_call s _ _
  alike h := by
    unfold sendPixelBufferOp
    rw [h.cfg]
    exact alike_write h _ _

theorem initOp_driver : DriverCall initOp where
  call s := runTxs_call _ _ s
  alike h := by
    unfold initOp
    rw [h.cfg]
    exact alike_runTxs h _ _

theorem renderOp_driver (k : Nat) (buf : List Byte) (r : Rect) : DriverCall (renderOp k buf r) where
  call := renderOp_call k buf r
  alike h := alike_render h k buf r

theorem clearOp_driver : DriverCall clearOp where
  call s := renderOp_call _ _ _ s
  alike h := by
    unfold clearOp
    rw [h.cfg]
    exact alike_render h _ _ _

theorem drawNumberOp_driver (v n : Nat) : DriverCall (drawNumberOp v n) where
  call := drawNumberOp_call v n
  alike h := alike_draw h v n n

theorem commandOp_driver (k : Cmd) (ps : List Byte) : DriverCall (commandOp k ps) where
  call s := runTxs_call _ _ s
  alike h := by
    unfold commandOp
    rw [h.cfg]
    exact alike_runTxs h _ _

/-- Every instruction that uses only the bus is one driver operation whatever the state, or refused in every state. -/
theorem exec_driverCall {i : Instr} (hb : usesBusOnly i = true) :
    (∃ f, DriverCall f ∧ ∀ s, exec i s = .next (State.leave (f s))) ∨
      ∀ s, exec i s = .refused .negativeValue := by
  cases i with
  | computeBufferLength a => exact absurd hb Bool.false_ne_true
  | poll => exact absurd hb Bool.false_ne_true
  | tick => exact absurd hb Bool.false_ne_true
  | sendCommand b => exact .inl ⟨_, sendCommandOp_driver b, fun _ => rfl⟩
  | sendPixelBuffer buf => exact .inl ⟨_, sendPixelBufferOp_driver buf, fun _ => rfl⟩
  | init => exact .inl ⟨_, initOp_driver, fun _ => rfl⟩
  | render buf a => exact .inl ⟨_, renderOp_driver 0 buf a.rect, fun _ => rfl⟩
  | clear => exact .inl ⟨_, clearOp_driver, fun _ => rfl⟩
  | drawNumber v n =>
    by_cases hv : v < 0
    · exact .inr fun _ => if_pos hv
    · exact .inl ⟨_, drawNumberOp_driver v.toNat n, fun _ => if_neg hv⟩
  | _ => exact .inl ⟨_, commandOp_driver _ _, fun _ => rfl⟩

/-! ### What the end of a call returns -/

/-- A call that ends returns its status. -/
theorem State.leave_ret {r : State × Status} (h : r.2 ≠ .noReturn) :
    (State.leave r).ret = .status r.2 := by
  obtain ⟨st, -, hst, e⟩ | ⟨v, hv, e⟩ | ⟨hn, -⟩ := State.leave_cases r
  · rw [e, hst]
  · rw [e, hv]; rfl
  · exact absurd hn h

/-- A call that hangs returns nothing. -/
theorem State.leave_noReturn {r : State × Status} (h : r.2 = .noReturn) : State.leave r = r.1 := by
  unfold State.leave
  rw [h]

/-- Two alike calls return the same value and leave nothing in flight, or hang in the same transaction and return nothing. -/
theorem AlikeCall.leave_agree {s s' : State} {r r' : State × Status} (h : AlikeCall s s' r r')
    (hr : BusCall s r) (hr' : BusCall s' r') :
    ((State.leave r).ret = (State.leave r').ret ∧ (State.leave r).inflight = s.inflight ∧
        (State.leave r').inflight = s'.inflight) ∨
      ∃ bytes, (State.leave r).inflight = some bytes ∧ (State.leave r').inflight = some bytes ∧
        (State.leave r).ret = s.ret ∧ (State.leave r').ret = s'.ret := by
  have hst := h.status
  rw [State.leave_inflight, State.leave_inflight]
  obtain ⟨hn, hi, hi'⟩ | ⟨hn, bytes, hi, hi'⟩ := h.inflight
  · have ret : (State.leave r).ret = (State.leave r').ret := by
      rw [State.leave_ret hn, State.leave_ret (hst ▸ hn), hst]
    exact .inl ⟨ret, hi, hi'⟩
  · refine .inr ⟨bytes, hi, hi', ?_, ?_⟩
    · rw [State.leave_noReturn hn]; exact hr.only.ret
    · rw [State.leave_noReturn (hst ▸ hn)]; exact hr'.only.ret

/-- The ends of two alike calls show the traffic of the calls. -/
theorem AlikeCall.leave_traffic {s s' : State} {r r' : State × Status} (h : AlikeCall s s' r r') :
    ∃ traffic, (State.leave r).events = s.events ++ traffic ∧
      (State.leave r').events = s'.events ++ traffic := by
  rw [State.leave_events, State.leave_events]
  exact h.traffic

/-! ### init, twice -/

/-- init on a bus that answers ok. -/
theorem exec_init_ok {s : State} (h : Env.busOks 26 s.env = true) :
    exec .init s = .next (State.leave (s.runOk s.cfg.initTxs, .ok)) := by
  have e : initOp s = (s.runOk s.cfg.initTxs, .ok) := runTxs_ok s.cfg.initTxs 0 s h
  rw [← e]
  rfl

/-- A complete init adds the transactions of CFG, leaves CFG, and takes 26 answers of the transport. -/
theorem exec_init_stream {s : State} (h : Env.busOks 26 s.env = true) :
    ∃ t, exec .init s = .next t ∧ t.cfg = s.cfg ∧ t.env = Env.afterBus 26 s.env ∧
      t.events = s.events ++ okEvents s.cfg s.cfg.initTxs := by
  refine ⟨_, exec_init_ok h, ?_, ?_, ?_⟩
  · rw [State.leave_cfg]
    exact (State.runOk_only _ s).cfg
  · rw [State.leave_env]
    exact State.runOk_env _ s
  · rw [State.leave_events, State.runOk_events]

/-- R133 (a): the second of two complete inits sends what the first did. -/
theorem exec_init_twice {s : State} (h : Env.busOks 52 s.env = true) :
    ∃ t u stream, exec .init s = .next t ∧ exec .init t = .next u ∧
      t.events = s.events ++ stream ∧ u.events = t.events ++ stream ∧ stream.length = 26 := by
  rw [show 52 = 26 + 26 from rfl, Env.busOks_add, Bool.and_eq_true] at h
  obtain ⟨t, ht, cfg, env, sent⟩ := exec_init_stream h.1
  obtain ⟨u, hu, -, -, sentAgain⟩ := exec_init_stream (s := t) (by rw [env]; exact h.2)
  rw [cfg] at sentAgain
  exact ⟨t, u, _, ht, hu, sent, sentAgain, rfl⟩

/-- Settles O25: a bus operation is one driver operation, two of them in states that agree on CFG and the transport run
alike, and init sends the same transactions, those of CFG, each time. -/
theorem driverHoldsNoState : Obligations.DriverHoldsNoState := by
  refine ⟨fun i s s' t t' hb hcfg hbus hdraws ht ht' => ?_, fun _ => exec_init_twice⟩
  obtain ⟨f, hf, e⟩ | e := exec_driverCall hb
  · rw [e] at ht ht'
    cases ht
    cases ht'
    have hr := hf.alike ⟨hcfg, hbus, hdraws⟩
    exact ⟨hr.leave_traffic, hr.leave_agree (hf.call s) (hf.call s')⟩
  · rw [e] at ht
    cases ht

end Sys2Proof.Machine
end

section
/-! Proofs for 40_render_area.md: compute_buffer_length (R121). -/

namespace Sys2Proof

/-! ### The length of a valid rectangle -/

theorem Rect.valid_iff (r : Rect) :
    r.valid = true ↔ r.startCol ≤ r.endCol ∧ r.startPage ≤ r.endPage := by
  simp only [Rect.valid, Bool.and_eq_true, decide_eq_true_eq]

/-- On a valid rectangle no subtraction of the length is cut off at 0, so the length is the product on integers. -/
theorem Rect.bufferLength_cast {r : Rect} (hv : r.valid = true) :
    (r.bufferLength : Int)
      = ((r.endCol : Int) - r.startCol + 1) * ((r.endPage : Int) - r.startPage + 1) := by
  obtain ⟨hcol, hpage⟩ := r.valid_iff.mp hv
  have ncols : (r.ncols : Int) = (r.endCol : Int) - r.startCol + 1 := by
    rw [Rect.ncols, Nat.cast_succ, Nat.cast_sub hcol]
  have npages : (r.npages : Int) = (r.endPage : Int) - r.startPage + 1 := by
    rw [Rect.npages, Nat.cast_succ, Nat.cast_sub hpage]
  rw [Rect.bufferLength, Nat.cast_mul, ncols, npages]

theorem Rect.bufferLength_pos (r : Rect) : 0 < r.bufferLength :=
  Nat.mul_pos (Nat.succ_pos _) (Nat.succ_pos _)

/-! ### The bounds of an AREA record are bytes -/

theorem Area.ncols_le (a : Area) : a.rect.ncols ≤ 256 := by
  have := a.endCol.isLt
  simp only [Area.rect, Rect.ncols]
  omega

theorem Area.npages_le (a : Area) : a.rect.npages ≤ 256 := by
  have := a.endPage.isLt
  simp only [Area.rect, Rect.npages]
  omega

theorem Area.bufferLength_le (a : Area) : a.rect.bufferLength ≤ 65536 :=
  Nat.mul_le_mul a.ncols_le a.npages_le

end Sys2Proof

namespace Sys2Proof.Machine

/-! ### The operation -/

theorem exec_computeBufferLength_of_valid {a : Area} (hv : a.rect.valid = true) (s : State) :
    exec (.computeBufferLength a) s = .next { s with ret := .length a.rect.bufferLength } :=
  if_pos hv

/-- Settles O17: the value returned is the length of the area's rectangle. Its extents are at most 256 because the
bounds are bytes, and its subtractions are exact because the area is valid. -/
theorem bufferLengthOfValidArea : Obligations.BufferLengthOfValidArea := by
  intro a s hcol hpage
  have hv : a.rect.valid = true := a.rect.valid_iff.mpr ⟨hcol, hpage⟩
  exact ⟨a.rect.bufferLength, Rect.bufferLength_cast hv, a.rect.bufferLength_pos, a.bufferLength_le, rfl,
    exec_computeBufferLength_of_valid hv s⟩

end Sys2Proof.Machine
end

section
/-! Proofs for 43_encoder_input.md: what a poll does to the encoder (R162, R163, R164) and what it makes of the button
(R165). -/

namespace Sys2Proof.Machine

/-! ### The encoder's registers after a poll -/

/-- poll always has a next state: pollOp's, returning pollOp's press (R161). -/
theorem exec_poll (s : State) :
    exec .poll s = .next { (pollOp s).2 with ret := .press (pollOp s).1 } := rfl

@[simp] theorem pollOp_lastClkLevel (s : State) :
    (pollOp s).2.enc.lastClkLevel = s.env.takePins.1.clk := by
  simp [pollOp_enc]

/-- The button part leaves the counter to the quadrature part. -/
theorem pollOp_counter (s : State) :
    (pollOp s).2.enc.counter = (Encoder.quadrature s.cfg s.env.takePins.1 s.enc).counter := by
  rw [pollOp_enc, Encoder.button_counter]

/-- The button part leaves the direction to the quadrature part. -/
theorem pollOp_lastDirection (s : State) :
    (pollOp s).2.enc.lastDirection
      = (Encoder.quadrature s.cfg s.env.takePins.1 s.enc).lastDirection := by
  rw [pollOp_enc, Encoder.button_lastDirection]

/-! ### Detents -/

/-- R162 in its own words: the level differs from the last one and is high. -/
theorem changed_to_high_iff (last clk : Level) :
    (clk ≠ last ∧ clk = .high) ↔ (last = .low ∧ clk = .high) := by
  rw [← detent_iff, detent, Bool.and_eq_true, decide_eq_true_eq, decide_eq_true_eq]

/-- A poll that reads a rising clock edge moves the counter by one, by the data level (R163). -/
theorem pollOp_of_detent {s : State}
    (h : s.env.takePins.1.clk ≠ s.enc.lastClkLevel ∧ s.env.takePins.1.clk = .high) :
    (pollOp s).2.enc.counter
        = wrapSigned s.cfg.cntW (s.enc.counter + if s.env.takePins.1.data = .low then 1 else -1) ∧
      (pollOp s).2.enc.lastDirection = if s.env.takePins.1.data = .low then .cw else .ccw := by
  obtain ⟨-, -, e⟩ | ⟨hn, -⟩ := Encoder.quadrature_cases s.cfg s.env.takePins.1 s.enc
  · rw [pollOp_counter, pollOp_lastDirection, e]
    exact ⟨rfl, rfl⟩
  · exact absurd ((changed_to_high_iff _ _).mp h) hn

/-- A poll that reads no rising clock edge leaves the counter and the direction (R162, decision D17). -/
theorem pollOp_of_no_detent {s : State}
    (h : ¬ (s.env.takePins.1.clk ≠ s.enc.lastClkLevel ∧ s.env.takePins.1.clk = .high)) :
    (pollOp s).2.enc.counter = s.enc.counter ∧
      (pollOp s).2.enc.lastDirection = s.enc.lastDirection := by
  obtain ⟨hlow, hhigh, -⟩ | ⟨-, e⟩ := Encoder.quadrature_cases s.cfg s.env.takePins.1 s.enc
  · exact absurd ((changed_to_high_iff _ _).mpr ⟨hlow, hhigh⟩) h
  · rw [pollOp_counter, pollOp_lastDirection, e]
    exact ⟨rfl, rfl⟩

/-- A poll keeps the counter a CNT_W-bit signed number (R21). -/
theorem pollOp_counterRange {s : State} (hr : inCounterRange s.cfg s.enc.counter)
    (hw : 2 ≤ s.cfg.cntW) : inCounterRange s.cfg (pollOp s).2.enc.counter := by
  by_cases h : s.env.takePins.1.clk ≠ s.enc.lastClkLevel ∧ s.env.takePins.1.clk = .high
  · rw [(pollOp_of_detent h).1]
    exact wrapSigned_range hw _
  · rw [(pollOp_of_no_detent h).1]
    exact hr

/-- Settles O38: on a rising edge the counter is the wrapped sum, which is congruent to the sum; on any other sample the
quadrature part writes only the level. -/
theorem pollDecodesQuadrature : Obligations.PollDecodesQuadrature := by
  intro s hr hw
  refine ⟨_, exec_poll s, pollOp_lastClkLevel s, pollOp_counterRange hr hw, ?_⟩
  dsimp only
  split
  next h =>
    obtain ⟨counter, direction⟩ := pollOp_of_detent h
    rw [counter, direction]
    split <;> exact ⟨rfl, wrapSigned_emod _ _⟩
  next h => exact (pollOp_of_no_detent h).1

/-! ### The button -/

/-- Only a low sample moves the timestamp, and it moves it to the poll's clock value (R165). -/
theorem pollOp_buttonTime (s : State) :
    (pollOp s).2.enc.lastButtonPressTimestamp =
      if s.env.takePins.1.btn = .low then s.pollTime else s.enc.lastButtonPressTimestamp := by
  rw [pollOp_enc, Encoder.button]
  split
  · rfl
  · exact Encoder.quadrature_time _ _ _

/-- A low sample is a press exactly when the elapsed time, a difference modulo 2^TS_W (R76), exceeds the debounce time. -/
theorem pressed_low (c : Cfg) (now last : Nat) :
    pressed c .low now last
      = decide ((c.btnDebounceUs : Int) < ((now : Int) - last) % (2 ^ c.tsW : Nat)) := by
  rw [← elapsed_eq, pressed, decide_eq_true rfl, Bool.true_and]
  exact decide_eq_decide.mpr Nat.cast_lt.symm

/-- A sample that is not low is no press. -/
theorem pressed_of_ne_low {btn : Level} (h : btn ≠ .low) (c : Cfg) (now last : Nat) :
    pressed c btn now last = false := by
  rw [pressed, decide_eq_false h, Bool.false_and]

/-- Settles O39: the split is on the sampled button level, which alone decides whether the timestamp moves and, when low,
leaves the press to the elapsed time. -/
theorem pollFiltersTheButton : Obligations.PollFiltersTheButton := by
  intro s now hnow
  have time : s.pollTime = now := hnow.symm
  refine ⟨_, exec_poll s, fun hwf => (Cfg.facts hwf).btnDebounceUs, ?_⟩
  dsimp only
  rw [pollOp_buttonTime, pollOp_press, time]
  split
  next h =>
    rw [h, pressed_low]
    exact ⟨rfl, rfl⟩
  next h =>
    rw [pressed_of_ne_low h]
    exact ⟨rfl, rfl⟩

end Sys2Proof.Machine
end

section
/-! Proofs for 44_beat_scheduler.md: the steps of the sequencer's tick (R183). -/

namespace Sys2Proof.Machine

/-! ### The sequencer's own step -/

/-- With an empty queue a runnable block performs the sequencer's own step. -/
theorem step_of_prog_nil {s : State} (hrun : s.runnable = true) (hprog : s.prog = []) :
    step s = .next s.ownStep := by
  obtain ⟨hwf, hinflight, hpos⟩ := s.runnable_iff.mp hrun
  obtain ⟨hill, -⟩ | ⟨-, hhung, -⟩ | ⟨-, -, hfault, -⟩ | ⟨-, -, hown⟩ | ⟨-, hqueue, -⟩ | ⟨-, hqueue, -⟩ :=
    step_cases s
  · simp [hwf] at hill
  · exact absurd hinflight hhung
  · exact absurd hfault hpos
  · exact hown
  · exact absurd hprog hqueue
  · exact absurd hprog hqueue

theorem State.ownStep_s1 {s : State} (hpos : s.pos = .s1) : s.ownStep = seqS1 s := by
  rw [State.ownStep, hpos]

/-- At S1 the step is the tick's first, and S2 is next (R26). -/
theorem step_at_s1 {s : State} (hrun : s.runnable = true) (hprog : s.prog = [])
    (hpos : s.pos = .s1) : step s = .next (seqS1 s) := by
  rw [step_of_prog_nil hrun hprog, State.ownStep_s1 hpos]

/-! ### Step 1 -/

/-- Step 1 is a poll, MET.enabled flipped by its press, and S2 (R183). -/
theorem seqS1_eq (s : State) :
    seqS1 s = { (pollOp s).2 with
      met := { s.met with enabled := if (pollOp s).1 then !s.met.enabled else s.met.enabled }
      pos := .s2 } := by
  rw [seqS1, tickStep1_eq]

/-- Settles O44: by seqS1_eq step 1 differs from the poll only in MET.enabled and SEQ.pos, and the poll itself leaves MET,
the outputs, SCH.prev_counter and the bus as they were. -/
theorem tickStepOnePolls : Obligations.TickStepOnePolls := by
  intro s hrun hprog hpos
  refine ⟨seqS1 s, _, (pollOp s).1, step_at_s1 hrun hprog hpos, exec_poll s, rfl, ?_⟩
  rw [seqS1_eq]
  exact ⟨rfl, rfl, rfl, pollOp_prevCounter s, pollOp_out s, pollOp_events s, pollOp_target s, rfl⟩

end Sys2Proof.Machine
end

section
/-! Proofs for 60_exceptions.md: a dropped display failure leaves no trace in the block (R221, R193). -/

namespace Sys2Proof.Machine

/-! ### Updates that keep two blocks in the same beat -/

theorem SameBeat.withPos {s s' : State} (h : SameBeat s s') (p p' : SeqPos) :
    SameBeat { s with pos := p } { s' with pos := p' } := { h with }

theorem SameBeat.withMet {s s' : State} (h : SameBeat s s') {m m' : Metronome} (hm : m = m') :
    SameBeat { s with met := m } { s' with met := m' } := { h with met := hm }

theorem SameBeat.writeOutputs {s s' : State} (h : SameBeat s s') (l : Level) :
    SameBeat (s.writeOutputs l) (s'.writeOutputs l) := { h with out := rfl }

/-- The clock gives both blocks the same time and leaves them alike. -/
theorem SameBeat.now {s s' : State} (h : SameBeat s s') :
    s.now.1 = s'.now.1 ∧ SameBeat s.now.2 s'.now.2 := by
  obtain ⟨advance, advances, draws⟩ := Env.takeAdvance_congr h.adv h.clkD
  refine ⟨?_, { h with clock := ?_, pins := ?_, pinD := ?_, adv := advances, clkD := draws }⟩
  · rw [State.now_value, State.now_value, h.clock, advance, h.cfg]
  · rw [State.now_state_clock, State.now_state_clock, h.clock, advance]
  · simpa using h.pins
  · simpa using h.pinD

/-- The input pins give both blocks the same levels and leave them alike. -/
theorem SameBeat.samplePins {s s' : State} (h : SameBeat s s') :
    s.samplePins.1 = s'.samplePins.1 ∧ SameBeat s.samplePins.2 s'.samplePins.2 := by
  obtain ⟨sample, pins, draws⟩ := Env.takePins_congr h.pins h.pinD
  refine ⟨sample, { h with pins := pins, pinD := draws, adv := ?_, clkD := ?_ }⟩
  · simpa using h.adv
  · simpa using h.clkD

/-- A poll samples the pins, then the clock; neither shows the display side. -/
theorem SameBeat.pollOp {s s' : State} (h : SameBeat s s') :
    (pollOp s).1 = (pollOp s').1 ∧ SameBeat (pollOp s).2 (pollOp s').2 := by
  obtain ⟨sample, sampled⟩ := h.samplePins
  obtain ⟨time, timed⟩ := sampled.now
  rw [State.samplePins_value, State.samplePins_value] at sample
  rw [State.samplePins_now_fst, State.samplePins_now_fst] at time
  have clock : s.clock + s.env.takeAdvance.1 = s'.clock + s'.env.takeAdvance.1 := by
    simpa [Env.takePins_takeAdvance] using timed.clock
  refine ⟨?_, { timed with enc := ?_, clock := ?_ }⟩
  · rw [pollOp_press, pollOp_press, h.cfg, sample, time, h.enc]
  · rw [pollOp_enc, pollOp_enc, h.cfg, sample, time, h.enc]
  · rw [pollOp_clock, pollOp_clock, clock, h.cfg]

/-! ### The steps of a tick in two blocks -/

theorem SameBeat.seqS1 {s s' : State} (h : SameBeat s s') : SameBeat (seqS1 s) (seqS1 s') := by
  obtain ⟨press, polled⟩ := h.pollOp
  rw [seqS1_eq, seqS1_eq]
  exact { polled with met := by rw [press, h.met] }

theorem SameBeat.metAfterStep2 {s s' : State} (h : SameBeat s s') :
    s.metAfterStep2 = s'.metAfterStep2 := by
  unfold State.metAfterStep2
  rw [h.cfg, h.enc, h.prev, h.met]

/-- What step 2 sets is fixed before its display refresh, and no end of the refresh undoes it: the statuses of the two
refreshes need not agree. -/
theorem SameBeat.seqS2 {s s' : State} (h : SameBeat s s') : SameBeat (seqS2 s) (seqS2 s') := by
  have seen := tickStep2_seen s
  have seen' := tickStep2_seen s'
  unfold Machine.seqS2
  constructor <;> simp only [State.proceed_cfg, State.proceed_enc, State.proceed_met,
    State.proceed_prevCounter, State.proceed_out, State.proceed_clock, State.proceed_env]
  case cfg => rw [seen.cfg, seen'.cfg, h.cfg]
  case enc => rw [seen.enc, seen'.enc, h.enc]
  case met => rw [seen.met, seen'.met, h.metAfterStep2]
  case prev => rw [seen.prevCounter, seen'.prevCounter, h.enc]
  case out => rw [seen.out, seen'.out, h.out]
  case clock => rw [seen.clock, seen'.clock, h.clock]
  case pins => rw [seen.pins, seen'.pins, h.pins]
  case pinD => rw [seen.pinDraws, seen'.pinDraws, h.pinD]
  case adv => rw [seen.advances, seen'.advances, h.adv]
  case clkD => rw [seen.clockDraws, seen'.clockDraws, h.clkD]

/-- Both blocks beat, or neither does. -/
theorem SameBeat.seqS3 {s s' : State} (h : SameBeat s s') : SameBeat (seqS3 s) (seqS3 s') := by
  obtain ⟨time, timed⟩ := h.now
  have due : beatDue s.cfg s.met s.now.1 = beatDue s'.cfg s'.met s'.now.1 := by
    rw [h.cfg, h.met, time]
  refine SameBeat.withPos ?_ _ _
  obtain ⟨beat, e⟩ | ⟨quiet, e⟩ := tickStep3_cases s <;>
    obtain ⟨beat', e'⟩ | ⟨quiet', e'⟩ := tickStep3_cases s' <;> rw [e, e']
  · exact (timed.withMet (by rw [h.met, time])).writeOutputs _
  · rw [due, quiet'] at beat; cases beat
  · rw [due, beat'] at quiet; cases quiet
  · exact timed

/-- Both blocks end their pulse, or neither does. -/
theorem SameBeat.seqS4 {s s' : State} (h : SameBeat s s') : SameBeat (seqS4 s) (seqS4 s') := by
  obtain ⟨time, timed⟩ := h.now
  have expired : pulseOver s.cfg s.met s.now.1 = pulseOver s'.cfg s'.met s'.now.1 := by
    rw [h.cfg, h.met, time]
  refine SameBeat.withPos ?_ _ _
  obtain ⟨ends, e⟩ | ⟨lasts, e⟩ := tickStep4_cases s <;>
    obtain ⟨ends', e'⟩ | ⟨lasts', e'⟩ := tickStep4_cases s' <;> rw [e, e']
  · exact (timed.withMet (by rw [h.met])).writeOutputs _
  · rw [expired, lasts'] at ends; cases ends
  · rw [expired, ends'] at lasts; cases lasts
  · exact timed

theorem SameBeat.tickHalf {s s' : State} (h : SameBeat s s') :
    SameBeat s.tickHalf s'.tickHalf := (h.withPos _ _).seqS1.seqS2

/-! ### A tick that comes to its end -/

/-- Step 2 ends at S3, at FAULT, or hangs at S2, whatever the configuration. -/
theorem State.tickHalf_pos_ne_s1 (s : State) : s.tickHalf.pos ≠ .s1 := by
  have stays := (tickStep2_seen (seqS1 { s with pos := .s1 })).pos
  unfold State.tickHalf seqS2
  obtain ⟨-, e⟩ | ⟨v, -, e⟩ | ⟨-, e⟩ :=
    State.proceed_cases .s3 (tickStep2 (seqS1 { s with pos := .s1 })) <;> rw [e]
  · simp
  · simp
  · simp [stays]

/-- A tick that ends at S1 has performed all four steps. -/
theorem tickOp_of_pos_s1 {s : State} (h : (tickOp s).pos = .s1) :
    tickOp s = seqS4 (seqS3 s.tickHalf) := by
  obtain ⟨-, e⟩ | ⟨-, e⟩ := tickOp_cases s
  · exact e
  · rw [e] at h
    exact absurd h s.tickHalf_pos_ne_s1

/-- R193: two blocks in the same beat are so after ticks that come to their end, whatever their buses answered. -/
theorem SameBeat.tickOp {s s' : State} (h : SameBeat s s') (ends : (tickOp s).pos = .s1)
    (ends' : (tickOp s').pos = .s1) : SameBeat (tickOp s) (tickOp s') := by
  rw [tickOp_of_pos_s1 ends, tickOp_of_pos_s1 ends']
  exact h.tickHalf.seqS3.seqS4

/-- Settles O50: the premises say the blocks are in the same beat, which each of the four steps keeps; step 2, the only
one that uses the bus, has set its registers before the display refresh, and the refresh writes none. -/
theorem displayFailureKeepsTheBeat : Obligations.DisplayFailureKeepsTheBeat := by
  intro s s' t t' cfg enc met prev out clock pins pinD adv clkD ht ht' ends ends'
  cases ht
  cases ht'
  have same : SameBeat s s' := ⟨cfg, enc, met, prev, out, clock, pins, pinD, adv, clkD⟩
  have after := same.tickOp ends ends'
  exact ⟨after.enc, after.met, after.prev, after.out, after.clock, after.cfg,
    ends.trans ends'.symm, after.pins, after.pinD, after.adv, after.clkD⟩

end Sys2Proof.Machine
end

section
/-! Proofs for 30_encoding.md: the decoder reads back what the encoder writes (R95, R98), and reserved encodings (R100). -/

namespace Sys2Proof

/-! ### Numbers and buffers of the stored form -/

theorem be32_toBe32 {n : Nat} (h : n < fieldLimit) :
    be32 (BitVec.ofNat 8 (n / 16777216)) (BitVec.ofNat 8 (n / 65536)) (BitVec.ofNat 8 (n / 256))
      (BitVec.ofNat 8 n) = n := by
  have : n < 4294967296 := h
  simp only [be32, BitVec.toNat_ofNat]
  omega

theorem decodeBuffer_encodeBuffer (build : List Byte → Instr) {buf : List Byte}
    (h : bufferFits buf = true) (rest : List Byte) :
    decodeBuffer build (encodeBuffer buf ++ rest) = .ok (build buf, rest) := by
  have length := be32_toBe32 (of_decide_eq_true h)
  simp only [encodeBuffer, toBe32, List.cons_append, List.nil_append, decodeBuffer, length]
  rw [if_pos (by simp), List.take_left, List.drop_left]

theorem decodeNumber_toBe32 {v : Int} {n : Nat} (hv : 0 ≤ v) (hlt : v < (fieldLimit : Int))
    (hn : n < fieldLimit) (rest : List Byte) :
    decodeNumber (toBe32 v.toNat ++ toBe32 n ++ rest) = .ok (.drawNumber v n, rest) := by
  have value := be32_toBe32 (show v.toNat < fieldLimit by omega)
  simp only [toBe32, List.cons_append, List.nil_append, decodeNumber, value, be32_toBe32 hn,
    Int.toNat_of_nonneg hv]

/-! ### The three formats of a first byte -/

/-- A first byte below 16 is an operation's label (R98). -/
theorem decode_label {b : Byte} (h : b.toNat < 16) (r : List Byte) :
    decode (b :: r) = decodeOp b.toNat r := by
  have hb : b ≠ tableCtrlCmd := by rintro rfl; simp [tableCtrlCmd] at h
  exact (if_neg hb).trans (if_pos h)

/-- A first byte that is neither a label nor the control byte opens nothing (R100 b). -/
theorem decode_unknownFormat {b : Byte} (h : 16 ≤ b.toNat) (hb : b ≠ tableCtrlCmd) (r : List Byte) :
    decode (b :: r) = .error (.unknownFormat b) :=
  (if_neg hb).trans (if_neg (by omega))

theorem Cmd.ofTableOpcode_tableOpcode (c : Cmd) : Cmd.ofTableOpcode c.tableOpcode = some c := by
  cases c <;> rfl

theorem Cmd.ofTableOpcode_eq_none {o : Byte} (h : ∀ k : Cmd, k.tableOpcode ≠ o) :
    Cmd.ofTableOpcode o = none := by
  simp [Cmd.ofTableOpcode, h]

/-- A command's word opens the command, its parameters following (R92, R95). -/
theorem decode_encodeCmd (c : Cmd) (ps rest : List Byte) :
    decode (encodeCmd c ps ++ rest) = decodeCmd c (ps ++ rest) := by
  simp only [encodeCmd, List.cons_append, decode, if_true, c.ofTableOpcode_tableOpcode]

/-- Settles O1: an operation's label and a command's word select the arm that reads the operands; the operands with a
length or a number are read back because they are below 2^32. -/
theorem decodeReadsEncodedInstruction : Obligations.DecodeReadsEncodedInstruction := by
  intro i rest h
  cases i with
  | sendPixelBuffer buf =>
    exact (decode_label (by decide) _).trans (decodeBuffer_encodeBuffer _ h rest)
  | render buf a =>
    exact (decode_label (by decide) _).trans (decodeBuffer_encodeBuffer (fun buf => .render buf a) h rest)
  | drawNumber v n =>
    simp only [Instr.wellFormed, Bool.and_eq_true, decide_eq_true_eq] at h
    obtain ⟨⟨nonneg, value⟩, digits⟩ := h
    exact (decode_label (by decide) _).trans (decodeNumber_toBe32 nonneg value digits rest)
  | computeBufferLength a => exact decode_label (by decide) _
  | sendCommand b => exact decode_label (by decide) _
  | init => exact decode_label (by decide) _
  | clear => exact decode_label (by decide) _
  | poll => exact decode_label (by decide) _
  | tick => exact decode_label (by decide) _
  | _ => exact decode_encodeCmd _ _ _

/-- Settles O2: each word's bytes are read by the arm of its label or opcode. -/
theorem tableWordsDecode : Obligations.TableWordsDecode :=
  ⟨rfl, rfl, rfl, rfl, rfl, rfl, rfl, rfl⟩

end Sys2Proof

namespace Sys2Proof.Machine

/-! ### Queued bytes -/

/-- A running block with something queued takes the queued step. -/
theorem step_of_queue {s : State} (hrun : s.runnable = true) (hprog : s.prog ≠ []) :
    step s = s.queuedStep := by
  obtain ⟨hwf, hinflight, hpos⟩ := s.runnable_iff.mp hrun
  simp [step, State.machineStep, hwf, hinflight, hpos, hprog]

/-- A running block refuses queued bytes that decode to nothing. -/
theorem step_of_decode_error {s : State} (hrun : s.runnable = true) (hprog : s.prog ≠ [])
    {why : DecodeError} (hd : decode s.prog = .error why) : step s = .refused (.badEncoding why) := by
  rw [step_of_queue hrun hprog, State.queuedStep, hd]

/-- A running block performs the operation its queued bytes decode to, taken off the queue. -/
theorem step_of_decode_ok {s : State} (hrun : s.runnable = true) {i : Instr} {rest : List Byte}
    (hd : decode s.prog = .ok (i, rest)) : step s = exec i { s with prog := rest } := by
  have hprog : s.prog ≠ [] := fun h => by rw [h] at hd; cases hd
  rw [step_of_queue hrun hprog, State.queuedStep, hd]

/-- Settles O3: a label 9 to 15, a byte of no format and an unknown opcode each decode to their own error. -/
theorem reservedEncodingsRefused : Obligations.ReservedEncodingsRefused := by
  intro s b rest hrun hprog
  have refused : ∀ why, decode (b :: rest) = .error why → step s = .refused (.badEncoding why) :=
    fun why hd => step_of_decode_error hrun (by simp [hprog]) (hprog ▸ hd)
  refine ⟨fun hlow hhigh => refused _ ?_, fun hlow hne => refused _ ?_, fun hctrl o r hrest hunknown => refused _ ?_⟩
  · rw [decode_label hhigh]
    generalize b.toNat = label at hlow hhigh
    interval_cases label <;> rfl
  · exact decode_unknownFormat hlow (by rintro rfl; exact hne rfl) rest
  · obtain rfl : b = tableCtrlCmd := BitVec.eq_of_toNat_eq hctrl
    simp only [hrest, decode, if_true, Cmd.ofTableOpcode_eq_none hunknown]

/-- Settles O4: the two cases in which a running block has something to do. -/
theorem stepRunsDecodedInstruction : Obligations.StepRunsDecodedInstruction :=
  ⟨fun _ _ _ hrun hd => step_of_decode_ok hrun hd, fun _ => step_of_prog_nil⟩

/-- Settles O5: the first test of a step is the configuration's. -/
theorem illFormedConfigurationRefused : Obligations.IllFormedConfigurationRefused :=
  fun _ h => if_pos h

/-- Settles O6: the tests for a hang and for a fault come before anything is performed. -/
theorem stoppedBlockTakesNoStep : Obligations.StoppedBlockTakesNoStep := by
  intro s hwf
  obtain ⟨hill, -⟩ | ⟨-, hhung, e⟩ | ⟨-, hidle, -, e⟩ | ⟨hrun, -⟩ | ⟨hrun, -⟩ | ⟨hrun, -⟩ := step_cases s
  · simp [hwf] at hill
  · exact ⟨fun _ _ => e, fun hidle => absurd hidle hhung⟩
  · exact ⟨fun _ hhung => by simp [hhung] at hidle, fun _ _ => e⟩
  all_goals
    obtain ⟨-, hidle, hpos⟩ := s.runnable_iff.mp hrun
    exact ⟨fun _ hhung => by simp [hhung] at hidle, fun _ hfault => absurd hfault hpos⟩

end Sys2Proof.Machine
end

section
/-! Proofs for 10_state.md: the reset state, the invariants of R42, and who writes each register (R41, R43). -/

namespace Sys2Proof.Machine

/-! ### Reset -/

/-- The initial tempo fits MET.bpm (R9, R10). -/
theorem resetWith_bpm {c : Cfg} (f : Cfg.Facts c) : (State.resetWith c).met.bpm.toNat = c.initialBpm := by
  have := f.initialHigh
  exact (BitVec.toNat_ofNat _ _).trans (Nat.mod_eq_of_lt (by omega))

/-- Every interval fits MET.beat_interval_us (R10, R24). -/
theorem resetWith_interval {c : Cfg} (f : Cfg.Facts c) :
    (State.resetWith c).met.beatIntervalUs.toNat = c.usPerMin / c.initialBpm := by
  have := f.usPerMin
  have : c.usPerMin / c.initialBpm ≤ c.usPerMin := Nat.div_le_self _ _
  exact (BitVec.toNat_ofNat _ _).trans (Nat.mod_eq_of_lt (by omega))

/-- Settles O7: every value is the field's, and the tempo and its interval fit their widths. -/
theorem resetValues : Obligations.ResetValues := by
  refine ⟨fun c hw => ?_, by decide, by decide, rfl⟩
  have f := Cfg.facts hw
  exact ⟨rfl, rfl, rfl, rfl, resetWith_bpm f, rfl, resetWith_interval f, rfl, rfl, rfl, rfl, rfl⟩

/-- Zero is in the range of a counter of any width (R21). -/
theorem inCounterRange_zero (c : Cfg) : inCounterRange c 0 := by
  have := Nat.two_pow_pos (c.cntW - 1)
  exact ⟨by omega, by omega⟩

theorem resetWith_inv {c : Cfg} (hw : c.wf = true) : Inv (State.resetWith c) := by
  have f := Cfg.facts hw
  have ram : (State.resetWith c).target.ramOk c := Target.ramOk_drawn rfl
  exact
    { cfgWf := hw
      bpmLow := by rw [resetWith_bpm f]; exact f.bpmMin.trans_le f.initialLow
      bpmHigh := by rw [resetWith_bpm f]; exact f.initialHigh.trans_eq f.bpmMax.symm
      interval := by rw [resetWith_interval f, resetWith_bpm f]; rfl
      outputsEqual := rfl
      outputsPulse := by simp [State.resetWith]
      counterRange := inCounterRange_zero c
      prevRange := inCounterRange_zero c
      buttonTimeRange := Nat.two_pow_pos _
      beatTimeRange := Nat.two_pow_pos _
      ramWf := Target.ramOk_wf ram
      ramAddrs := ram }

/-- Settles O8: the reset values are in their ranges, and RAM is drawn at every address. -/
theorem resetMeetsInvariants : Obligations.ResetMeetsInvariants :=
  fun _ hw => ⟨resetWith_inv hw, fun _ => rfl⟩

/-! ### The frame of a call's end -/

theorem BlockUnchanged.trans {s t u : State} (h : BlockUnchanged s t) (h' : BlockUnchanged t u) :
    BlockUnchanged s u :=
  ⟨h'.cfg.trans h.cfg, h'.enc.trans h.enc, h'.met.trans h.met, h'.prevCounter.trans h.prevCounter,
    h'.out.trans h.out, h'.clock.trans h.clock, h'.prog.trans h.prog⟩

theorem State.leave_unchanged (r : State × Status) : BlockUnchanged r.1 (State.leave r) :=
  ⟨by simp, by simp, by simp, by simp, by simp, by simp, by simp⟩

theorem State.proceed_unchanged (p : SeqPos) (r : State × Status) :
    BlockUnchanged r.1 (State.proceed p r) :=
  ⟨by simp, by simp, by simp, by simp, by simp, by simp, by simp⟩

/-- The end of a bus call leaves the block as it was (R34, R41). -/
theorem BusCall.leave_unchanged {s : State} {r : State × Status} (h : BusCall s r) :
    BlockUnchanged s (State.leave r) :=
  h.only.toBlockUnchanged.trans (State.leave_unchanged r)

theorem seqBoot_unchanged (s : State) : BlockUnchanged s (seqBoot s) :=
  (bootOp_call s).only.toBlockUnchanged.trans (State.proceed_unchanged _ _)

/-! ### What the steps of a tick leave and write -/

@[simp] theorem seqS1_prevCounter (s : State) : (seqS1 s).prevCounter = s.prevCounter := by
  simp [seqS1_eq]
@[simp] theorem seqS1_out (s : State) : (seqS1 s).out = s.out := by simp [seqS1_eq]
@[simp] theorem seqS1_target (s : State) : (seqS1 s).target = s.target := by simp [seqS1_eq]
@[simp] theorem seqS1_inflight (s : State) : (seqS1 s).inflight = s.inflight := by simp [seqS1_eq]
@[simp] theorem seqS1_events (s : State) : (seqS1 s).events = s.events := by simp [seqS1_eq]
@[simp] theorem seqS1_prog (s : State) : (seqS1 s).prog = s.prog := by simp [seqS1_eq]
@[simp] theorem seqS1_ret (s : State) : (seqS1 s).ret = s.ret := by simp [seqS1_eq]
@[simp] theorem seqS1_enc (s : State) : (seqS1 s).enc = (pollOp s).2.enc := by rw [seqS1_eq]
@[simp] theorem seqS1_met (s : State) : (seqS1 s).met
    = { s.met with enabled := if (pollOp s).1 then !s.met.enabled else s.met.enabled } := by
  rw [seqS1_eq]
@[simp] theorem seqS1_clock (s : State) :
    (seqS1 s).clock = s.clock + s.env.takeAdvance.1 + 1000 * s.cfg.pollDelayMs := by
  simp [seqS1_eq, pollOp_clock]
@[simp] theorem seqS1_env (s : State) : (seqS1 s).env = (pollOp s).2.env := by rw [seqS1_eq]

@[simp] theorem seqS2_enc (s : State) : (seqS2 s).enc = s.enc := by
  simp [seqS2, (tickStep2_seen s).enc]
@[simp] theorem seqS2_met (s : State) : (seqS2 s).met = s.metAfterStep2 := by
  simp [seqS2, (tickStep2_seen s).met]
@[simp] theorem seqS2_prevCounter (s : State) : (seqS2 s).prevCounter = s.enc.counter := by
  simp [seqS2, (tickStep2_seen s).prevCounter]
@[simp] theorem seqS2_out (s : State) : (seqS2 s).out = s.out := by
  simp [seqS2, (tickStep2_seen s).out]
@[simp] theorem seqS2_clock (s : State) : (seqS2 s).clock = s.clock := by
  simp [seqS2, (tickStep2_seen s).clock]
@[simp] theorem seqS2_prog (s : State) : (seqS2 s).prog = s.prog := by
  simp [seqS2, (tickStep2_seen s).prog]

@[simp] theorem seqS3_enc (s : State) : (seqS3 s).enc = s.enc := by
  obtain ⟨-, e⟩ | ⟨-, e⟩ := tickStep3_cases s <;> simp [seqS3, e]
@[simp] theorem seqS3_prevCounter (s : State) : (seqS3 s).prevCounter = s.prevCounter := by
  obtain ⟨-, e⟩ | ⟨-, e⟩ := tickStep3_cases s <;> simp [seqS3, e]
@[simp] theorem seqS3_target (s : State) : (seqS3 s).target = s.target := by
  obtain ⟨-, e⟩ | ⟨-, e⟩ := tickStep3_cases s <;> simp [seqS3, e]
@[simp] theorem seqS3_inflight (s : State) : (seqS3 s).inflight = s.inflight := by
  obtain ⟨-, e⟩ | ⟨-, e⟩ := tickStep3_cases s <;> simp [seqS3, e]
@[simp] theorem seqS3_prog (s : State) : (seqS3 s).prog = s.prog := by
  obtain ⟨-, e⟩ | ⟨-, e⟩ := tickStep3_cases s <;> simp [seqS3, e]
@[simp] theorem seqS3_ret (s : State) : (seqS3 s).ret = s.ret := by
  obtain ⟨-, e⟩ | ⟨-, e⟩ := tickStep3_cases s <;> simp [seqS3, e]
@[simp] theorem seqS3_clock (s : State) : (seqS3 s).clock = s.clock + s.env.takeAdvance.1 := by
  obtain ⟨-, e⟩ | ⟨-, e⟩ := tickStep3_cases s <;> simp [seqS3, e]

@[simp] theorem seqS4_enc (s : State) : (seqS4 s).enc = s.enc := by
  obtain ⟨-, e⟩ | ⟨-, e⟩ := tickStep4_cases s <;> simp [seqS4, e]
@[simp] theorem seqS4_prevCounter (s : State) : (seqS4 s).prevCounter = s.prevCounter := by
  obtain ⟨-, e⟩ | ⟨-, e⟩ := tickStep4_cases s <;> simp [seqS4, e]
@[simp] theorem seqS4_target (s : State) : (seqS4 s).target = s.target := by
  obtain ⟨-, e⟩ | ⟨-, e⟩ := tickStep4_cases s <;> simp [seqS4, e]
@[simp] theorem seqS4_inflight (s : State) : (seqS4 s).inflight = s.inflight := by
  obtain ⟨-, e⟩ | ⟨-, e⟩ := tickStep4_cases s <;> simp [seqS4, e]
@[simp] theorem seqS4_prog (s : State) : (seqS4 s).prog = s.prog := by
  obtain ⟨-, e⟩ | ⟨-, e⟩ := tickStep4_cases s <;> simp [seqS4, e]
@[simp] theorem seqS4_ret (s : State) : (seqS4 s).ret = s.ret := by
  obtain ⟨-, e⟩ | ⟨-, e⟩ := tickStep4_cases s <;> simp [seqS4, e]
@[simp] theorem seqS4_clock (s : State) : (seqS4 s).clock = s.clock + s.env.takeAdvance.1 := by
  obtain ⟨-, e⟩ | ⟨-, e⟩ := tickStep4_cases s <;> simp [seqS4, e]

theorem State.now_value_lt (s : State) : s.now.1 < 2 ^ s.cfg.tsW :=
  Nat.mod_lt _ (Nat.two_pow_pos _)

/-- Step 3 is a beat at the time read, with both outputs high, or leaves MET and the outputs (R187). -/
theorem seqS3_met_out (s : State) :
    (beatDue s.cfg s.met s.now.1 = true ∧
      (seqS3 s).met = { s.met with pulseActive := true, lastBeatTimestamp := s.now.1 } ∧
      (seqS3 s).out = { led := .high, sol := .high } ∧
      (seqS3 s).events = s.events ++ [.pin s.cfg.ledPin .high, .pin s.cfg.solPin .high]) ∨
    (beatDue s.cfg s.met s.now.1 = false ∧
      (seqS3 s).met = s.met ∧ (seqS3 s).out = s.out ∧ (seqS3 s).events = s.events) := by
  obtain ⟨due, e⟩ | ⟨quiet, e⟩ := tickStep3_cases s
  · exact .inl ⟨due, by simp [seqS3, e], by simp [seqS3, e], by simp [seqS3, e]⟩
  · exact .inr ⟨quiet, by simp [seqS3, e], by simp [seqS3, e], by simp [seqS3, e]⟩

/-- Step 4 ends the pulse, with both outputs low, or leaves MET and the outputs (R188). -/
theorem seqS4_met_out (s : State) :
    (pulseOver s.cfg s.met s.now.1 = true ∧
      (seqS4 s).met = { s.met with pulseActive := false } ∧
      (seqS4 s).out = { led := .low, sol := .low } ∧
      (seqS4 s).events = s.events ++ [.pin s.cfg.ledPin .low, .pin s.cfg.solPin .low]) ∨
    (pulseOver s.cfg s.met s.now.1 = false ∧
      (seqS4 s).met = s.met ∧ (seqS4 s).out = s.out ∧ (seqS4 s).events = s.events) := by
  obtain ⟨ends, e⟩ | ⟨lasts, e⟩ := tickStep4_cases s
  · exact .inl ⟨ends, by simp [seqS4, e], by simp [seqS4, e], by simp [seqS4, e]⟩
  · exact .inr ⟨lasts, by simp [seqS4, e], by simp [seqS4, e], by simp [seqS4, e]⟩

/-! ### Every step keeps the invariants -/

/-- The invariants read registers and display RAM only. -/
theorem Inv.of_unchanged {s t : State} (h : Inv s) (b : BlockUnchanged s t)
    (ram : t.target.ramOk s.cfg) : Inv t := by
  obtain ⟨cfg, enc, met, prev, out, -, -⟩ := b
  constructor
  case ramWf => exact Target.ramOk_wf ram
  case ramAddrs => rw [cfg]; exact ram
  all_goals simp only [cfg, enc, met, prev, out]
  case cfgWf => exact h.cfgWf
  case bpmLow => exact h.bpmLow
  case bpmHigh => exact h.bpmHigh
  case interval => exact h.interval
  case outputsEqual => exact h.outputsEqual
  case outputsPulse => exact h.outputsPulse
  case counterRange => exact h.counterRange
  case prevRange => exact h.prevRange
  case buttonTimeRange => exact h.buttonTimeRange
  case beatTimeRange => exact h.beatTimeRange

theorem Inv.busCall {s : State} {r : State × Status} (h : Inv s) (b : BusCall s r) :
    Inv (State.leave r) := by
  refine h.of_unchanged b.leave_unchanged ?_
  rw [State.leave_target]
  exact (b.closed ramOk_closed).2 h.ramAddrs

theorem Inv.seqBoot {s : State} (h : Inv s) : Inv (seqBoot s) := by
  refine h.of_unchanged (seqBoot_unchanged s) ?_
  rw [Machine.seqBoot, State.proceed_target]
  exact ((bootOp_call s).closed ramOk_closed).2 h.ramAddrs

theorem Inv.pollOp {s : State} (h : Inv s) : Inv (pollOp s).2 :=
  { h with
    counterRange := pollOp_counterRange h.counterRange (Cfg.facts h.cfgWf).cntW
    buttonTimeRange := by
      rw [pollOp_buttonTime]
      split
      · exact Nat.mod_lt _ (Nat.two_pow_pos _)
      · exact h.buttonTimeRange }

theorem Inv.seqS1 {s : State} (h : Inv s) : Inv (seqS1 s) := by
  rw [seqS1_eq]
  exact { h.pollOp with }

/-- A change of tempo keeps it between its bounds and its interval the quotient (R185). -/
theorem Inv.seqS2 {s : State} (h : Inv s) : Inv (seqS2 s) := by
  have f := Cfg.facts h.cfgWf
  have ram : (Machine.seqS2 s).target.ramOk s.cfg := by
    rw [Machine.seqS2, State.proceed_target]
    by_cases still : tempoDelta s.cfg s.enc.counter s.prevCounter = 0
    · rw [tickStep2_still still]; exact h.ramAddrs
    · rw [tickStep2_moved still]
      exact ((drawNumberOp_call _ _ _).closed ramOk_closed).2 h.ramAddrs
  have tempo : s.cfg.bpmMin ≤ s.metAfterStep2.bpm.toNat ∧ s.metAfterStep2.bpm.toNat ≤ s.cfg.bpmMax ∧
      s.metAfterStep2.beatIntervalUs.toNat = s.cfg.usPerMin / s.metAfterStep2.bpm.toNat := by
    unfold State.metAfterStep2
    split
    · exact ⟨h.bpmLow, h.bpmHigh, h.interval⟩
    · generalize tempoDelta s.cfg s.enc.counter s.prevCounter = delta
      have stored : (s.met.retempo s.cfg delta).bpm.toNat = newBpm s.cfg s.met.bpm.toNat delta :=
        bpmAfter_toNat f s.met delta
      have clamped := newBpm_eq f s.met.bpm.toNat delta
      have := f.bpmMin
      have := f.bpmMax
      exact ⟨by omega, by omega, retempo_interval f s.met delta⟩
  have pulse : s.metAfterStep2.pulseActive = s.met.pulseActive ∧
      s.metAfterStep2.lastBeatTimestamp = s.met.lastBeatTimestamp := by
    unfold State.metAfterStep2
    split <;> exact ⟨rfl, rfl⟩
  obtain ⟨low, high, interval⟩ := tempo
  constructor
  case ramWf => exact Target.ramOk_wf ram
  case ramAddrs => rw [seqS2_cfg]; exact ram
  all_goals simp only [seqS2_cfg, seqS2_enc, seqS2_met, seqS2_prevCounter, seqS2_out, pulse]
  case cfgWf => exact h.cfgWf
  case bpmLow => exact low
  case bpmHigh => exact high
  case interval => exact interval
  case outputsEqual => exact h.outputsEqual
  case outputsPulse => exact h.outputsPulse
  case counterRange => exact h.counterRange
  case prevRange => exact h.counterRange
  case buttonTimeRange => exact h.buttonTimeRange
  case beatTimeRange => exact h.beatTimeRange

/-- What steps 3 and 4 may write of MET and the outputs: the outputs together, high exactly while a pulse is active, and a
timestamp of TS_W bits. -/
theorem Inv.of_pulse {s t : State} (h : Inv s) (cfg : t.cfg = s.cfg) (enc : t.enc = s.enc)
    (prev : t.prevCounter = s.prevCounter) (target : t.target = s.target)
    {active : Bool} {time : Nat} (met : t.met = { s.met with pulseActive := active, lastBeatTimestamp := time })
    {l : Level} (out : t.out = { led := l, sol := l }) (pulse : l = .high ↔ active = true)
    (range : time < 2 ^ s.cfg.tsW) : Inv t := by
  constructor <;> simp only [cfg, enc, prev, target, met, out]
  case cfgWf => exact h.cfgWf
  case bpmLow => exact h.bpmLow
  case bpmHigh => exact h.bpmHigh
  case interval => exact h.interval
  case outputsPulse => exact pulse
  case counterRange => exact h.counterRange
  case prevRange => exact h.prevRange
  case buttonTimeRange => exact h.buttonTimeRange
  case beatTimeRange => exact range
  case ramWf => exact h.ramWf
  case ramAddrs => exact h.ramAddrs

/-- The outputs of a state with the invariants are one level. -/
theorem Inv.out_eq {s : State} (h : Inv s) : s.out = { led := s.out.led, sol := s.out.led } :=
  congrArg (Outputs.mk s.out.led) h.outputsEqual.symm

theorem Inv.seqS3 {s : State} (h : Inv s) : Inv (seqS3 s) := by
  obtain ⟨-, met, out, -⟩ | ⟨-, met, out, -⟩ := seqS3_met_out s
  · exact h.of_pulse (seqS3_cfg s) (seqS3_enc s) (seqS3_prevCounter s) (seqS3_target s) met out
      (by simp) s.now_value_lt
  · exact h.of_pulse (seqS3_cfg s) (seqS3_enc s) (seqS3_prevCounter s) (seqS3_target s) met
      (out.trans h.out_eq) h.outputsPulse h.beatTimeRange

theorem Inv.seqS4 {s : State} (h : Inv s) : Inv (seqS4 s) := by
  obtain ⟨-, met, out, -⟩ | ⟨-, met, out, -⟩ := seqS4_met_out s
  · exact h.of_pulse (seqS4_cfg s) (seqS4_enc s) (seqS4_prevCounter s) (seqS4_target s) met out
      (by simp) h.beatTimeRange
  · exact h.of_pulse (seqS4_cfg s) (seqS4_enc s) (seqS4_prevCounter s) (seqS4_target s) met
      (out.trans h.out_eq) h.outputsPulse h.beatTimeRange

theorem Inv.withPos {s : State} (h : Inv s) (p : SeqPos) : Inv { s with pos := p } := { h with }

theorem Inv.tickHalf {s : State} (h : Inv s) : Inv s.tickHalf := (h.withPos .s1).seqS1.seqS2

theorem Inv.tickOp {s : State} (h : Inv s) : Inv (tickOp s) := by
  obtain ⟨-, e⟩ | ⟨-, e⟩ := tickOp_cases s <;> rw [e]
  · exact h.tickHalf.seqS3.seqS4
  · exact h.tickHalf

theorem Inv.ownStep {s : State} (h : Inv s) : Inv s.ownStep := by
  unfold State.ownStep
  split
  · exact h.seqBoot
  · exact h.seqS1
  · exact h.seqS2
  · exact h.seqS3
  · exact h.seqS4
  · exact h

theorem Inv.exec {i : Instr} {s t : State} (h : Inv s) (e : exec i s = .next t) : Inv t := by
  obtain ⟨-, r, hr, rfl⟩ | ⟨a, -, -, rfl⟩ | ⟨a, -, -, rfl⟩ | ⟨-, rfl⟩ | ⟨-, rfl⟩ := exec_next_cases e
  · exact h.busCall hr
  · exact { h with }
  · exact { h with }
  · exact { h.pollOp with }
  · exact h.tickOp

/-- Settles O9: the invariants are kept by the boot, by each of the four steps of a tick, and by every operation. -/
theorem stepKeepsInvariants : Obligations.StepKeepsInvariants := by
  intro s t h hstep
  obtain ⟨-, ⟨-, rfl⟩ | ⟨i, rest, -, e⟩⟩ := step_next hstep
  · exact h.ownStep
  · exact Inv.exec (s := { s with prog := rest }) { h with } e

/-! ### The sequencer's own run -/

@[simp] theorem State.ownStep_prog (s : State) : s.ownStep.prog = s.prog := by
  unfold State.ownStep
  split
  · exact (seqBoot_unchanged s).prog
  · exact seqS1_prog s
  · exact seqS2_prog s
  · exact seqS3_prog s
  · exact seqS4_prog s
  · rfl

theorem CounterSeen.ownStep {s : State} (h : CounterSeen s) : CounterSeen s.ownStep := by
  unfold State.ownStep
  split
  case _ hpos =>
    intro _
    have b := seqBoot_unchanged s
    rw [b.prevCounter, b.enc]
    exact h (by simp [hpos])
  case _ => exact fun hpos => absurd (seqS1_pos s) hpos
  case _ => exact fun _ => by rw [seqS2_prevCounter, seqS2_enc]
  case _ hpos => exact fun _ => by rw [seqS3_prevCounter, seqS3_enc]; exact h (by simp [hpos])
  case _ hpos => exact fun _ => by rw [seqS4_prevCounter, seqS4_enc]; exact h (by simp [hpos])
  case _ => exact h

/-- Settles O10: step 1 alone moves the counter, and ends at S2; step 2 stores it. -/
theorem ownRunSeesTheCounter : Obligations.OwnRunSeesTheCounter := by
  intro s t hprog h hstep
  obtain ⟨hrun, -⟩ := step_next hstep
  rw [step_of_prog_nil hrun hprog] at hstep
  cases hstep
  exact ⟨h.ownStep, s.ownStep_prog.trans hprog⟩

/-- The boot ends at S1, or hangs where it was. -/
theorem seqBoot_pos {s : State} (f : Cfg.Facts s.cfg) :
    ((seqBoot s).pos = .s1 ∧ (seqBoot s).inflight = s.inflight) ∨
      ((seqBoot s).pos = s.pos ∧ (seqBoot s).inflight ≠ none) := by
  simp only [seqBoot, State.proceed_inflight]
  exact State.proceed_pos (bootOp_no_violation f) (bootOp_settled s) (bootOp_call s).only.pos

/-- Step 2 ends at S3, or hangs where it was. -/
theorem seqS2_pos {s : State} (f : Cfg.Facts s.cfg) :
    ((seqS2 s).pos = .s3 ∧ (seqS2 s).inflight = s.inflight) ∨
      ((seqS2 s).pos = s.pos ∧ (seqS2 s).inflight ≠ none) := by
  simp only [seqS2, State.proceed_inflight]
  exact State.proceed_pos (tickStep2_no_violation f) (tickStep2_settled s) (tickStep2_seen s).pos

/-- No step of the sequencer's own faults a block (R212). -/
theorem State.ownStep_pos {s : State} (f : Cfg.Facts s.cfg) (hpos : s.pos ≠ .fault) :
    s.ownStep.pos ≠ .fault := by
  unfold State.ownStep
  split
  case _ => obtain ⟨e, -⟩ | ⟨e, -⟩ := seqBoot_pos f <;> simp [e, hpos]
  case _ => simp
  case _ => obtain ⟨e, -⟩ | ⟨e, -⟩ := seqS2_pos f <;> simp [e, hpos]
  case _ => simp
  case _ => simp
  case _ h => exact absurd h hpos

/-- Settles O11: of the sequencer's own steps only the boot and step 2 make calls, and these pass render's checks. -/
theorem ownRunNeverFaults : Obligations.OwnRunNeverFaults := by
  intro s h hrun hprog
  obtain ⟨-, -, hpos⟩ := s.runnable_iff.mp hrun
  exact ⟨_, step_of_prog_nil hrun hprog, State.ownStep_pos (Cfg.facts h.cfgWf) hpos,
    s.ownStep_prog.trans hprog⟩

/-! ### Who writes what -/

/-- Settles O13: a bus call, a length and a raise write no register; a poll writes ENC. -/
theorem oneWriterForEachRegister : Obligations.OneWriterForEachRegister := by
  intro i s t h
  obtain ⟨-, r, hr, rfl⟩ | ⟨a, -, -, rfl⟩ | ⟨a, -, -, rfl⟩ | ⟨rfl, rfl⟩ | ⟨rfl, -⟩ := exec_next_cases h
  · obtain ⟨-, enc, met, prev, out, -, -⟩ := hr.leave_unchanged
    exact ⟨fun _ _ => enc, fun _ => ⟨met, prev, out⟩⟩
  · exact ⟨fun _ _ => rfl, fun _ => ⟨rfl, rfl, rfl⟩⟩
  · exact ⟨fun _ _ => rfl, fun _ => ⟨rfl, rfl, rfl⟩⟩
  · exact ⟨fun hne => absurd rfl hne, fun _ => ⟨rfl, rfl, rfl⟩⟩
  · exact ⟨fun _ hne => absurd rfl hne, fun hne => absurd rfl hne⟩

/-- SEQ.pos after a call: as before it, or FAULT with the violation returned (R212). -/
theorem BusCall.leave_pos {s : State} {r : State × Status} (h : BusCall s r) :
    (State.leave r).pos = s.pos ∨
      (State.leave r).pos = .fault ∧ ∃ v, (State.leave r).ret = .status (.contractViolation v) := by
  obtain ⟨st, -, -, e⟩ | ⟨v, -, e⟩ | ⟨-, e⟩ := State.leave_cases r <;> rw [e]
  · exact .inl h.only.pos
  · exact .inr ⟨rfl, v, rfl⟩
  · exact .inl h.only.pos

/-- Settles O14: each of these operations is one bus call, and a call's end writes at most SEQ.pos. -/
theorem busOperationsLeaveTheBlockAlone : Obligations.BusOperationsLeaveTheBlockAlone := by
  intro i s t hb h
  obtain ⟨r, hr, e⟩ | e := exec_busCall hb s <;> rw [e] at h <;> cases h
  refine ⟨hr.leave_unchanged, hr.leave_pos, ?_⟩
  rw [State.leave_env, State.leave_events]
  exact ⟨hr.only.pins, hr.only.advances, hr.only.events⟩

/-! ### The clock -/

theorem State.tickHalf_clock (s : State) :
    s.tickHalf.clock = s.clock + s.env.takeAdvance.1 + 1000 * s.cfg.pollDelayMs := by
  simp [State.tickHalf]

/-- A tick takes at least the poll's delay, also one that hangs (R167, R77). -/
theorem tickOp_clock (s : State) : s.clock + 1000 * s.cfg.pollDelayMs ≤ (tickOp s).clock := by
  have half := s.tickHalf_clock
  obtain ⟨-, e⟩ | ⟨-, e⟩ := tickOp_cases s <;> rw [e]
  · rw [seqS4_clock, seqS3_clock]; omega
  · omega

theorem exec_clock {i : Instr} {s t : State} (h : exec i s = .next t) : s.clock ≤ t.clock := by
  obtain ⟨-, r, hr, rfl⟩ | ⟨a, -, -, rfl⟩ | ⟨a, -, -, rfl⟩ | ⟨-, rfl⟩ | ⟨-, rfl⟩ := exec_next_cases h
  · exact hr.leave_unchanged.clock.ge
  · exact le_rfl
  · exact le_rfl
  · have := pollOp_clock s; dsimp only; omega
  · have := tickOp_clock s; omega

theorem State.ownStep_clock (s : State) : s.clock ≤ s.ownStep.clock := by
  unfold State.ownStep
  split
  · exact (seqBoot_unchanged s).clock.ge
  · rw [seqS1_clock]; omega
  · rw [seqS2_clock]
  · rw [seqS3_clock]; omega
  · rw [seqS4_clock]; omega
  · exact le_rfl

/-- Settles O16: only a clock read and the poll's sleep move the clock, both forward. -/
theorem clockMovesForward : Obligations.ClockMovesForward := by
  refine ⟨fun s t h => ?_, fun s t h => ?_⟩
  · obtain ⟨-, ⟨-, rfl⟩ | ⟨i, rest, -, e⟩⟩ := step_next h
    · exact s.ownStep_clock
    · exact exec_clock (s := { s with prog := rest }) e
  · cases h
    exact tickOp_clock s

end Sys2Proof.Machine
end

section
/-! Proofs for 40_render_area.md and 41_display_driver.md: an invalid area (R122), and the two operations of one transaction
(R126, R127). -/

namespace Sys2Proof.Machine

/-- Settles O18: an area with an end before its start is not valid, and the check is the operation's first act. -/
theorem bufferLengthOfInvalidArea : Obligations.BufferLengthOfInvalidArea := by
  intro a s h
  have invalid : ¬ a.rect.valid = true := by
    rw [Rect.valid_iff]
    rintro ⟨col, page⟩
    exact h.elim (Nat.not_lt.mpr col) (Nat.not_lt.mpr page)
  exact if_neg invalid

/-! ### One transaction, called from outside -/

theorem State.busWrite_failed {s : State} (k : Nat) (tx : Tx) {taken : Nat}
    (h : s.env.takeBus.1 = .busError taken) :
    s.busWrite k tx = (s.busFailed tx taken, .busFailure k tx.info) := by
  rw [State.busWrite, h]

theorem State.busWrite_hung {s : State} (k : Nat) (tx : Tx) {taken : Nat}
    (h : s.env.takeBus.1 = .stall taken) : s.busWrite k tx = (s.busHung tx taken, .noReturn) := by
  rw [State.busWrite, h]

/-- What a call of one transaction leaves that returns ok. -/
theorem leave_busWrite_ok {s : State} (tx : Tx) (h : s.env.takeBus.1 = .ok) :
    BlockUnchanged s (State.leave (s.busWrite 0 tx)) ∧ (State.leave (s.busWrite 0 tx)).pos = s.pos ∧
      (State.leave (s.busWrite 0 tx)).inflight = s.inflight ∧
      (State.leave (s.busWrite 0 tx)).events = s.events ++ [.bus s.cfg.devAddr tx.bytes true] ∧
      (State.leave (s.busWrite 0 tx)).ret = .status .ok := by
  refine ⟨(busWrite_call s 0 tx).leave_unchanged, ?_⟩
  rw [s.busWrite_ok 0 tx h]
  exact ⟨rfl, rfl, rfl, rfl⟩

/-- What a call of one transaction leaves that the transport reports failed. -/
theorem leave_busWrite_failed {s : State} (tx : Tx) {taken : Nat} (h : s.env.takeBus.1 = .busError taken) :
    BlockUnchanged s (State.leave (s.busWrite 0 tx)) ∧ (State.leave (s.busWrite 0 tx)).pos = s.pos ∧
      (State.leave (s.busWrite 0 tx)).inflight = s.inflight ∧
      (State.leave (s.busWrite 0 tx)).events = s.events ++ [.bus s.cfg.devAddr tx.bytes false] ∧
      (State.leave (s.busWrite 0 tx)).ret = .status (.busFailure 0 tx.info) := by
  refine ⟨(busWrite_call s 0 tx).leave_unchanged, ?_⟩
  rw [State.busWrite_failed 0 tx h]
  exact ⟨rfl, rfl, rfl, rfl⟩

/-- What a call of one transaction leaves that the transport never answers: no later step is performed. -/
theorem leave_busWrite_hung {s : State} (tx : Tx) {taken : Nat} (h : s.env.takeBus.1 = .stall taken) :
    BlockUnchanged s (State.leave (s.busWrite 0 tx)) ∧ (State.leave (s.busWrite 0 tx)).pos = s.pos ∧
      (State.leave (s.busWrite 0 tx)).inflight = some tx.bytes ∧
      (State.leave (s.busWrite 0 tx)).events = s.events ∧ (State.leave (s.busWrite 0 tx)).ret = s.ret ∧
      (s.cfg.wf = true → step (State.leave (s.busWrite 0 tx)) = .fault .busStalled) := by
  refine ⟨(busWrite_call s 0 tx).leave_unchanged, ?_⟩
  rw [State.busWrite_hung 0 tx h]
  exact ⟨rfl, rfl, rfl, rfl, fun hwf => (stoppedBlockTakesNoStep (s.busHung tx taken) hwf).1 _ rfl⟩

/-- Settles O19: send_command is one call of one CMD transaction, by the transport's answer. -/
theorem sendCommandTransmitsOnce : Obligations.SendCommandTransmitsOnce := fun b s =>
  ⟨rfl, fun h => ⟨_, rfl, leave_busWrite_ok (s.cfg.cmdTx .raw b) h⟩,
    fun _ h => ⟨_, rfl, leave_busWrite_failed (s.cfg.cmdTx .raw b) h⟩,
    fun _ h => ⟨_, rfl, leave_busWrite_hung (s.cfg.cmdTx .raw b) h⟩⟩

/-- Settles O20: send_pixel_buffer is one call of one DATA transaction, by the transport's answer. -/
theorem sendPixelBufferTransmitsOnce : Obligations.SendPixelBufferTransmitsOnce := fun buf s =>
  ⟨rfl, fun h => ⟨_, rfl, leave_busWrite_ok (s.cfg.dataTx buf) h⟩,
    fun _ h => ⟨_, rfl, leave_busWrite_failed (s.cfg.dataTx buf) h⟩,
    fun _ h => ⟨_, rfl, leave_busWrite_hung (s.cfg.dataTx buf) h⟩⟩

end Sys2Proof.Machine
end

section
/-! Proofs for 20_memory.md: what a data transaction does to display RAM (R62, R66), and that a command stores nothing. -/

namespace Sys2Proof.Machine

/-! ### Data at a described target -/

/-- send_pixel_buffer on a bus that answers ok, at a target that is described (R62). -/
theorem exec_sendPixelBuffer_ok {s : State} (buf : List Byte) (h : s.env.takeBus.1 = .ok)
    (described : s.target.lost = none) :
    ∃ t, exec (.sendPixelBuffer buf) s = .next t ∧ t.ret = .status .ok ∧ t.cfg = s.cfg ∧
      t.target = s.target.payload s.cfg s.env.busDraws buf := by
  refine ⟨State.leave (s.busOk (s.cfg.dataTx buf), .ok), ?_, rfl, rfl,
    Target.deliver_dataTx s.env.busDraws buf described⟩
  rw [← s.busWrite_ok 0 (s.cfg.dataTx buf) h]
  rfl

/-- Settles O22: a write under scroll scrambles the target, and the draw is the transaction's number alone. -/
theorem scrollingWriteForgetsRam : Obligations.ScrollingWriteForgetsRam := by
  intro s buf h listening horizontal scrolling
  obtain ⟨described, idle⟩ := (Target.listening_iff _).mp listening
  have scrambles : ∀ (m : Memory) (vs : List Byte),
      ({ s.target with ram := m } : Target).payload s.cfg s.env.busDraws vs
        = s.target.scramble s.cfg s.env.busDraws := fun m vs => by
    simp [Target.payload, idle, horizontal, scrolling, Target.scramble]
  obtain ⟨t, ht, ret, cfg, target⟩ := exec_sendPixelBuffer_ok buf h described
  rw [show s.target.payload s.cfg s.env.busDraws buf = _ from scrambles s.target.ram buf] at target
  refine ⟨t, ht, ret, by rw [target]; rfl, fun page col hpage hcol => ?_, fun m buf' => ?_⟩
  · have listed : s.cfg.cellAddr page col ∈ (s.cfg.drawnRam (.later s.env.busDraws)).map Prod.fst := by
      simpa [Cfg.drawnRam, Function.comp_def] using Cfg.cellAddr_lt hcol hpage
    rw [target, cfg, Target.ramAt, if_pos ⟨hcol, hpage⟩]
    exact Memory.read_some _ listed
  · obtain ⟨u, hu, -, -, target'⟩ :=
      exec_sendPixelBuffer_ok (s := { s with target := { s.target with ram := m } }) buf' h described
    exact ⟨u, hu, by rw [target', target]; exact congrArg Target.ram (scrambles m buf')⟩

/-! ### Data that fills a window -/

/-- Bytes that go to one column and one page of a window are a whole number of passes apart. -/
theorem mod_mul_eq {i j n m : Nat} (hcol : i % n = j % n) (hpage : i / n % m = j / n % m) :
    i % (n * m) = j % (n * m) := by
  rw [Nat.mod_mul, Nat.mod_mul, hcol, hpage]

/-- The pages of a window's bytes are the window's. -/
theorem Rect.pageAt_le {r : Rect} (hp : r.startPage ≤ r.endPage) (k : Nat) :
    r.startPage + k / r.ncols % r.npages ≤ r.endPage := by
  have : k / r.ncols % r.npages < r.endPage - r.startPage + 1 := Nat.mod_lt _ (Nat.succ_pos _)
  omega

/-- The columns of a window's bytes are the window's. -/
theorem Rect.colAt_le {r : Rect} (hc : r.startCol ≤ r.endCol) (k : Nat) :
    r.startCol + k % r.ncols ≤ r.endCol := by
  have : k % r.ncols < r.endCol - r.startCol + 1 := Nat.mod_lt _ (Nat.succ_pos _)
  omega

/-- Two bytes of one pass over the window go to different keys (R62). -/
theorem Rect.keyAt_ne {c : Cfg} {r : Rect} (hc : r.startCol ≤ r.endCol) (hw : r.endCol < c.width)
    {j i : Nat} (hlt : j < i) (hpass : i < j + r.ncols * r.npages) :
    Rect.keyAt c r j ≠ Rect.keyAt c r i := by
  intro same
  obtain ⟨page, col⟩ := Cfg.cellAddr_inj ((Rect.colAt_le hc j).trans_lt hw) ((Rect.colAt_le hc i).trans_lt hw) same
  have residue : j % (r.ncols * r.npages) = i % (r.ncols * r.npages) :=
    mod_mul_eq (Nat.add_left_cancel col) (Nat.add_left_cancel page)
  have dvd : r.ncols * r.npages ∣ i - j := (Nat.modEq_iff_dvd' hlt.le).mp residue
  have := Nat.le_of_dvd (by omega) dvd
  omega

/-- Settles O21: the target stands at byte `p` of the window, a payload moves it to byte `p + length` and fills RAM, and a
byte stays unless a later one is a whole pass on. -/
theorem pixelDataFillsTheWindow : Obligations.PixelDataFillsTheWindow := by
  intro s r p buf h _ ready hc hw hp hg colStart colEnd pageStart pageEnd col page
  obtain ⟨described, idle, horizontal, still⟩ := (Target.ready_iff _).mp ready
  have stands : s.target = s.target.at r p s.target.ram := by
    rw [Target.at, ← page, ← col]
  have fills : s.target.payload s.cfg s.env.busDraws buf
      = s.target.at r (p + buf.length) (fillRam s.cfg r p buf s.target.ram) := by
    rw [← Target.pixelBytes_at s.env.busDraws buf p s.target.ram hc hp hw hg described colStart colEnd pageStart
      pageEnd, ← stands]
    simp [Target.payload, idle, horizontal, still]
  obtain ⟨t, ht, ret, cfg, target⟩ := exec_sendPixelBuffer_ok buf h described
  rw [fills] at target
  refine ⟨t, ht, ret, ?_⟩
  rw [cfg, target]
  refine ⟨?_, rfl, rfl, fun k hk hlast => ?_, fun page' col' untouched => ?_⟩
  · exact (Target.ready_iff _).mpr ⟨described, idle, horizontal, still⟩
  · rw [Target.ramAt, if_pos ⟨(Rect.colAt_le hc _).trans_lt hw, (Rect.pageAt_le hp _).trans_lt hg⟩]
    refine (fillRam_last buf p _ (j := p + k) (by omega) (by omega) fun i hlt hi =>
      Rect.keyAt_ne hc hw hlt (by omega)).trans ?_
    rw [Nat.add_sub_cancel_left]
  · unfold Target.ramAt
    split_ifs with inside
    · refine fillRam_other buf p _ fun j hlow hhigh same => ?_
      obtain ⟨hpage, hcol⟩ := Cfg.cellAddr_inj inside.1 ((Rect.colAt_le hc j).trans_lt hw) same
      refine untouched (j - p) (by omega) ?_
      rw [show p + (j - p) = j by omega]
      exact ⟨hpage, hcol⟩
    · rfl

/-! ### Commands store nothing -/

theorem Cfg.commandTxs_cmd (c : Cfg) (k : Cmd) (ps : List Byte) :
    ∀ tx ∈ c.commandTxs k ps, ∃ role b, tx = c.cmdTx role b := by
  intro tx h
  rw [Cfg.commandTxs, List.mem_cons, List.mem_map] at h
  obtain rfl | ⟨b, -, rfl⟩ := h
  · exact ⟨_, _, rfl⟩
  · exact ⟨_, _, rfl⟩

theorem Cfg.initTxs_cmd (c : Cfg) : ∀ tx ∈ c.initTxs, ∃ role b, tx = c.cmdTx role b := by
  intro tx h
  rw [Cfg.initTxs, List.mem_flatMap] at h
  obtain ⟨x, -, hx⟩ := h
  exact Cfg.commandTxs_cmd c x.1 x.2 tx hx

/-- The operations that send commands only are sequences of CMD transactions. -/
theorem exec_cmdTxs {i : Instr} (hb : usesBusOnly i = true) (noPixels : ∀ buf, i ≠ .sendPixelBuffer buf)
    (noRender : ∀ buf a, i ≠ .render buf a) (noClear : i ≠ .clear) (noNumber : ∀ v n, i ≠ .drawNumber v n)
    (s : State) :
    ∃ txs, (∀ tx ∈ txs, ∃ role b, tx = s.cfg.cmdTx role b) ∧
      exec i s = .next (State.leave (runTxs 0 txs s)) := by
  cases i with
  | computeBufferLength a => exact absurd hb Bool.false_ne_true
  | poll => exact absurd hb Bool.false_ne_true
  | tick => exact absurd hb Bool.false_ne_true
  | sendPixelBuffer buf => exact absurd rfl (noPixels buf)
  | render buf a => exact absurd rfl (noRender buf a)
  | clear => exact absurd rfl noClear
  | drawNumber v n => exact absurd rfl (noNumber v n)
  | sendCommand b =>
    refine ⟨[s.cfg.cmdTx .raw b], by simp, ?_⟩
    rw [runTxs_single]
    rfl
  | init => exact ⟨_, Cfg.initTxs_cmd s.cfg, rfl⟩
  | _ => exact ⟨_, Cfg.commandTxs_cmd s.cfg _ _, rfl⟩

/-- Settles O15: each of these operations is a sequence of CMD transactions, none of which writes RAM of a target that is
still described. -/
theorem commandsStoreNothing : Obligations.CommandsStoreNothing := by
  intro i s t hb noPixels noRender noClear noNumber hc h described page col
  obtain ⟨txs, hcmd, e⟩ := exec_cmdTxs hb noPixels noRender noClear noNumber s
  rw [e] at h
  cases h
  rw [State.leave_target] at described ⊢
  rw [State.leave_cfg, (runTxs_only txs 0 s).cfg, Target.ramAt, Target.ramAt,
    (runTxs_cmd_ram hc txs 0 hcmd).resolve_left (· described)]

end Sys2Proof.Machine
end

section
/-! Proofs for 41_display_driver.md: init (R130 to R133). -/

namespace Sys2Proof.Machine

/-- Settles O23: the transactions of init carry SEQ_INIT, and what they leave depends on their bytes alone. -/
theorem initSendsItsSequence : Obligations.InitSendsItsSequence := by
  intro s h
  refine ⟨_, exec_init_ok h, unchanged_ok _ s, (State.runOk_only _ s).pos, State.runOk_inflight _ s, rfl, ?_, ?_⟩
  · rw [State.leave_events, State.runOk_events, Cfg.initTxs_events]
    rfl
  · exact runOk_sendEach (bs := s.cfg.seqInit) (List.cons_ne_nil _ _) h rfl

/-- Settles O24: byte `k` of SEQ_INIT is carried by transaction `k`, and the sequence ends at its first failure. -/
theorem initStopsAtFirstFailure : Obligations.InitStopsAtFirstFailure := by
  intro s k taken b h hf hb
  obtain ⟨hk, role, hrole, htx⟩ := Cfg.initTxs_get s.cfg k b hb
  have e : exec .init s = .next (State.leave ((s.runOk (s.cfg.initTxs.take k)).busFailed
      (s.cfg.cmdTx role b) taken, .busFailure (0 + k) b.toNat)) := by
    rw [← runTxs_fails_at s.cfg.initTxs k role b taken hk htx hrole h hf 0]
    rfl
  have sent : okEvents s.cfg (s.cfg.initTxs.take k) = (s.cfg.seqInit.take k).map (cmdEvent s.cfg true) := by
    rw [List.map_take, ← Cfg.initTxs_events, okEvents, okEvents, List.map_take]
  refine ⟨_, e, unchanged_failed _ s _ _ _, (State.runOk_only _ s).pos, State.runOk_inflight _ s, ?_, ?_⟩
  · rw [Nat.zero_add]
    rfl
  · rw [State.leave_events, State.busFailed_events, State.runOk_events, sent, (State.runOk_only _ s).cfg]
    rfl

/-- The commands of init with a parameter carry it, open no window, and set horizontal addressing (R131). -/
theorem Cfg.initScript_plain (c : Cfg) : ∀ x ∈ c.initScript,
    (x.2.length = x.1.params ∧ x.1 ≠ .colAddr ∧ x.1 ≠ .pageAddr) ∧
      (x.1 ≠ .memMode ∨ x.2 = [c.cmd.memHoriz]) := by
  simp [Cfg.initScript, Cmd.params]

/-- Settles O26: at a target that waits for an opcode init's commands take effect one after another. -/
theorem initConfiguresTheTarget : Obligations.InitConfiguresTheTarget := by
  intro s h hc hd listening
  refine ⟨_, exec_init_ok h, ?_⟩
  rw [State.leave_target, State.runOk_target, Cfg.initTxs,
    deliverAll_commands s.env.busDraws hc hd listening s.cfg.initScript (Cfg.initScript_plain s.cfg)]
  simp [Cfg.initScript, Target.effect, Target.setMode, Target.record, paramAt, Cfg.muxVal, offsetVal, contrastVal]

end Sys2Proof.Machine
end

section
/-! Proofs for 30_encoding.md and 20_memory.md: the controller commands on the wire (R92, R96) and at the target (R61 to
R67). -/

namespace Sys2Proof.Machine

/-! ### On the wire -/

/-- What a controller command leaves on a bus that answers ok: one CMD transaction for each byte (R92, R96). -/
theorem exec_command_ok {i : Instr} {s : State} (hne : commandBytes s.cfg i ≠ [])
    (h : Env.busOks (commandBytes s.cfg i).length s.env = true) :
    ∃ t, exec i s = .next t ∧ BlockUnchanged s t ∧ t.pos = s.pos ∧ t.inflight = s.inflight ∧
      t.ret = .status .ok ∧ t.events = s.events ++ (commandBytes s.cfg i).map (cmdEvent s.cfg true) ∧
      t = sendEach (commandBytes s.cfg i) s := by
  obtain ⟨k, ps, e, bytes, -⟩ := exec_command i hne
  have length : (s.cfg.commandTxs k ps).length = (commandBytes s.cfg i).length := by
    simp [bytes, Cfg.commandTxs]
  rw [runTxs_ok _ _ _ (length ▸ h)] at e
  refine ⟨_, e, unchanged_ok _ s, (State.runOk_only _ s).pos, State.runOk_inflight _ s, rfl, ?_, ?_⟩
  · rw [State.leave_events, State.runOk_events, commandTxs_events, bytes]
  · refine runOk_sendEach hne h ?_
    simp [bytes, Cfg.commandTxs, Cfg.cmdTx, Function.comp_def]

/-- Transaction `j` of a controller command carries byte `j`, as an opcode or a parameter. -/
theorem Cfg.commandTxs_get {c : Cfg} {k : Cmd} {ps : List Byte} {j : Nat} {b : Byte}
    (h : (c.opcode k :: ps)[j]? = some b) :
    ∃ (hj : j < (c.commandTxs k ps).length) (role : Role), role ≠ .data ∧
      (c.commandTxs k ps)[j] = c.cmdTx role b := by
  obtain ⟨hj, hb⟩ := List.getElem?_eq_some_iff.mp h
  have hlen : j < (c.commandTxs k ps).length := by simpa [Cfg.commandTxs] using hj
  cases j with
  | zero => exact ⟨hlen, .opcode, by decide, by rw [← hb]; rfl⟩
  | succ j => exact ⟨hlen, .param, by decide, by rw [← hb]; simp [Cfg.commandTxs]⟩

/-- A controller command ends at its first transaction that fails (R126, R220). -/
theorem exec_command_cut {i : Instr} {s : State} {j taken : Nat} {b : Byte}
    (hb : (commandBytes s.cfg i)[j]? = some b) (h : Env.busOks j s.env = true)
    (hf : (Env.afterBus j s.env).takeBus.1 = .busError taken) :
    ∃ t, exec i s = .next t ∧ BlockUnchanged s t ∧ t.pos = s.pos ∧ t.inflight = s.inflight ∧
      t.ret = .status (.busFailure j b.toNat) ∧
      t.events = s.events ++ cutEvents ((commandBytes s.cfg i).map (cmdEvent s.cfg true)) j := by
  have hne : commandBytes s.cfg i ≠ [] := fun e => by rw [e] at hb; cases hb
  obtain ⟨k, ps, e, bytes, -⟩ := exec_command i hne
  obtain ⟨hj, role, hrole, htx⟩ := Cfg.commandTxs_get (bytes ▸ hb)
  obtain ⟨-, unchanged, pos, inflight, ret, events⟩ := runTxs_cut (s.cfg.commandTxs k ps) j taken hj h hf
  refine ⟨_, e, unchanged, pos, inflight, ?_, ?_⟩
  · rw [ret, htx]
    simp [Tx.info, Cfg.cmdTx, hrole]
  · rw [events, commandTxs_events, bytes]

/-- Settles O55: every controller command is the sequence of its bytes, whole or cut. -/
theorem commandsSendOpcodeThenParameters : Obligations.CommandsSendOpcodeThenParameters := by
  intro s p a b
  have sends : ∀ (i : Instr) (bs : List Byte), commandBytes s.cfg i = bs → bs ≠ [] →
      Env.busOks bs.length s.env = true →
      ∃ t, exec i s = .next t ∧ BlockUnchanged s t ∧ t.pos = s.pos ∧ t.inflight = s.inflight ∧
        t.ret = .status .ok ∧ t.events = s.events ++ bs.map (cmdEvent s.cfg true) := by
    rintro i _ rfl hne h
    obtain ⟨t, e, unchanged, pos, inflight, ret, events, -⟩ := exec_command_ok hne h
    exact ⟨t, e, unchanged, pos, inflight, ret, events⟩
  refine ⟨fun x hx h => sends x.1 [x.2] ?_ (by simp) h, fun x hx h => sends x.1 [x.2, p] ?_ (by simp) h,
    fun x hx h => sends x.1 [x.2, a, b] ?_ (by simp) h, fun i j taken b => exec_command_cut, fun i hne h => ?_⟩
  · simp only [List.mem_cons, List.not_mem_nil, or_false] at hx
    obtain rfl | rfl | rfl | rfl | rfl | rfl | rfl | rfl := hx <;> rfl
  · simp only [List.mem_cons, List.not_mem_nil, or_false] at hx
    obtain rfl | rfl | rfl | rfl | rfl | rfl | rfl | rfl | rfl := hx <;> rfl
  · simp only [List.mem_cons, List.not_mem_nil, or_false] at hx
    obtain rfl | rfl := hx <;> rfl
  · obtain ⟨t, e, -, -, -, -, -, rfl⟩ := exec_command_ok hne h
    exact e

/-! ### At a target that waits for an opcode -/

/-- A complete command returns ok and takes effect at a target that listens (R61). -/
theorem commandOp_effect {s : State} (k : Cmd) (ps : List Byte) (hp : ps.length = k.params)
    (h : Env.busOks (1 + ps.length) s.env = true) (hc : s.cfg.ctrlCmd ≠ s.cfg.ctrlData)
    (hd : s.cfg.opcodesDistinct = true) (listening : s.target.listening = true) :
    (State.leave (commandOp k ps s)).ret = .status .ok ∧
      (State.leave (commandOp k ps s)).target
        = s.target.effect s.cfg (s.env.busDraws + k.params) k ps := by
  rw [commandOp_ok k ps h]
  exact ⟨rfl, (State.runOk_target _ s).trans (Target.deliverAll_command _ k ps hc hd listening hp)⟩

/-- A setting is sent as its command, and its effect is its record (R67). -/
theorem settingOf_command {i : Instr} {k : Cmd} {ps : List Byte} (h : settingOf i = some (k, ps)) :
    ps.length = k.params ∧ (∀ s, exec i s = .next (State.leave (commandOp k ps s))) ∧
      ∀ c n t, Target.effect c n t k ps = t.record k ps := by
  cases i <;> cases h <;> exact ⟨rfl, fun _ => rfl, fun _ _ _ => rfl⟩

/-- Settles O56: a setting's effect is its record. -/
theorem settingsAreRecorded : Obligations.SettingsAreRecorded := by
  intro i k ps s hset h hc hd listening
  obtain ⟨length, e, effect⟩ := settingOf_command hset
  exact ⟨_, e s, (commandOp_effect k ps length h hc hd listening).2.trans (effect _ _ _)⟩

/-- Settles O57: the effect of each flag command is its flag. -/
theorem flagCommandsSetTheirFlag : Obligations.FlagCommandsSetTheirFlag := by
  intro s p h hc hd listening
  have one : Env.busOks 1 s.env = true := Env.busOks_mono (by decide) h
  exact ⟨⟨_, rfl, (commandOp_effect .dispOff [] rfl one hc hd listening).2⟩,
    ⟨_, rfl, (commandOp_effect .dispOn [] rfl one hc hd listening).2⟩,
    ⟨_, rfl, (commandOp_effect .scrollOff [] rfl one hc hd listening).2⟩,
    ⟨_, rfl, (commandOp_effect .memMode [p] rfl h hc hd listening).2⟩⟩

/-- Settles O58: a window command's effect checks its bounds. -/
theorem windowCommandsSetTheWindow : Obligations.WindowCommandsSetTheWindow := by
  intro s a b h hc hd listening
  obtain ⟨colRet, colTarget⟩ := commandOp_effect .colAddr [a, b] rfl h hc hd listening
  obtain ⟨pageRet, pageTarget⟩ := commandOp_effect .pageAddr [a, b] rfl h hc hd listening
  refine ⟨⟨_, rfl, colRet, ?_⟩, ⟨_, rfl, pageRet, ?_⟩⟩
  · split
    next inside => exact colTarget.trans (if_pos inside)
    next outside => rw [colTarget.trans (if_neg outside)]; rfl
  · split
    next inside => exact pageTarget.trans (if_pos inside)
    next outside => rw [pageTarget.trans (if_neg outside)]; rfl

/-! ### One command byte at a described target -/

/-- send_command that returns ok reads its byte by position (R61). -/
theorem exec_sendCommand_ok {s : State} (b : Byte) (h : s.env.takeBus.1 = .ok)
    (hc : s.cfg.ctrlCmd ≠ s.cfg.ctrlData) (described : s.target.lost = none) :
    exec (.sendCommand b) s = .next (State.leave (s.busOk (s.cfg.cmdTx .raw b), .ok)) ∧
      (s.busOk (s.cfg.cmdTx .raw b)).target = s.target.commandByte s.cfg s.env.busDraws b := by
  refine ⟨?_, Target.deliver_cmdTx _ .raw b hc described⟩
  rw [← s.busWrite_ok 0 (s.cfg.cmdTx .raw b) h]
  rfl

/-- send_command that fails leaves what the bytes taken delivered: it is no part of a composite operation (R68, U6). -/
theorem exec_sendCommand_failed {s : State} (b : Byte) {taken : Nat} (h : s.env.takeBus.1 = .busError taken) :
    ∃ t, exec (.sendCommand b) s = .next t ∧
      t.target = s.target.deliverPrefix s.cfg s.env.busDraws (s.cfg.cmdTx .raw b) taken := by
  refine ⟨State.leave (s.busFailed (s.cfg.cmdTx .raw b) taken, .busFailure 0 (s.cfg.cmdTx .raw b).info), ?_, rfl⟩
  rw [← State.busWrite_failed 0 (s.cfg.cmdTx .raw b) h]
  rfl

/-- A control byte alone delivers nothing, both bytes all of the transaction (notes/assumptions/12.md). -/
theorem Target.deliver_cmdTx_take {c : Cfg} (n : Nat) (role : Role) (b : Byte) (taken : Nat) {t : Target}
    (hc : c.ctrlCmd ≠ c.ctrlData) (described : t.lost = none) :
    t.deliver c n ((c.cmdTx role b).bytes.take taken)
      = if taken < 2 then t else t.commandByte c n b := by
  match taken with
  | 0 => rfl
  | 1 => simp [Cfg.cmdTx, Target.deliver, described, hc]
  | m + 2 =>
    rw [if_neg (by omega), ← Target.deliver_cmdTx n role b hc described]
    simp [Cfg.cmdTx]

/-- Settles O59: a failed send_command delivers none, one or both of its bytes, and an opcode byte of no command is
unknown. -/
theorem sendCommandAtTheTarget : Obligations.SendCommandAtTheTarget := by
  intro b s described hc
  refine ⟨fun taken h effect => ?_, fun taken h effect => ?_, fun h idle unknown => ?_⟩
  · obtain ⟨t, e, target⟩ := exec_sendCommand_failed b h
    refine ⟨t, e, ?_⟩
    rw [target, Target.deliverPrefix, effect]
  · obtain ⟨t, e, target⟩ := exec_sendCommand_failed b h
    obtain ⟨e', target'⟩ := exec_sendCommand_ok (s := { s with env := { s.env with bus := .ok :: s.env.bus.tail } })
      b rfl hc described
    refine ⟨t, _, e, e', rfl, ?_⟩
    rw [State.leave_target, target', target, Target.deliverPrefix, effect]
    exact Target.deliver_cmdTx_take _ .raw b taken hc described
  · obtain ⟨e, target⟩ := exec_sendCommand_ok b h hc described
    have none : s.cfg.cmdOfOpcode b = none := by simp [Cfg.cmdOfOpcode, unknown]
    refine ⟨_, e, rfl, ?_⟩
    rw [State.leave_target, target, Target.commandByte, idle]
    simp [Target.opcodeByte, none]

end Sys2Proof.Machine
end

section
/-! Proofs for 20_memory.md: a command byte is read by its position (R61, R96). -/

namespace Sys2Proof.Machine

theorem Cfg.opcode_inj {c : Cfg} (hd : c.opcodesDistinct = true) {k k' : Cmd}
    (h : c.opcode k = c.opcode k') : k = k' :=
  Option.some.inj (by rw [← Cfg.cmdOfOpcode_opcode hd k, h, Cfg.cmdOfOpcode_opcode hd k'])

/-- send_command of a byte that a described target takes. -/
theorem exec_sendCommand_target {s : State} {b : Byte} (h : s.env.takeBus.1 = .ok)
    (hc : s.cfg.ctrlCmd ≠ s.cfg.ctrlData) (described : s.target.lost = none) {u : Target}
    (hu : s.target.commandByte s.cfg s.env.busDraws b = u) :
    ∃ t, exec (.sendCommand b) s = .next t ∧ t.target = u := by
  obtain ⟨e, target⟩ := exec_sendCommand_ok b h hc described
  exact ⟨_, e, (State.leave_target _).trans (target.trans hu)⟩

/-- An opcode with parameters, at a target that waits for one, waits for them (R61). -/
theorem Target.commandByte_waits {c : Cfg} (n : Nat) {k : Cmd} {t : Target} (hd : c.opcodesDistinct = true)
    (idle : t.pending = none) (hk : 0 < k.params) :
    t.commandByte c n (c.opcode k) = { t with pending := some ⟨k, [], false⟩ } := by
  rw [Target.commandByte_opcode n k hd idle, if_neg (by omega)]

/-- A controller command whose first parameter fails, at a target that took its opcode and nothing of the parameter, is cut
there (U6). -/
theorem exec_command_cut_waiting {i : Instr} {s : State} {k : Cmd} {p : Byte} {more : List Byte} {taken : Nat}
    (hbytes : commandBytes s.cfg i = s.cfg.opcode k :: p :: more) (described : s.target.lost = none)
    (hc : s.cfg.ctrlCmd ≠ s.cfg.ctrlData) (hd : s.cfg.opcodesDistinct = true) (idle : s.target.pending = none)
    (hk : 0 < k.params) (h : s.env.takeBus.1 = .ok) (effect : s.cfg.failedTxn = .none)
    (hf : s.env.takeBus.2.takeBus.1 = .busError taken) :
    ∃ t, exec i s = .next t ∧ t.target = { s.target with pending := some ⟨k, [], true⟩ } := by
  obtain ⟨k', ps, e, bytes, -⟩ := exec_command i (s := s) (by simp [hbytes])
  obtain ⟨opcode, rfl⟩ := List.cons.inj (hbytes.symm.trans bytes)
  obtain rfl := Cfg.opcode_inj hd opcode
  have first : Env.busOks 1 s.env = true := by simp [Env.busOks, h]
  obtain ⟨run, -⟩ := runTxs_cut (s.cfg.commandTxs k (p :: more)) 1 taken (by simp [Cfg.commandTxs]) first hf
  have waits : (s.busOk (s.cfg.cmdTx .opcode (s.cfg.opcode k))).target
      = { s.target with pending := some ⟨k, [], false⟩ } :=
    (Target.deliver_cmdTx _ .opcode _ hc described).trans (Target.commandByte_waits _ hd idle hk)
  refine ⟨_, e, ?_⟩
  rw [run, State.leave_target]
  show Target.deliverFailed s.cfg _ (s.cfg.cmdTx .param p) taken
    (s.busOk (s.cfg.cmdTx .opcode (s.cfg.opcode k))).target = _
  rw [waits, Target.deliverFailed, Target.deliverPrefix, effect]
  rfl

/-- The last parameter makes the command take effect (R61). -/
theorem Target.commandByte_completes {c : Cfg} (n : Nat) (b : Byte) {t : Target} {k : Cmd} {ps : List Byte}
    (waiting : t.pending = some ⟨k, ps, false⟩) (last : k.params ≤ ps.length + 1) :
    t.commandByte c n b = ({ t with pending := none } : Target).effect c n k (ps ++ [b]) := by
  rw [Target.commandByte_pending n b waiting rfl, Target.paramByte, if_pos (by simpa using last)]

/-- Before the last, a parameter is kept (R61). -/
theorem Target.commandByte_collects {c : Cfg} (n : Nat) (b : Byte) {t : Target} {k : Cmd} {ps : List Byte}
    (waiting : t.pending = some ⟨k, ps, false⟩) (more : ps.length + 1 < k.params) :
    t.commandByte c n b = { t with pending := some ⟨k, ps ++ [b], false⟩ } := by
  rw [Target.commandByte_pending n b waiting rfl, Target.paramByte, if_neg (by simpa using more)]

/-- The settings with one parameter are recorded (R67); the other command with one is MEM_MODE. -/
theorem Target.effect_of_one_param {c : Cfg} (n : Nat) (t : Target) {k : Cmd} (ps : List Byte)
    (one : k.params = 1) (hk : k ≠ .memMode) : t.effect c n k ps = t.record k ps := by
  cases k with
  | memMode => exact absurd rfl hk
  | dispOff | startLine | segRemap | comDir | entireOnRam | normal | scrollOff | dispOn | colAddr
  | pageAddr => cases one
  | _ => rfl

/-- Settles O60: each clause is one branch of how a target reads a command byte, by its pending command. -/
theorem commandBytesReadByPosition : Obligations.CommandBytesReadByPosition := by
  intro b s described hc hd h
  have sends {u : Target} (hu : s.target.commandByte s.cfg s.env.busDraws b = u) :
      ∃ t, exec (.sendCommand b) s = .next t ∧ t.target = u :=
    exec_sendCommand_target h hc described hu
  refine ⟨?opcode, ?single, ?cut, ?parameter⟩
  case opcode =>
    rintro k idle rfl hk
    exact ⟨sends (Target.commandByte_waits _ hd idle hk), fun i p more taken hbytes effect hf =>
      exec_command_cut_waiting hbytes described hc hd idle hk h effect hf⟩
  case single =>
    intro i hbytes
    obtain ⟨t, e, -, -, -, -, -, eq⟩ := exec_command_ok (i := i) (s := s) (by simp [hbytes])
      (by simp [hbytes, Env.busOks, h])
    obtain ⟨e', -⟩ := exec_sendCommand_ok b h hc described
    simp only [hbytes, sendEach, e'] at eq
    exact ⟨t, e, eq ▸ e'⟩
  case cut =>
    intro k ps waiting
    obtain ⟨t, e, target⟩ := sends (Target.commandByte_cut _ b waiting rfl)
    exact ⟨t, e, by rw [target]; rfl⟩
  case parameter =>
    intro k ps waiting
    refine ⟨fun more => sends (Target.commandByte_collects _ b waiting more), fun one hk => sends ?_, ?_, ?_, ?_⟩
    · rw [Target.commandByte_completes _ b waiting (by omega), Target.effect_of_one_param _ _ _ one hk]
      rfl
    · rintro rfl rfl
      exact sends (Target.commandByte_completes _ b waiting (by decide))
    · rintro a rfl rfl ordered inside
      exact sends ((Target.commandByte_completes _ b waiting (by simp [Cmd.params])).trans (if_pos ⟨ordered, inside⟩))
    · rintro a rfl rfl ordered inside
      exact sends ((Target.commandByte_completes _ b waiting (by simp [Cmd.params])).trans (if_pos ⟨ordered, inside⟩))

end Sys2Proof.Machine
end

section
/-! Proofs for 41_display_driver.md: render and clear (R135 to R137, R140). -/

namespace Sys2Proof.Machine

/-! ### The checks of render -/

/-- A render that fails a check raises it and does nothing else (R136, R212). -/
theorem exec_render_raises {buf : List Byte} {a : Area} {s : State} {v : Violation}
    (h : s.cfg.renderCheck a.rect buf.length = some v) : exec (.render buf a) s = .next (s.raise v) := by
  have e : renderOp 0 buf a.rect s = (s, .contractViolation v) := by rw [renderOp, h]
  exact congrArg (fun r => Host.Outcome.next (State.leave r)) e

/-- A render that passes the checks is its seven transactions. -/
theorem exec_render_txs {buf : List Byte} {a : Area} {s : State}
    (h : s.cfg.renderCheck a.rect buf.length = none) :
    exec (.render buf a) s = .next (State.leave (runTxs 0 (s.cfg.renderTxs a.rect buf) s)) := by
  have e : renderOp 0 buf a.rect s = runTxs 0 (s.cfg.renderTxs a.rect buf) s := by rw [renderOp, h]
  exact congrArg (fun r => Host.Outcome.next (State.leave r)) e

theorem Cfg.inDisplay_iff (c : Cfg) (r : Rect) :
    c.inDisplay r = true ↔ r.endCol ≤ c.width - 1 ∧ r.endPage ≤ c.pages - 1 := by
  simp only [Cfg.inDisplay, Bool.and_eq_true, decide_eq_true_eq]

theorem Cfg.renderCheck_of_invalid {c : Cfg} {r : Rect} (h : ¬ r.valid = true) (n : Nat) :
    c.renderCheck r n = some .invalidArea := if_pos h

theorem Cfg.renderCheck_of_outside {c : Cfg} {r : Rect} (hv : r.valid = true) (h : ¬ c.inDisplay r = true)
    (n : Nat) : c.renderCheck r n = some .areaOutsideDisplay := by
  rw [Cfg.renderCheck, if_neg (not_not.mpr hv), if_pos h]

theorem Cfg.renderCheck_of_inside {c : Cfg} {r : Rect} (hv : r.valid = true) (h : c.inDisplay r = true)
    (n : Nat) : c.renderCheck r n = if n ≠ r.bufferLength then some .lengthMismatch else none := by
  rw [Cfg.renderCheck, if_neg (not_not.mpr hv), if_neg (not_not.mpr h)]

/-- Settles O27: each branch is a branch of the check chain, and no transaction of a render faults the block. -/
theorem renderRejectsBadOperands : Obligations.RenderRejectsBadOperands := by
  intro buf a s
  have valid_iff := a.rect.valid_iff
  have inside_iff := Cfg.inDisplay_iff s.cfg a.rect
  split
  next invalid =>
    refine exec_render_raises (Cfg.renderCheck_of_invalid (fun valid => ?_) _)
    obtain ⟨col, page⟩ := valid_iff.mp valid
    exact invalid.elim (Nat.not_lt.mpr col) (Nat.not_lt.mpr page)
  next hvalid =>
    have valid : a.rect.valid = true := by
      rw [not_or, Nat.not_lt, Nat.not_lt] at hvalid
      exact valid_iff.mpr hvalid
    split
    next outside =>
      refine exec_render_raises (Cfg.renderCheck_of_outside valid (fun inside => ?_) _)
      obtain ⟨col, page⟩ := inside_iff.mp inside
      exact outside.elim (Nat.not_lt.mpr col) (Nat.not_lt.mpr page)
    next hinside =>
      have inside : s.cfg.inDisplay a.rect = true := by
        rw [not_or, Nat.not_lt, Nat.not_lt] at hinside
        exact inside_iff.mpr hinside
      have check := Cfg.renderCheck_of_inside valid inside buf.length
      have product := Rect.bufferLength_cast valid
      split
      next mismatch =>
        exact exec_render_raises (check.trans (if_pos fun e => mismatch ((congrArg Nat.cast e).trans product)))
      next hlength =>
        have length : buf.length = a.rect.bufferLength :=
          Nat.cast_injective ((not_not.mp hlength).trans product.symm)
        exact ⟨_, exec_render_txs (check.trans (if_neg (not_not.mpr length))),
          State.leave_pos (runTxs_only _ _ _) (runTxs_no_violation _ _ _)⟩

/-! ### What a complete render sends -/

/-- A render that passes the checks, on a bus that answers ok. -/
theorem exec_render_ok {buf : List Byte} {a : Area} {s : State}
    (hv : s.cfg.renderCheck a.rect buf.length = none) (h : Env.busOks 7 s.env = true) :
    exec (.render buf a) s = .next (State.leave (s.runOk (s.cfg.renderTxs a.rect buf), .ok)) :=
  congrArg (fun r => Host.Outcome.next (State.leave r)) (renderOp_ok hv h 0)

/-- The six transactions of the two window commands of a render (R135). -/
def Cfg.windowTxs (c : Cfg) (r : Rect) : List Tx :=
  c.commandTxs .colAddr [BitVec.ofNat 8 r.startCol, BitVec.ofNat 8 r.endCol]
    ++ c.commandTxs .pageAddr [BitVec.ofNat 8 r.startPage, BitVec.ofNat 8 r.endPage]

/-- The six command bytes of a render (R135). -/
def windowBytes (c : Cfg) (a : Area) : List Byte :=
  [c.cmd.colAddr, a.startCol, a.endCol, c.cmd.pageAddr, a.startPage, a.endPage]

/-- A render is its two window commands, then its pixel buffer. -/
theorem Cfg.renderTxs_eq (c : Cfg) (r : Rect) (buf : List Byte) :
    c.renderTxs r buf = Cfg.windowTxs c r ++ [c.dataTx buf] := rfl

theorem Cfg.windowTxs_cmd (c : Cfg) (r : Rect) : ∀ tx ∈ Cfg.windowTxs c r, ∃ role b, tx = c.cmdTx role b := by
  intro tx h
  obtain h | h := List.mem_append.mp h
  · exact Cfg.commandTxs_cmd c _ _ tx h
  · exact Cfg.commandTxs_cmd c _ _ tx h

theorem Cfg.windowTxs_bytes (c : Cfg) (a : Area) :
    (Cfg.windowTxs c a.rect).map Tx.bytes = (windowBytes c a).map fun b => [c.ctrlCmd, b] := by
  simp [Cfg.windowTxs, Cfg.commandTxs, Cfg.cmdTx, windowBytes, Area.rect, Cfg.opcode]

/-- The traffic of a render of an AREA record: its bounds are the record's bytes. -/
theorem renderEvents_area (c : Cfg) (a : Area) (buf : List Byte) :
    renderEvents c a.rect buf = (windowBytes c a).map (cmdEvent c true) ++ [dataEvent c true buf] := by
  simp [renderEvents, windowBytes, Area.rect]

/-- Settles O28: the seven transactions complete, and what they leave depends on their bytes alone. -/
theorem renderSendsWindowsThenPixels : Obligations.RenderSendsWindowsThenPixels := by
  intro buf a s hv h
  refine ⟨_, exec_render_ok hv h, unchanged_ok _ s, (State.runOk_only _ s).pos, State.runOk_inflight _ s, rfl,
    ?_, ?_⟩
  · rw [State.leave_events, State.runOk_events, Cfg.renderTxs_events, renderEvents_area]
    rfl
  · rw [show 7 = 6 + 1 from rfl, Env.busOks_add, Bool.and_eq_true] at h
    obtain ⟨windows, pixels⟩ := h
    have sent : sendEach (windowBytes s.cfg a) s = State.leave (s.runOk (Cfg.windowTxs s.cfg a.rect), .ok) :=
      (runOk_sendEach (bs := windowBytes s.cfg a) (List.cons_ne_nil _ _) windows (Cfg.windowTxs_bytes s.cfg a)).symm
    have answers : (State.leave (s.runOk (Cfg.windowTxs s.cfg a.rect), .ok)).env.takeBus.1 = .ok := by
      rw [State.leave_env, State.runOk_env]
      exact of_decide_eq_true (Bool.and_eq_true_iff.mp pixels).1
    have cfg : (State.leave (s.runOk (Cfg.windowTxs s.cfg a.rect), .ok)).cfg = s.cfg :=
      (State.runOk_only _ s).cfg
    show exec (.sendPixelBuffer buf) (sendEach (windowBytes s.cfg a) s) = _
    rw [sent, Cfg.renderTxs_eq, State.runOk_append]
    show Host.Outcome.next (State.leave (State.busWrite _ 0 (Cfg.dataTx _ buf))) = _
    rw [State.busWrite_ok 0 _ answers, cfg]
    rfl

/-! ### What a cut render sends -/

/-- A cut among the transactions before `tx` does not show `tx`. -/
theorem runTxs_cut_append {s : State} {txs : List Tx} (tx : Tx) {j taken : Nat} (hj : j < txs.length)
    (h : Env.busOks j s.env = true) (hf : (Env.afterBus j s.env).takeBus.1 = .busError taken) :
    runTxs 0 (txs ++ [tx]) s = runTxs 0 txs s := by
  have hj' : j < (txs ++ [tx]).length := by simp; omega
  rw [(runTxs_cut (txs ++ [tx]) j taken hj' h hf).1, (runTxs_cut txs j taken hj h hf).1,
    List.take_append_of_le_length hj.le, List.getElem_append_left hj]

/-- What is on the wire where a render is cut: a failed pixel buffer at the last transaction, else a failed command. -/
theorem cutEvents_render (c : Cfg) (a : Area) (buf : List Byte) {j : Nat} (hj : j < 7) :
    cutEvents (renderEvents c a.rect buf) j = (renderEvents c a.rect buf).take j ++
      (if j = 6 then [dataEvent c false buf]
        else (((windowBytes c a).map (cmdEvent c false)).drop j).take 1) := by
  rw [cutEvents, renderEvents_area]
  congr 1
  interval_cases j <;> rfl

/-- Settles O30: the sequence ends at its first failure, and before the pixel buffer only commands were sent. -/
theorem renderStopsAtFirstFailure : Obligations.RenderStopsAtFirstFailure := by
  intro buf a s j taken hv hc hj h hf
  obtain ⟨-, unchanged, pos, inflight, ret, events⟩ := runTxs_cut (s.cfg.renderTxs a.rect buf) j taken hj h hf
  refine ⟨_, _, exec_render_txs hv, unchanged, pos, inflight, ret, ?_, fun hlt described page col => ?_⟩
  · rw [events, Cfg.renderTxs_events, cutEvents_render s.cfg a buf hj, List.append_assoc]
    rfl
  · rw [State.leave_target, Cfg.renderTxs_eq, runTxs_cut_append _ hlt h hf] at described
    rw [State.leave_cfg, State.leave_target, (runTxs_only _ _ s).cfg, Cfg.renderTxs_eq,
      runTxs_cut_append _ hlt h hf, Target.ramAt, Target.ramAt,
      (runTxs_cmd_ram hc _ 0 (Cfg.windowTxs_cmd s.cfg a.rect)).resolve_left (· described)]

/-! ### What a complete render leaves at the target -/

/-- A complete render at a target that takes data: the state after it, and its target (R54, R62 to R64). -/
theorem exec_render_target {buf : List Byte} {a : Area} {s : State} (hw : s.cfg.wf = true)
    (hd : s.cfg.opcodesDistinct = true) (hv : s.cfg.renderCheck a.rect buf.length = none)
    (h : Env.busOks 7 s.env = true) (ready : s.target.ready = true) :
    ∃ t, exec (.render buf a) s = .next t ∧ t.cfg = s.cfg ∧ t.env = Env.afterBus 7 s.env ∧
      t.events = s.events ++ renderEvents s.cfg a.rect buf ∧ t.target.ready = true ∧
      t.target = { s.target with
        ram := fillRam s.cfg a.rect 0 buf s.target.ram
        colStart := a.startCol.toNat, colEnd := a.endCol.toNat
        pageStart := a.startPage.toNat, pageEnd := a.endPage.toNat
        col := a.startCol.toNat, page := a.startPage.toNat } := by
  have f := Cfg.facts hw
  have target := render_target f.controlBytes hd f.widthLow f.widthHigh f.pagesLow f.pagesHigh hv ready
  refine ⟨_, exec_render_ok hv h, (State.runOk_only _ s).cfg, State.runOk_env _ s, State.runOk_events _ s, ?_, target⟩
  rw [State.leave_target, target]
  exact (Target.ready_iff _).mpr ((Target.ready_iff _).mp ready)

/-- Settles O29: the windows are the area, and the payload fills it once. -/
theorem renderFillsItsArea : Obligations.RenderFillsItsArea := by
  intro buf a s hw hd hv h ready
  have f := Cfg.facts hw
  obtain ⟨t, e, cfg, -, -, ready', target⟩ := exec_render_target hw hd hv h ready
  obtain ⟨inside, outside⟩ := render_ram f.widthLow f.pagesLow hv t.target _ rfl (by rw [target])
  refine ⟨t, e, ready', ?_⟩
  rw [cfg]
  refine ⟨by rw [target], by rw [target], by rw [target], by rw [target], by rw [target], by rw [target], inside,
    outside⟩

/-! ### A render twice -/

/-- At a key that a payload writes, what RAM held before does not show. -/
theorem fillRam_read_written {c : Cfg} {r : Rect} (vs : List Byte) {k j : Nat} (hlow : k ≤ j)
    (hhigh : j < k + vs.length) (m m' : Memory) :
    Memory.read (fillRam c r k vs m) (Rect.keyAt c r j) = Memory.read (fillRam c r k vs m') (Rect.keyAt c r j) := by
  induction vs generalizing k j m m' with
  | nil => simp at hhigh; omega
  | cons v vs ih =>
    rw [List.length_cons] at hhigh
    by_cases later : ∃ i, k + 1 ≤ i ∧ i < k + 1 + vs.length ∧ Rect.keyAt c r i = Rect.keyAt c r j
    · obtain ⟨i, hi, hi', same⟩ := later
      rw [← same]
      exact ih hi hi' _ _
    · have last : ∀ i, k + 1 ≤ i → i < k + 1 + vs.length → Rect.keyAt c r j ≠ Rect.keyAt c r i :=
        fun i hi hi' same => later ⟨i, hi, hi', same.symm⟩
      obtain rfl : j = k := by
        by_contra hne
        exact last j (by omega) (by omega) rfl
      rw [fillRam, fillRam, fillRam_other vs _ _ last, fillRam_other vs _ _ last, Memory.read_write_same,
        Memory.read_write_same]

theorem fillRam_wf {c : Cfg} {r : Rect} (vs : List Byte) (k : Nat) {m : Memory} (h : Memory.wf m = true) :
    Memory.wf (fillRam c r k vs m) = true := by
  induction vs generalizing k m with
  | nil => exact h
  | cons v vs ih => exact ih (k + 1) (Memory.write_wf m _ v h)

/-- A payload sent again leaves the same RAM: every key it writes holds its byte, every other is untouched (R58). -/
theorem fillRam_twice {c : Cfg} {r : Rect} (vs : List Byte) (k : Nat) {m : Memory} (h : Memory.wf m = true) :
    fillRam c r k vs (fillRam c r k vs m) = fillRam c r k vs m := by
  refine Memory.ext_of_read (fillRam_wf vs k (fillRam_wf vs k h)) (fillRam_wf vs k h) fun a => ?_
  by_cases written : ∃ j, k ≤ j ∧ j < k + vs.length ∧ a = Rect.keyAt c r j
  · obtain ⟨j, hlow, hhigh, rfl⟩ := written
    exact fillRam_read_written vs hlow hhigh _ _
  · exact fillRam_other vs k _ fun j hlow hhigh same => written ⟨j, hlow, hhigh, same⟩

/-- Settles O31: the second render fills the same window with the same payload, and sends the same bytes. -/
theorem renderTwiceSameRam : Obligations.RenderTwiceSameRam := by
  intro buf a s t u inv hd hv h ready ht hu
  rw [show 14 = 7 + 7 from rfl, Env.busOks_add, Bool.and_eq_true] at h
  obtain ⟨t', e, cfg, env, events, ready', target⟩ := exec_render_target inv.cfgWf hd hv h.1 ready
  cases ht.symm.trans e
  obtain ⟨u', e', -, -, events', -, target'⟩ := exec_render_target (s := t) (by rw [cfg]; exact inv.cfgWf)
    (by rw [cfg]; exact hd) (by rw [cfg]; exact hv) (by rw [env]; exact h.2) ready'
  cases hu.symm.trans e'
  rw [cfg] at events' target'
  refine ⟨?_, _, events, events'⟩
  rw [target', target]
  exact fillRam_twice buf 0 inv.ramWf

/-! ### clear -/

/-- The area of clear as a record: a display is at most 256 columns and pages (R9, R140). -/
theorem fullRect_area {c : Cfg} (f : Cfg.Facts c) :
    (Area.mk 0 (BitVec.ofNat 8 (c.width - 1)) 0 (BitVec.ofNat 8 (c.pages - 1))).rect = c.fullRect := by
  have col : (BitVec.ofNat 8 (c.width - 1)).toNat = c.width - 1 :=
    (BitVec.toNat_ofNat _ _).trans (Nat.mod_eq_of_lt (by have := f.widthLow; have := f.widthHigh; omega))
  have page : (BitVec.ofNat 8 (c.pages - 1)).toNat = c.pages - 1 :=
    (BitVec.toNat_ofNat _ _).trans (Nat.mod_eq_of_lt (by have := f.pagesLow; have := f.pagesHigh; omega))
  rw [Area.rect, col, page]
  rfl

/-- clear is the seven transactions of its render: the checks hold (R140). -/
theorem exec_clear_txs {s : State} (f : Cfg.Facts s.cfg) :
    exec .clear s = .next (State.leave (runTxs 0
      (s.cfg.renderTxs s.cfg.fullRect (List.replicate s.cfg.totalBufLen 0)) s)) := by
  have e : clearOp s = runTxs 0 (s.cfg.renderTxs s.cfg.fullRect (List.replicate s.cfg.totalBufLen 0)) s := by
    rw [clearOp, renderOp, Cfg.renderCheck_full f]
  exact congrArg (fun r => Host.Outcome.next (State.leave r)) e

/-- Settles O32: clear passes the checks of every well-formed configuration, so it is the seven transactions of a render,
whole or cut. -/
theorem clearZeroesTheDisplay : Obligations.ClearZeroesTheDisplay := by
  refine ⟨fun s hw => ?_, fun s hw h => ?_, fun s j taken hw hj h hf => ?_, fun s hw => ?_⟩
  · exact ⟨_, exec_clear_txs (Cfg.facts hw), State.leave_pos (runTxs_only _ _ _) (runTxs_no_violation _ _ _)⟩
  · have e := exec_clear_txs (Cfg.facts hw)
    rw [runTxs_ok (s.cfg.renderTxs s.cfg.fullRect (List.replicate s.cfg.totalBufLen 0)) 0 s h] at e
    refine ⟨_, e, unchanged_ok _ s, State.runOk_inflight _ s, rfl, State.runOk_events _ s, fun hd ready => ?_⟩
    rw [State.leave_cfg, State.leave_target, (State.runOk_only _ s).cfg]
    exact clear_target hw hd ready _ rfl
  · obtain ⟨-, unchanged, pos, inflight, ret, events⟩ := runTxs_cut
      (s.cfg.renderTxs s.cfg.fullRect (List.replicate s.cfg.totalBufLen 0)) j taken hj h hf
    exact ⟨_, _, exec_clear_txs (Cfg.facts hw), unchanged, pos, inflight, ret, events⟩
  · show Host.Outcome.next (State.leave (renderOp 0 _ s.cfg.fullRect s)) = .next (State.leave (renderOp 0 _ _ s))
    rw [fullRect_area (Cfg.facts hw)]
    rfl

end Sys2Proof.Machine
end

section
/-! Proofs for 42_glyph_renderer.md: draw_number (R151 to R156). -/

namespace Sys2Proof.Machine

/-- Settles O37: the sign of the value is the operation's first test. -/
theorem negativeNumberRefused : Obligations.NegativeNumberRefused :=
  fun _ _ _ h => if_pos h

/-! ### The traffic of the slots -/

/-- The traffic of slot `i` of `n`, written with the digits of R152 and the rectangle of R153. -/
def slotEvents (c : Cfg) (v n i : Nat) : List Event :=
  renderEvents c
    { startCol := i * c.glyphW + i
      endCol := i * c.glyphW + i + c.glyphW - 1
      startPage := c.digitPage, endPage := c.digitPage }
    (if v < 10 ^ (n - 1 - i) ∧ i ≠ n - 1 then c.glyph 10 else c.glyph (v / 10 ^ (n - 1 - i) % 10))

theorem slotEvents_eq (c : Cfg) (v : Nat) {n i : Nat} (hi : i < n) :
    slotEvents c v n i = renderEvents c (c.slotRect i) (c.slotTile v (n - 1 - i)) := by
  rw [Cfg.slotTile_eq c v n i hi]
  rfl

theorem flatMap_slotEvents (c : Cfg) (v : Nat) {n m : Nat} (hm : m ≤ n) :
    (List.range m).flatMap (slotEvents c v n)
      = (List.range m).flatMap fun i => renderEvents c (c.slotRect i) (c.slotTile v (n - 1 - i)) :=
  List.flatMap_congr fun _ hi => slotEvents_eq c v ((List.mem_range.mp hi).trans_le hm)

theorem okEvents_slotTxs (c : Cfg) (v n : Nat) :
    okEvents c (Cfg.slotTxs c v n n) = (List.range n).flatMap (slotEvents c v n) := by
  rw [slotTxs_events c v n n le_rfl, Nat.sub_self, ← List.range_eq_range', flatMap_slotEvents c v le_rfl]

/-! ### A number that fits -/

/-- A number that fits is the transactions of its slots, left to right (R151). -/
theorem drawNumberOp_txs {v n : Nat} {s : State} (f : Cfg.Facts s.cfg)
    (hn : n * s.cfg.glyphW + (n - 1) ≤ s.cfg.width) :
    drawNumberOp v n s = runTxs 0 (Cfg.slotTxs s.cfg v n n) s := by
  rw [drawNumberOp, drawSlots_txs f hn n le_rfl, Nat.sub_self]

/-- On a bus that answers ok they complete. -/
theorem drawNumberOp_ok {v n : Nat} {s : State} (f : Cfg.Facts s.cfg)
    (hn : n * s.cfg.glyphW + (n - 1) ≤ s.cfg.width) (h : Env.busOks (7 * n) s.env = true) :
    drawNumberOp v n s = (s.runOk (Cfg.slotTxs s.cfg v n n), .ok) := by
  rw [drawNumberOp_txs f hn, runTxs_ok _ 0 s (by rw [Cfg.slotTxs_length]; exact h)]

theorem exec_drawNumber_ok {v n : Nat} {s : State} (f : Cfg.Facts s.cfg)
    (hn : n * s.cfg.glyphW + (n - 1) ≤ s.cfg.width) (h : Env.busOks (7 * n) s.env = true) :
    exec (.drawNumber v n) s = .next (State.leave (s.runOk (Cfg.slotTxs s.cfg v n n), .ok)) := by
  rw [exec_drawNumber, drawNumberOp_ok f hn h]

/-- Settles O33: the transactions of the slots complete. -/
theorem drawNumberRendersItsSlots : Obligations.DrawNumberRendersItsSlots := by
  intro v n s hw hn h
  refine ⟨_, exec_drawNumber_ok (Cfg.facts hw) hn h, unchanged_ok _ s, (State.runOk_only _ s).pos,
    State.runOk_inflight _ s, rfl, ?_⟩
  rw [State.leave_events, State.runOk_events, okEvents_slotTxs]
  rfl

/-- Settles O34: each slot's render fills its rectangle, and the rectangles do not meet. -/
theorem drawNumberShowsItsDigits : Obligations.DrawNumberShowsItsDigits := by
  intro v n s hw hd hn h ready
  obtain ⟨ready', -, shown, kept⟩ := slotTxs_target (v := v) n le_rfl hw hd hn ready h
  refine ⟨_, exec_drawNumber_ok (Cfg.facts hw) hn h, ready', ?_⟩
  rw [State.leave_cfg, State.leave_target, (State.runOk_only _ s).cfg]
  refine ⟨fun i k hi hk => ?_, fun page col untouched => kept page col fun i k _ => untouched i k⟩
  rw [shown i k (by omega) hi hk, Cfg.slotTile_eq s.cfg v n i hi]

/-- Settles O36: a number that fits ends at the first of its transactions that fails. -/
theorem drawNumberStopsAtFirstFailure : Obligations.DrawNumberStopsAtFirstFailure := by
  intro v n j taken s hw hn hj h hf
  obtain ⟨-, unchanged, pos, inflight, ret, events⟩ := runTxs_cut (Cfg.slotTxs s.cfg v n n) j taken
    (by rw [Cfg.slotTxs_length]; exact hj) h hf
  rw [okEvents_slotTxs] at events
  have e := exec_drawNumber v n s
  rw [drawNumberOp_txs (Cfg.facts hw) hn] at e
  exact ⟨_, _, e, unchanged, pos, inflight, ret, events⟩

/-! ### A number that does not fit -/

/-- The transactions of the first `m` of `n` slots. -/
def Cfg.firstSlotTxs (c : Cfg) (v n m : Nat) : List Tx :=
  (List.range m).flatMap fun i => c.renderTxs (c.slotRect i) (c.slotTile v (n - 1 - i))

theorem Cfg.firstSlotTxs_succ (c : Cfg) (v n m : Nat) :
    Cfg.firstSlotTxs c v n (m + 1)
      = Cfg.firstSlotTxs c v n m ++ c.renderTxs (c.slotRect m) (c.slotTile v (n - 1 - m)) := by
  simp [Cfg.firstSlotTxs, List.range_succ]

theorem Cfg.firstSlotTxs_length (c : Cfg) (v n m : Nat) : (Cfg.firstSlotTxs c v n m).length = 7 * m := by
  induction m with
  | zero => rfl
  | succ m ih => rw [Cfg.firstSlotTxs_succ, List.length_append, ih]; rfl

theorem okEvents_firstSlotTxs (c : Cfg) (v : Nat) {n m : Nat} (hm : m ≤ n) :
    okEvents c (Cfg.firstSlotTxs c v n m) = (List.range m).flatMap (slotEvents c v n) := by
  rw [flatMap_slotEvents c v hm, Cfg.firstSlotTxs, okEvents, List.map_flatMap]
  rfl

/-- The first `m` slots, which fit, are drawn; the others are left (R154). -/
theorem drawSlots_first {v n m : Nat} {s : State} (f : Cfg.Facts s.cfg) (hm : m ≤ n)
    (fits : m * s.cfg.glyphW + (m - 1) ≤ s.cfg.width) (h : Env.busOks (7 * m) s.env = true) :
    drawSlots v n n s = drawSlots v n (n - m) (s.runOk (Cfg.firstSlotTxs s.cfg v n m)) := by
  induction m with
  | zero => rfl
  | succ m ih =>
    rw [Nat.mul_succ, Env.busOks_add, Bool.and_eq_true] at h
    have slot := Cfg.slot_fits fits m.lt_succ_self
    rw [ih (by omega) (by omega) h.1]
    generalize hu : s.runOk (Cfg.firstSlotTxs s.cfg v n m) = u
    have cfg : u.cfg = s.cfg := by rw [← hu]; exact (State.runOk_only _ s).cfg
    have env : u.env = Env.afterBus (7 * m) s.env := by rw [← hu, State.runOk_env, Cfg.firstSlotTxs_length]
    have check := Cfg.renderCheck_slot f v (n - 1 - m) m slot
    rw [show n - m = n - 1 - m + 1 by omega, drawSlots, show n - (n - 1 - m + 1) = m by omega, cfg,
      renderOp_ok (by rw [cfg]; exact check) (by rw [env]; exact h.2), andThen_ok, Cfg.firstSlotTxs_succ,
      State.runOk_append, hu, cfg, show n - (m + 1) = n - 1 - m by omega]

/-- A slot that ends beyond the display fails render's second check (R136, R154). -/
theorem Cfg.renderCheck_slot_outside {c : Cfg} (f : Cfg.Facts c) {i : Nat}
    (h : c.width < (i + 1) * c.glyphW + i) (n : Nat) :
    c.renderCheck (c.slotRect i) n = some .areaOutsideDisplay := by
  have := f.glyphLow
  have := f.widthLow
  rw [Nat.succ_mul] at h
  refine Cfg.renderCheck_of_outside ((Rect.valid_iff _).mpr ?_) (fun inside => ?_) n
  · simp only [Cfg.slotRect]
    omega
  · obtain ⟨col, -⟩ := (Cfg.inDisplay_iff _ _).mp inside
    simp only [Cfg.slotRect] at col
    omega

/-- Settles O35: after the slots that fit, the next one fails the display check. -/
theorem drawNumberTooWideFaults : Obligations.DrawNumberTooWideFaults := by
  intro v n m s hw hm fits wide h
  have f := Cfg.facts hw
  have only := State.runOk_only (Cfg.firstSlotTxs s.cfg v n m) s
  have op : drawNumberOp v n s
      = (s.runOk (Cfg.firstSlotTxs s.cfg v n m), .contractViolation .areaOutsideDisplay) := by
    rw [drawNumberOp, drawSlots_first f hm.le fits h, show n - m = n - m - 1 + 1 by omega, drawSlots, renderOp,
      show n - (n - m - 1 + 1) = m by omega, only.cfg, Cfg.renderCheck_slot_outside f wide]
    rfl
  have e := exec_drawNumber v n s
  rw [op] at e
  refine ⟨_, e, only.toBlockUnchanged.trans (State.leave_unchanged (_, _)), rfl, rfl, State.runOk_inflight _ s, ?_⟩
  rw [State.leave_events, State.runOk_events, okEvents_firstSlotTxs s.cfg v hm.le]
  rfl

end Sys2Proof.Machine
end

section
/-! Proofs for 70_reset_and_hazards.md: the boot (R245 to R247). -/

namespace Sys2Proof.Machine

/-- At BOOT the step is the boot sequence. -/
theorem step_at_boot {s : State} (hrun : s.runnable = true) (hprog : s.prog = []) (hpos : s.pos = .boot) :
    step s = .next (seqBoot s) := by
  rw [step_of_prog_nil hrun hprog, State.ownStep, hpos]

/-- A call of the sequencer returns nothing to an outside caller, unless it faults (R31). -/
theorem State.proceed_ret {p : SeqPos} {r : State × Status} (hv : ∀ v, r.2 ≠ .contractViolation v) :
    (State.proceed p r).ret = r.1.ret := by
  obtain ⟨-, e⟩ | ⟨v, h, -⟩ | ⟨-, e⟩ := State.proceed_cases p r
  · rw [e]
  · exact absurd h (hv v)
  · rw [e]

/-- Settles O53: none of the boot's calls faults, and a boot that hangs has met one of 54 answers that is a stall. -/
theorem bootReachesTheLoop : Obligations.BootReachesTheLoop := by
  intro s hrun hprog hpos
  obtain ⟨hwf, hidle, -⟩ := s.runnable_iff.mp hrun
  have f := Cfg.facts hwf
  have ends_of_idle : (seqBoot s).inflight = none → (seqBoot s).pos = .s1 := by
    obtain ⟨ends, -⟩ | ⟨-, hangs⟩ := seqBoot_pos f
    · exact fun _ => ends
    · exact fun idle => absurd idle hangs
  refine ⟨_, step_at_boot hrun hprog hpos, seqBoot_unchanged s, ?_, ends_of_idle, ?_, fun answers => ?_⟩
  · exact (State.proceed_ret (bootOp_no_violation f)).trans (bootOp_call s).only.ret
  · obtain ⟨-, idle⟩ | ⟨stays, -⟩ := seqBoot_pos f
    · exact fun hangs => absurd (idle.trans hidle) hangs
    · exact fun _ => stays.trans hpos
  · have returns := (bootOp_ends f answers).1
    have idle : (seqBoot s).inflight = none := by
      rw [seqBoot, State.proceed_inflight]
      obtain ⟨hangs, -⟩ | ⟨-, idle⟩ := bootOp_settled s
      · exact absurd hangs returns
      · exact idle.trans hidle
    exact ⟨idle, ends_of_idle idle⟩

/-! ### A boot on a bus that never fails -/

/-- Three slots fit every well-formed configuration (R9). -/
theorem Cfg.digits_fit {c : Cfg} (f : Cfg.Facts c) : c.digits * c.glyphW + (c.digits - 1) ≤ c.width := by
  have := f.digitsFit
  rw [f.digits]
  omega

theorem Cfg.bootTxs_length {c : Cfg} (f : Cfg.Facts c) : (Cfg.bootTxs c).length = 54 := by
  rw [Cfg.bootTxs, List.length_append, List.length_append, Cfg.slotTxs_length, Cfg.initTxs_length, f.digits]
  rfl

theorem Cfg.bootTxs_events (c : Cfg) :
    okEvents c (Cfg.bootTxs c) = c.seqInit.map (cmdEvent c true)
      ++ renderEvents c c.fullRect (List.replicate c.totalBufLen 0)
      ++ (List.range c.digits).flatMap (slotEvents c c.initialBpm c.digits) := by
  rw [← Cfg.initTxs_events, ← Cfg.renderTxs_events, ← okEvents_slotTxs]
  simp [Cfg.bootTxs, okEvents]

/-- The target after a complete boot: init makes it ready, clear zeroes it, and the slots are drawn. -/
theorem boot_target {s : State} (hw : s.cfg.wf = true) (hd : s.cfg.opcodesDistinct = true)
    (h : Env.busOks 54 s.env = true) (described : s.target.lost = none)
    (hp : ∀ p, s.target.pending = some p → p.cut = false ∧ p.cmd ≠ .colAddr ∧ p.cmd ≠ .pageAddr ∧
      (p.cmd = .memMode → p.params = [] ∧ s.cfg.cmd.dispOff = s.cfg.cmd.memHoriz)) :
    (s.runOk (Cfg.bootTxs s.cfg)).target.ready = true ∧
    (s.runOk (Cfg.bootTxs s.cfg)).target.displayOn = true ∧
    (∀ i k, i < s.cfg.digits → k < s.cfg.glyphW →
      (s.runOk (Cfg.bootTxs s.cfg)).target.ramAt s.cfg s.cfg.digitPage (i * (s.cfg.glyphW + 1) + k)
        = (s.cfg.slotTile s.cfg.initialBpm (s.cfg.digits - 1 - i))[k]?) ∧
    (∀ page col, page < s.cfg.pages → col < s.cfg.width →
      (∀ i k, i < s.cfg.digits → k < s.cfg.glyphW →
        ¬ (page = s.cfg.digitPage ∧ col = i * (s.cfg.glyphW + 1) + k)) →
      (s.runOk (Cfg.bootTxs s.cfg)).target.ramAt s.cfg page col = some 0) := by
  have f := Cfg.facts hw
  rw [Cfg.bootTxs, State.runOk_append, State.runOk_append]
  obtain ⟨ready₁, on₁⟩ := initTxs_ready s.env.busDraws f.controlBytes hd described hp
  rw [← State.runOk_target] at ready₁ on₁
  have cfg₁ := (State.runOk_only s.cfg.initTxs s).cfg
  generalize hinit : s.runOk s.cfg.initTxs = u at ready₁ on₁ cfg₁
  have hw₁ : u.cfg.wf = true := by rw [cfg₁]; exact hw
  have hd₁ : u.cfg.opcodesDistinct = true := by rw [cfg₁]; exact hd
  have f₁ := Cfg.facts hw₁
  obtain ⟨ready₂, zeros⟩ := clear_target hw₁ hd₁ ready₁ _ rfl
  have cleared := render_target f₁.controlBytes hd₁ f₁.widthLow f₁.widthHigh f₁.pagesLow f₁.pagesHigh
    (Cfg.renderCheck_full f₁) ready₁
  have env : (u.runOk (u.cfg.renderTxs u.cfg.fullRect (List.replicate u.cfg.totalBufLen 0))).env
      = Env.afterBus 33 s.env := by
    rw [State.runOk_env, ← hinit, State.runOk_env, ← Env.afterBus_add]
    rfl
  have on₂ : (u.runOk (u.cfg.renderTxs u.cfg.fullRect (List.replicate u.cfg.totalBufLen 0))).target.displayOn
      = true := by rw [cleared]; exact on₁
  have cfg₂ := (State.runOk_only (u.cfg.renderTxs u.cfg.fullRect (List.replicate u.cfg.totalBufLen 0)) u).cfg
  rw [cfg₁] at zeros env ready₂ on₂ cfg₂
  generalize u.runOk (s.cfg.renderTxs s.cfg.fullRect (List.replicate s.cfg.totalBufLen 0)) = w at *
  have answers : Env.busOks (7 * s.cfg.digits) w.env = true := by
    rw [env, f.digits]
    rw [show 54 = 33 + 7 * 3 from rfl, Env.busOks_add, Bool.and_eq_true] at h
    exact h.2
  obtain ⟨ready₃, on₃, shown, kept⟩ := slotTxs_target (v := s.cfg.initialBpm) (n := s.cfg.digits) (s := w)
    s.cfg.digits le_rfl (by rw [cfg₂]; exact hw) (by rw [cfg₂]; exact hd)
    (by rw [cfg₂]; exact Cfg.digits_fit f) ready₂ answers
  rw [cfg₂] at ready₃ on₃ shown kept
  refine ⟨ready₃, on₃.trans on₂, fun i k hi => shown i k (by omega) hi, fun page col hpage hcol gap => ?_⟩
  rw [kept page col fun i k _ => gap i k]
  exact zeros page col hpage hcol

/-- Settles O54: with no failure the boot is its 54 transactions in order. -/
theorem bootShowsTheTempo : Obligations.BootShowsTheTempo := by
  intro s hrun hprog hpos h hd described hp
  obtain ⟨hwf, -, -⟩ := s.runnable_iff.mp hrun
  have f := Cfg.facts hwf
  obtain ⟨ready, on, shown, zeros⟩ := boot_target hwf hd h described hp
  have e := step_at_boot hrun hprog hpos
  have events := State.runOk_events (Cfg.bootTxs s.cfg) s
  have cfg := (State.runOk_only (Cfg.bootTxs s.cfg) s).cfg
  rw [Cfg.bootTxs_events] at events
  have length : (okEvents s.cfg (Cfg.bootTxs s.cfg)).length = 54 :=
    (List.length_map _).trans (Cfg.bootTxs_length f)
  rw [Cfg.bootTxs_events] at length
  rw [seqBoot, bootOp_ok hwf h] at e
  generalize s.runOk (Cfg.bootTxs s.cfg) = u at *
  refine ⟨{ u with pos := .s1 }, e, ?_, ?_, ready, on, ?_, ?_⟩
  · rw [← List.append_assoc, ← List.append_assoc] at events
    exact events
  · rw [← length, ← List.length_append]
    exact congrArg List.length events
  all_goals rw [cfg]
  · intro i k hi hk
    rw [shown i k hi hk, Cfg.slotTile_eq s.cfg _ _ i hi]
  · exact zeros

end Sys2Proof.Machine
end

section
/-! Proofs for 43_encoder_input.md: the rest of a poll (R161, R167), and polls one after another (R164, R166, R168). -/

namespace Sys2Proof.Machine

/-- Settles O40: a poll writes ENC, the clock and the answers taken; without a detent the quadrature part writes only the
level. -/
theorem pollTouchesOnlyEnc : Obligations.PollTouchesOnlyEnc := fun s =>
  ⟨_, exec_poll s, rfl, rfl, rfl, rfl, rfl, rfl, rfl, rfl, rfl, pollOp_env_bus s, pollOp_clock s,
    fun still => (pollOp_of_no_detent (mt (changed_to_high_iff _ _).mp still)).2⟩

/-! ### Polls one after another -/

/-- The state after a poll of an outside caller. -/
def State.polled (s : State) : State := { (pollOp s).2 with ret := .press (pollOp s).1 }

theorem exec_poll_polled (s : State) : exec .poll s = .next s.polled := rfl

theorem pollTimes_succ (n : Nat) (s : State) : pollTimes (n + 1) s = pollTimes n s.polled := rfl

theorem pollTimes_succ_last (n : Nat) (s : State) : pollTimes (n + 1) s = (pollTimes n s).polled := by
  induction n generalizing s with
  | zero => rfl
  | succ n ih => exact ih s.polled

theorem pollTimes_cfg (n : Nat) (s : State) : (pollTimes n s).cfg = s.cfg := by
  induction n generalizing s with
  | zero => rfl
  | succ n ih => exact ih s.polled

/-- What one sample adds to the balance of detents: nothing, or a step by the data level (R163, R168). -/
def edgeStep (last : Level) (p : PinSample) : Int :=
  if last = .low ∧ p.clk = .high then (if p.data = .low then 1 else -1) else 0

/-- A poll moves the counter by its sample's step, modulo 2^CNT_W. -/
theorem polled_counter_mod (s : State) :
    ((2 ^ s.cfg.cntW : Nat) : Int) ∣
      s.polled.enc.counter - (s.enc.counter + edgeStep s.enc.lastClkLevel s.env.takePins.1) := by
  show _ ∣ (pollOp s).2.enc.counter - _
  have detent := changed_to_high_iff s.enc.lastClkLevel s.env.takePins.1.clk
  unfold edgeStep
  split
  next edge =>
    rw [(pollOp_of_detent (detent.mpr edge)).1]
    exact Int.dvd_of_emod_eq_zero (wrapSigned_emod _ _)
  next still =>
    rw [(pollOp_of_no_detent (mt detent.mp still)).1]
    simp

/-- A poll whose sample is written out in advance takes it. -/
theorem polled_of_pins {s : State} {p : PinSample} {ps : List PinSample} (h : s.env.pins = p :: ps) :
    s.env.takePins.1 = p ∧ s.polled.env.pins = ps := by
  have taken : s.env.takePins.1 = p ∧ s.env.takePins.2.pins = ps := by
    unfold Env.takePins
    rw [h]
    exact ⟨rfl, rfl⟩
  refine ⟨taken.1, ?_⟩
  show (pollOp s).2.env.pins = ps
  rw [pollOp_env, Env.takeAdvance_pins, taken.2]

theorem pollTimes_counter_mod (samples rest : List PinSample) (s : State) (h : s.env.pins = samples ++ rest) :
    ((2 ^ s.cfg.cntW : Nat) : Int) ∣ (pollTimes samples.length s).enc.counter
      - (s.enc.counter + detentBalance s.enc.lastClkLevel samples) := by
  induction samples generalizing s with
  | nil => simp [pollTimes, detentBalance]
  | cons p ps ih =>
    obtain ⟨sample, pins⟩ := polled_of_pins h
    have one := polled_counter_mod s
    have others := ih s.polled pins
    have level : s.polled.enc.lastClkLevel = p.clk := by
      rw [← sample]
      exact pollOp_lastClkLevel s
    rw [sample] at one
    rw [level] at others
    rw [List.length_cons, pollTimes_succ,
      show detentBalance s.enc.lastClkLevel (p :: ps)
        = edgeStep s.enc.lastClkLevel p + detentBalance p.clk ps from rfl]
    have total := dvd_add others one
    ring_nf at total ⊢
    exact total

theorem pollTimes_counter_still (samples rest : List PinSample) (s : State) (h : s.env.pins = samples ++ rest)
    (still : risingEdges s.enc.lastClkLevel samples = 0) :
    (pollTimes samples.length s).enc.counter = s.enc.counter := by
  induction samples generalizing s with
  | nil => rfl
  | cons p ps ih =>
    obtain ⟨sample, pins⟩ := polled_of_pins h
    have level : s.polled.enc.lastClkLevel = p.clk := by
      rw [← sample]
      exact pollOp_lastClkLevel s
    obtain ⟨noEdge, others⟩ := Nat.add_eq_zero_iff.mp
      (show (if s.enc.lastClkLevel = .low ∧ p.clk = .high then 1 else 0) + risingEdges p.clk ps = 0 from still)
    have none : ¬ (s.enc.lastClkLevel = .low ∧ p.clk = .high) := fun edge => by simp [edge] at noEdge
    rw [List.length_cons, pollTimes_succ, ih s.polled pins (by rw [level]; exact others)]
    exact (pollOp_of_no_detent (mt (changed_to_high_iff _ _).mp (by rw [sample]; exact none))).1

/-- Settles O41: by induction on the samples, a poll moving the counter by its sample's step. -/
theorem counterCountsDetents : Obligations.CounterCountsDetents := fun samples rest s h _ _ =>
  ⟨Int.emod_eq_zero_of_dvd (pollTimes_counter_mod samples rest s h),
    pollTimes_counter_still samples rest s h⟩

/-- A poll that moved the encoder has read the clock high, so the next one reads no rising edge (R164). -/
theorem polled_still_of_moved {s : State}
    (moved : s.polled.enc.counter ≠ s.enc.counter ∨ s.polled.enc.lastDirection ≠ s.enc.lastDirection) :
    s.polled.polled.enc.counter = s.polled.enc.counter ∧
      s.polled.polled.enc.lastDirection = s.polled.enc.lastDirection := by
  have first : s.env.takePins.1.clk = .high := by
    by_contra low
    obtain ⟨counter, direction⟩ := pollOp_of_no_detent (s := s) fun edge => low edge.2
    exact moved.elim (· counter) (· direction)
  have level : s.polled.enc.lastClkLevel = .high := (pollOp_lastClkLevel s).trans first
  exact pollOp_of_no_detent (s := s.polled) fun edge => edge.1 (edge.2.trans level.symm)

/-- Settles O42: a detent needs the level before it low, and after a detent it is high. -/
theorem noTwoDetentsInARow : Obligations.NoTwoDetentsInARow := by
  intro s t u ht hu moved
  obtain rfl : s.polled = t := Host.Outcome.next.inj ht
  obtain rfl : s.polled.polled = u := Host.Outcome.next.inj hu
  exact polled_still_of_moved moved

/-! ### The held button -/

theorem polled_clock (s : State) :
    s.polled.clock = s.clock + s.env.takeAdvance.1 + 1000 * s.cfg.pollDelayMs := pollOp_clock s

/-- A low sample no more than the debounce time after a low sample is no press (R165, R166). -/
theorem polled_held {s : State} (low : s.env.takePins.1.btn = .low)
    (soon : 1000 * s.cfg.pollDelayMs + s.polled.env.takeAdvance.1 ≤ s.cfg.btnDebounceUs)
    (width : s.cfg.btnDebounceUs < 2 ^ s.cfg.tsW) : (pollOp s.polled).1 = false := by
  have seen : s.polled.enc.lastButtonPressTimestamp = s.pollTime :=
    (pollOp_buttonTime s).trans (if_pos low)
  have cfg : s.polled.cfg = s.cfg := rfl
  have passed : elapsed s.cfg.tsW s.polled.pollTime s.pollTime
      = 1000 * s.cfg.pollDelayMs + s.polled.env.takeAdvance.1 := by
    have later : s.polled.pollTime = (s.clock + s.env.takeAdvance.1
        + (1000 * s.cfg.pollDelayMs + s.polled.env.takeAdvance.1)) % 2 ^ s.cfg.tsW := by
      rw [State.pollTime, polled_clock, cfg, Nat.add_assoc (s.clock + s.env.takeAdvance.1)]
    apply Nat.cast_injective (R := Int)
    rw [elapsed_eq, later, State.pollTime, Int.natCast_mod, Int.natCast_mod, ← Int.sub_emod, Nat.cast_add,
      add_sub_cancel_left]
    exact Int.emod_eq_of_lt (Int.natCast_nonneg _) (by exact_mod_cast lt_of_le_of_lt soon width)
  rw [pollOp_press, cfg, pressed, seen, passed, decide_eq_false (Nat.not_lt.mpr soon), Bool.and_false]

/-- Settles O43: each poll but the first finds the timestamp of the one before it. -/
theorem heldButtonReportsOnce : Obligations.HeldButtonReportsOnce := by
  intro n s low soon width k hpos hk
  obtain ⟨m, rfl⟩ := Nat.exists_eq_add_one_of_ne_zero hpos.ne'
  have cfg := pollTimes_cfg m s
  refine ⟨_, exec_poll_polled _, congrArg Ret.press ?_⟩
  rw [pollTimes_succ_last]
  refine polled_held (low m (by omega)) ?_ (by rw [cfg]; exact width)
  rw [cfg, ← pollTimes_succ_last]
  exact soon (m + 1) hpos hk

end Sys2Proof.Machine
end

section
/-! Proofs for 44_beat_scheduler.md: steps 2 to 4 of a tick (R184 to R188). -/

namespace Sys2Proof.Machine

/-! ### Where the sequencer stands -/

theorem step_at_s2 {s : State} (hrun : s.runnable = true) (hprog : s.prog = []) (hpos : s.pos = .s2) :
    step s = .next (seqS2 s) := by
  rw [step_of_prog_nil hrun hprog, State.ownStep, hpos]

theorem step_at_s3 {s : State} (hrun : s.runnable = true) (hprog : s.prog = []) (hpos : s.pos = .s3) :
    step s = .next (seqS3 s) := by
  rw [step_of_prog_nil hrun hprog, State.ownStep, hpos]

theorem step_at_s4 {s : State} (hrun : s.runnable = true) (hprog : s.prog = []) (hpos : s.pos = .s4) :
    step s = .next (seqS4 s) := by
  rw [step_of_prog_nil hrun hprog, State.ownStep, hpos]

/-! ### Step 2 -/

/-- Step 2 where the counter has not changed. -/
theorem seqS2_still {s : State} (h : tempoDelta s.cfg s.enc.counter s.prevCounter = 0) :
    seqS2 s = { s with prevCounter := s.enc.counter, pos := .s3 } := by
  rw [seqS2, tickStep2_still h]
  rfl

/-- Step 2 leaves of MET all but the tempo and its interval (R185). -/
theorem metAfterStep2_kept (s : State) :
    s.metAfterStep2.enabled = s.met.enabled ∧
      s.metAfterStep2.lastBeatTimestamp = s.met.lastBeatTimestamp ∧
      s.metAfterStep2.pulseActive = s.met.pulseActive := by
  unfold State.metAfterStep2
  split <;> exact ⟨rfl, rfl, rfl⟩

/-- The tempo after step 2, changed or not, is the clamped sum (R185). -/
theorem metAfterStep2_bpm {s : State} (h : Inv s) :
    (s.metAfterStep2.bpm.toNat : Int) = max (s.cfg.bpmMin : Int) (min (s.cfg.bpmMax : Int)
      ((s.met.bpm.toNat : Int) + tempoDelta s.cfg s.enc.counter s.prevCounter)) := by
  have f := Cfg.facts h.cfgWf
  unfold State.metAfterStep2
  split
  next still =>
    have := h.bpmLow
    have := h.bpmHigh
    rw [still]
    omega
  next => rw [← newBpm_eq f]; exact congrArg Nat.cast (bpmAfter_toNat f s.met _)

/-- Step 2 where the counter has changed: the display shows what draw_number of the new tempo would, and a refresh that
completes leads to S3 (R185). -/
theorem seqS2_refresh {s : State} (hw : s.cfg.wf = true)
    (h : tempoDelta s.cfg s.enc.counter s.prevCounter ≠ 0)
    (answers : Env.busOks (7 * s.cfg.digits) s.env = true) :
    (seqS2 s).pos = .s3 ∧
      ∃ u, exec (.drawNumber (seqS2 s).met.bpm.toNat s.cfg.digits) s = .next u ∧
        (seqS2 s).events = u.events ∧ (seqS2 s).target = u.target := by
  have f := Cfg.facts hw
  generalize hdelta : tempoDelta s.cfg s.enc.counter s.prevCounter = delta at h
  have moved : tickStep2 s
      = drawNumberOp (s.met.bpmAfter s.cfg delta).toNat s.cfg.digits (s.retempoed delta) := by
    rw [tickStep2_moved (by rw [hdelta]; exact h), hdelta]
  have tempo : (seqS2 s).met.bpm = s.met.bpmAfter s.cfg delta := by
    rw [seqS2_met, State.metAfterStep2, hdelta, if_neg h]
    rfl
  refine ⟨?_, _, exec_drawNumber _ _ s, ?_, ?_⟩
  · rw [seqS2, moved, drawNumberOp_ok (n := s.cfg.digits) (s := s.retempoed delta) f (Cfg.digits_fit f) answers]
    rfl
  all_goals
    obtain ⟨same, -⟩ := sameDisplay_draw (s := s.retempoed delta) (s' := s) ⟨rfl, rfl, rfl, rfl⟩
      (s.met.bpmAfter s.cfg delta).toNat s.cfg.digits s.cfg.digits
    rw [tempo, seqS2, moved]
  · rw [State.proceed_events, State.leave_events]
    exact same.events
  · rw [State.proceed_target, State.leave_target]
    exact same.target

/-- Settles O45: the delta is the one number in range that is congruent to the change; a zero delta makes step 2 a store,
another one makes it a change of tempo and a refresh. -/
theorem tickStepTwoSetsTheTempo : Obligations.TickStepTwoSetsTheTempo := by
  intro s delta inv hrun hprog hpos hrange hmod
  have f := Cfg.facts inv.cfgWf
  obtain ⟨-, hidle, -⟩ := s.runnable_iff.mp hrun
  have hdelta : tempoDelta s.cfg s.enc.counter s.prevCounter = delta := tempoDelta_unique f.cntW hrange hmod
  refine ⟨_, step_at_s2 hrun hprog hpos, seqS2_prevCounter s, seqS2_enc s, seqS2_out s, seqS2_clock s,
    fun still => ?_, fun moved => ?_⟩
  · rw [seqS2_still (hdelta.trans still)]
    exact ⟨rfl, rfl, rfl, rfl⟩
  · obtain ⟨enabled, time, pulse⟩ := metAfterStep2_kept s
    refine ⟨?_, ?_, ?_, ?_, ?_, fun idle => ?_, seqS2_refresh inv.cfgWf (by rw [hdelta]; exact moved)⟩
    · rw [seqS2_met, metAfterStep2_bpm inv, hdelta]
    · have interval := inv.seqS2.interval
      rw [seqS2_cfg] at interval
      exact interval
    · rw [seqS2_met, enabled]
    · rw [seqS2_met, time]
    · rw [seqS2_met, pulse]
    · obtain ⟨ends, -⟩ | ⟨-, hangs⟩ := seqS2_pos f
      · exact ends
      · exact absurd idle hangs

/-! ### Steps 3 and 4 -/

theorem beatDue_iff (c : Cfg) (m : Metronome) (t : Nat) :
    beatDue c m t = true ↔ m.enabled = true ∧
      (m.beatIntervalUs.toNat : Int) ≤ ((t : Int) - m.lastBeatTimestamp) % (2 ^ c.tsW : Nat) := by
  rw [← elapsed_eq, Nat.cast_le, beatDue, Bool.and_eq_true, decide_eq_true_eq]

theorem pulseOver_iff (c : Cfg) (m : Metronome) (t : Nat) :
    pulseOver c m t = true ↔ m.pulseActive = true ∧
      (c.pulseUs : Int) < ((t : Int) - m.lastBeatTimestamp) % (2 ^ c.tsW : Nat) := by
  rw [← elapsed_eq, Nat.cast_lt, pulseOver, Bool.and_eq_true, decide_eq_true_eq]

/-- Settles O46: step 3 at the time it reads. -/
theorem tickStepThreeBeats : Obligations.TickStepThreeBeats := by
  intro s t3 hrun hprog hpos htime
  have time : s.now.1 = t3 := htime.symm
  refine ⟨_, step_at_s3 hrun hprog hpos, seqS3_pos s, seqS3_enc s, seqS3_prevCounter s, seqS3_target s, ?_⟩
  have due := beatDue_iff s.cfg s.met t3
  obtain ⟨beats, met, out, events⟩ | ⟨quiet, met, out, events⟩ := seqS3_met_out s
  · rw [time] at beats met
    rw [if_pos (due.mp beats)]
    exact ⟨met, out, events⟩
  · rw [time] at quiet
    rw [if_neg (mt due.mpr (by rw [quiet]; exact Bool.false_ne_true))]
    exact ⟨met, out, events⟩

/-- Settles O47: step 4 at the time it reads. -/
theorem tickStepFourEndsThePulse : Obligations.TickStepFourEndsThePulse := by
  intro s t4 hrun hprog hpos htime
  have time : s.now.1 = t4 := htime.symm
  refine ⟨_, step_at_s4 hrun hprog hpos, seqS4_pos s, seqS4_enc s, seqS4_prevCounter s, seqS4_target s, ?_⟩
  have over_iff := pulseOver_iff s.cfg s.met t4
  obtain ⟨ends, met, out, events⟩ | ⟨lasts, met, out, events⟩ := seqS4_met_out s
  · rw [time] at ends
    rw [if_pos (over_iff.mp ends)]
    exact ⟨met, out, events⟩
  · rw [time] at lasts
    rw [if_neg (mt over_iff.mpr (by rw [lasts]; exact Bool.false_ne_true))]
    exact ⟨met, out, events⟩

end Sys2Proof.Machine
end

section
/-! Proofs for 44_beat_scheduler.md: the operation tick (R181, R192). -/

namespace Sys2Proof.Machine

/-! ### A tick and four steps -/

theorem run_succ_of_step {M : Host.Core} {s t : M.State} (k : Nat) (h : M.step s = .next t) :
    M.run (k + 1) s = M.run k t := by
  rw [Host.Core.run, h]

theorem core_run_succ {s t : State} (k : Nat) (h : step s = .next t) :
    Sys2Proof.core.run (k + 1) s = Sys2Proof.core.run k t :=
  run_succ_of_step (M := Sys2Proof.core) k h

/-- From S1 a tick's first half is two steps of the machine, and a tick that comes to its end four (R26, R181). -/
theorem run_of_s1 {s : State} (hrun : s.runnable = true) (hprog : s.prog = []) (hpos : s.pos = .s1) :
    Sys2Proof.core.run 2 s = .next s.tickHalf ∧
      (s.tickHalf.pos = .s3 → Sys2Proof.core.run 4 s = .next (seqS4 (seqS3 s.tickHalf))) := by
  obtain ⟨hwf, hidle, -⟩ := s.runnable_iff.mp hrun
  have f := Cfg.facts hwf
  have at_s1 : ({ s with pos := .s1 } : State) = s := by rw [← hpos]
  have half : s.tickHalf = seqS2 (seqS1 s) := by rw [State.tickHalf, at_s1]
  have step1 := step_at_s1 hrun hprog hpos
  have step2 : step (seqS1 s) = .next s.tickHalf := by
    rw [half]
    refine step_at_s2 ((State.runnable_iff _).mpr ⟨?_, ?_, by simp⟩) ?_ (seqS1_pos s)
    · rw [seqS1_cfg]; exact hwf
    · rw [seqS1_inflight]; exact hidle
    · rw [seqS1_prog]; exact hprog
  refine ⟨by rw [core_run_succ 1 step1, core_run_succ 0 step2]; rfl, fun ends => ?_⟩
  have idle : s.tickHalf.inflight = none := by
    obtain ⟨-, idle⟩ | ⟨hangs, -⟩ := tickHalf_pos f
    · exact idle.trans hidle
    · rw [ends] at hangs; cases hangs
  have prog : s.tickHalf.prog = [] := by rw [half, seqS2_prog, seqS1_prog, hprog]
  have step3 : step s.tickHalf = .next (seqS3 s.tickHalf) := by
    refine step_at_s3 ((State.runnable_iff _).mpr ⟨?_, idle, by simp [ends]⟩) prog ends
    rw [State.tickHalf_cfg]; exact hwf
  have step4 : step (seqS3 s.tickHalf) = .next (seqS4 (seqS3 s.tickHalf)) := by
    refine step_at_s4 ((State.runnable_iff _).mpr ⟨?_, ?_, by simp⟩) ?_ (seqS3_pos _)
    · rw [seqS3_cfg, State.tickHalf_cfg]; exact hwf
    · rw [seqS3_inflight]; exact idle
    · rw [seqS3_prog]; exact prog
  rw [core_run_succ 3 step1, core_run_succ 2 step2, core_run_succ 1 step3, core_run_succ 0 step4]
  rfl

/-- Settles O48: a tick is its first half, and the second where the first came to S3. -/
theorem tickIsFourSteps : Obligations.TickIsFourSteps := by
  intro s t hrun hprog hpos ht
  cases ht
  obtain ⟨two, four⟩ := run_of_s1 hrun hprog hpos
  obtain ⟨ends, e⟩ | ⟨-, e⟩ := tickOp_cases s <;> rw [e]
  · exact ⟨fun _ => four ends, fun stays => absurd (seqS4_pos _) stays⟩
  · exact ⟨fun ends => absurd ends s.tickHalf_pos_ne_s1, fun _ => two⟩

/-! ### A tick on a bus that does not stall -/

/-- The tick's own poll is the poll of an outside caller. -/
theorem tickHalf_enc (s : State) : s.tickHalf.enc = s.polled.enc := by
  rw [State.tickHalf, seqS2_enc, seqS1_enc]
  rfl

/-- Where none of the answers step 2 can take is a stall, a tick's first half comes to S3. -/
theorem tickHalf_ends {s : State} (f : Cfg.Facts s.cfg) (hidle : s.inflight = none)
    (answers : ∀ n, n < 7 * s.cfg.digits → ∀ taken, (Env.afterBus n s.env).takeBus.1 ≠ .stall taken) :
    s.tickHalf.pos = .s3 ∧ s.tickHalf.inflight = none := by
  obtain ⟨pos, idle⟩ | ⟨-, hangs⟩ := tickHalf_pos f
  · exact ⟨pos, idle.trans hidle⟩
  · refine absurd ?_ hangs
    rw [State.tickHalf, seqS2, State.proceed_inflight]
    have answers' : ∀ n, n < 7 * s.cfg.digits → ∀ taken,
        (Env.afterBus n (seqS1 { s with pos := .s1 }).env).takeBus.1 ≠ .stall taken := fun n hn taken => by
      rw [seqS1_env, Env.afterBus_congr (pollOp_env_bus _) (pollOp_env_busDraws _)]
      exact answers n hn taken
    have idle : (seqS1 { s with pos := .s1 }).inflight = none := (seqS1_inflight _).trans hidle
    have cfg : (seqS1 { s with pos := .s1 }).cfg = s.cfg := seqS1_cfg _
    generalize seqS1 { s with pos := .s1 } = u at *
    by_cases still : tempoDelta u.cfg u.enc.counter u.prevCounter = 0
    · rw [tickStep2_still still]
      exact idle
    · rw [tickStep2_moved still]
      obtain ⟨hung, -⟩ | ⟨-, kept⟩ := drawSlots_settled
        (u.met.bpmAfter u.cfg (tempoDelta u.cfg u.enc.counter u.prevCounter)).toNat u.cfg.digits u.cfg.digits
        (u.retempoed (tempoDelta u.cfg u.enc.counter u.prevCounter))
      · exact absurd hung (drawSlots_ends _ _ _ (u.retempoed _) (by rw [cfg]; exact answers')).1
      · exact kept.trans idle

/-- A tick whose first half comes to S3 performs steps 3 and 4. -/
theorem tickOp_of_half {s : State} (h : s.tickHalf.pos = .s3) : tickOp s = seqS4 (seqS3 s.tickHalf) := by
  obtain ⟨-, e⟩ | ⟨stays, -⟩ := tickOp_cases s
  · exact e
  · exact absurd h stays

/-- Steps 3 and 4 leave of MET all but the pulse and its timestamp (R187, R188). -/
theorem seqS4_seqS3_met (s : State) :
    (seqS4 (seqS3 s)).met.bpm = s.met.bpm ∧ (seqS4 (seqS3 s)).met.enabled = s.met.enabled := by
  have four : (seqS4 (seqS3 s)).met.bpm = (seqS3 s).met.bpm ∧
      (seqS4 (seqS3 s)).met.enabled = (seqS3 s).met.enabled := by
    obtain ⟨-, met, -⟩ | ⟨-, met, -⟩ := seqS4_met_out (seqS3 s) <;> rw [met] <;> exact ⟨rfl, rfl⟩
  rw [four.1, four.2]
  obtain ⟨-, met, -⟩ | ⟨-, met, -⟩ := seqS3_met_out s <;> rw [met] <;> exact ⟨rfl, rfl⟩

/-- Step 2 of a tick returns nothing to an outside caller (R31, R210). -/
theorem tickHalf_ret {s : State} (f : Cfg.Facts s.cfg) : s.tickHalf.ret = s.ret := by
  have f' : Cfg.Facts (seqS1 { s with pos := .s1 }).cfg := by rw [seqS1_cfg]; exact f
  rw [State.tickHalf, seqS2, State.proceed_ret (tickStep2_no_violation f'), (tickStep2_seen _).ret, seqS1_ret]

/-- Settles O49: on a bus that does not stall all four steps are performed; steps 1 and 2 set what the statement names, and
steps 3 and 4 leave it. -/
theorem tickCompletes : Obligations.TickCompletes := by
  intro s inv hidle answers
  have f := Cfg.facts inv.cfgWf
  obtain ⟨ends, idle⟩ := tickHalf_ends f hidle answers
  have e := tickOp_of_half ends
  obtain ⟨bpm, enabled⟩ := seqS4_seqS3_met s.tickHalf
  have interval := inv.tickOp.interval
  rw [tickOp_cfg, e] at interval
  have polled : Inv (seqS1 { s with pos := .s1 }) := (inv.withPos .s1).seqS1
  refine ⟨tickOp s, s.polled, (pollOp s).1, rfl, rfl, rfl, ?_⟩
  rw [e]
  refine ⟨rfl, ?_, ?_, ?_, ?_, ?_, ?_, interval, fun delta hrange hmod => ?_⟩
  · rw [seqS4_inflight, seqS3_inflight, idle]
  · rw [seqS4_enc, seqS3_enc, tickHalf_enc]
  · rw [seqS4_prevCounter, seqS3_prevCounter, State.tickHalf, seqS2_prevCounter, seqS1_enc]
    rfl
  · rw [seqS4_prog, seqS3_prog, State.tickHalf, seqS2_prog, seqS1_prog]
  · rw [seqS4_ret, seqS3_ret, tickHalf_ret f]
  · rw [enabled, State.tickHalf, seqS2_met, (metAfterStep2_kept _).1, seqS1_met]
    rfl
  · have change : tempoDelta s.cfg s.polled.enc.counter s.prevCounter = delta :=
      tempoDelta_unique f.cntW hrange hmod
    have tempo := metAfterStep2_bpm polled
    rw [seqS1_cfg, seqS1_met, seqS1_enc, seqS1_prevCounter] at tempo
    rw [bpm, State.tickHalf, seqS2_met, tempo, ← change]
    rfl

/-! ### Beats and the mute -/

/-- A tick's first half moves neither the beat's timestamp nor the pulse. -/
theorem tickHalf_beat (s : State) :
    s.tickHalf.met.lastBeatTimestamp = s.met.lastBeatTimestamp ∧
      s.tickHalf.met.pulseActive = s.met.pulseActive := by
  obtain ⟨-, time, pulse⟩ := metAfterStep2_kept (seqS1 { s with pos := .s1 })
  rw [State.tickHalf, seqS2_met, time, pulse, seqS1_met]
  exact ⟨rfl, rfl⟩

/-- Settles O51: a beat needs MET.enabled, which no step after step 1 changes, and step 4 only ends a pulse. -/
theorem noBeatWhileIdle : Obligations.NoBeatWhileIdle := by
  intro s t ht muted
  cases ht
  obtain ⟨time, pulse⟩ := tickHalf_beat s
  rw [← time, ← pulse]
  obtain ⟨-, e⟩ | ⟨-, e⟩ := tickOp_cases s <;> rw [e] at muted ⊢
  · rw [(seqS4_seqS3_met s.tickHalf).2] at muted
    have three : (seqS3 s.tickHalf).met = s.tickHalf.met := by
      obtain ⟨beats, -⟩ | ⟨-, met, -⟩ := seqS3_met_out s.tickHalf
      · obtain ⟨running, -⟩ := (beatDue_iff _ _ _).mp beats
        rw [running] at muted
        cases muted
      · exact met
    obtain ⟨-, four, -⟩ | ⟨-, four, -⟩ := seqS4_met_out (seqS3 s.tickHalf) <;> rw [four, three]
    · exact ⟨rfl, fun active => by cases active⟩
    · exact ⟨rfl, id⟩
  · exact ⟨rfl, id⟩

/-- The first half of a tick that sees no change of the counter: a poll, the mute flipped by its press, and step 2's
store. -/
theorem tickHalf_still {s : State} (h : s.polled.enc.counter = s.prevCounter) :
    s.tickHalf = { s.polled with
      met := { s.met with enabled := if (pollOp s).1 then !s.met.enabled else s.met.enabled }
      prevCounter := s.polled.enc.counter
      pos := .s3
      ret := s.ret } := by
  have still : tempoDelta (seqS1 { s with pos := .s1 }).cfg (seqS1 { s with pos := .s1 }).enc.counter
      (seqS1 { s with pos := .s1 }).prevCounter = 0 := by
    rw [seqS1_cfg, seqS1_enc, seqS1_prevCounter]
    show tempoDelta s.cfg s.polled.enc.counter s.prevCounter = 0
    rw [h, tempoDelta, sub_self, wrapSigned_zero]
  rw [State.tickHalf, seqS2_still still, seqS1_eq]
  rfl

/-- Settles O52: with the counter as it was step 2 is a store, so step 3 finds the metronome running and the interval
passed, and step 4 leaves the timestamp. -/
theorem unmuteBeatsAtOnce : Obligations.UnmuteBeatsAtOnce := by
  intro s u t3 inv muted hu hpress hcounter htime hpassed
  obtain rfl : s.polled = u := Host.Outcome.next.inj hu
  have press : (pollOp s).1 = true := Ret.press.inj hpress
  have half := tickHalf_still hcounter
  have met : s.tickHalf.met = { s.met with enabled := true } := by
    rw [half]
    show ({ s.met with enabled := if (pollOp s).1 then !s.met.enabled else s.met.enabled } : Metronome) = _
    rw [if_pos press, muted]
    rfl
  have time : s.tickHalf.now.1 = t3 := by
    rw [half, htime]
    rfl
  have cfg := s.tickHalf_cfg
  have events : s.tickHalf.events = s.events := by
    rw [half]
    rfl
  have due : beatDue s.tickHalf.cfg s.tickHalf.met s.tickHalf.now.1 = true := by
    rw [beatDue_iff, cfg, met, time]
    exact ⟨rfl, hpassed⟩
  have e : tickOp s = seqS4 (seqS3 s.tickHalf) := tickOp_of_half (by rw [half])
  obtain ⟨-, beat, -, shown⟩ | ⟨quiet, -⟩ := seqS3_met_out s.tickHalf
  · rw [met, time] at beat
    rw [events, cfg] at shown
    refine ⟨_, rfl, ?_⟩
    rw [e]
    obtain ⟨-, four, -, tail⟩ | ⟨-, four, -, tail⟩ := seqS4_met_out (seqS3 s.tickHalf) <;>
      rw [four, tail, beat, shown]
    · exact ⟨rfl, rfl, _, rfl⟩
    · exact ⟨rfl, rfl, [], (List.append_nil _).symm⟩
  · rw [due] at quiet
    cases quiet

end Sys2Proof.Machine
end
